-- ==== Sys2Proof/Word.lean ====
section
/-! DEFINITION. The word types of the machine: a byte, a 64-bit register cell, a register number of three bits. -/

namespace Sys2Proof

/-- One byte of the code buffer or of the stack (20_memory.md R60). -/
abbrev Byte := BitVec 8

/-- One 64-bit register cell (10_state.md R22), also the carrier of every narrower register value. -/
abbrev Word := BitVec 64

/-- A 3-bit register field of an encoding (30_encoding.md R106, R109). -/
abbrev RegId := Fin 8

end Sys2Proof
end

