-- ==== Sys2Proof/Config.lean ====
section
/-! DEFINITION. What a construction or the host fixes (modes, policies, the parameters of 00_scope.md R6), the
register descriptors, the port of an execution unit, and the constants the spec leaves open. -/

namespace Sys2Proof

/-- The operating mode (10_state.md R21). -/
inductive Mode where
  | real
  | prot
  | long
  deriving DecidableEq, Repr, Inhabited

/-- The stack policy (20_memory.md R70 to R72, R74). -/
inductive StackPolicy where
  | strict
  | forgiving
  | null
  deriving DecidableEq, Repr, Inhabited

/-- The four widths of a register descriptor (10_state.md R23). -/
inductive Width where
  | w8
  | w16
  | w32
  | w64
  deriving DecidableEq, Repr, Inhabited

/-- The open parameter HIGH_BYTE_SHIFT (41_register_file.md R185): where AH, CH, DH, BH lie in their slots. -/
inductive HighByteShift where
  | shift0
  | shift8
  deriving DecidableEq, Repr, Inhabited

/-- The parameter FLAG_MASK (00_scope.md R9) as one bit position below FLAGS_WIDTH = 32 for each flag: every mask
it gives has exactly one bit, as 43_host_interface.md R250 asks. -/
structure FlagBits where
  cf : Fin 32
  pf : Fin 32
  af : Fin 32
  zf : Fin 32
  sf : Fin 32
  of : Fin 32
  deriving DecidableEq, Repr

/-- Distinct flags have distinct masks (92_eei_decisions.md, open parameters: FLAG_MASK). -/
abbrev FlagBits.Distinct (f : FlagBits) : Prop :=
  [f.cf, f.pf, f.af, f.zf, f.sf, f.of].Nodup

/-- The x86 positions of 00_scope.md R9 (PRESUMED by the spec from the family, its G1: log entry 7). -/
def FlagBits.x86 : FlagBits := ⟨0, 2, 4, 6, 7, 11⟩

/-- The parameters a model takes and nothing ever writes (00_scope.md R6). -/
structure Params where
  highByte : HighByteShift
  flags : FlagBits
  deriving DecidableEq, Repr

/-- HIGH_BYTE_SHIFT is left open by the spec (D5): no value of it can be proved (log entry 6). -/
opaque Config.highByteShift : HighByteShift

/-- The four low bits of a recorded REX byte; its high four bits are always 0b0100 (30_encoding.md R110). -/
structure Rex where
  w : Bool
  r : Bool
  x : Bool
  b : Bool
  deriving DecidableEq, Repr, Inhabited

/-- The latches that the leading bytes of one instruction set (10_state.md R33, R34); `rex = none` is
`rex.present = 0`. -/
structure Latches where
  esc : Bool
  p66 : Bool
  p67 : Bool
  rex : Option Rex
  deriving DecidableEq, Repr, Inhabited

/-- No latch set (10_state.md R40; 40_decode_dispatch.md R147). -/
def Latches.clear : Latches := ⟨false, false, false, none⟩

/-- A register descriptor, one value for each entry of the tables of 10_state.md R24 to R26: `legacy id w` (AH, CH,
DH, BH are ids 4 to 7 at width 8), `rexLow i` for SPL, BPL, SIL, DIL (ids 4 to 7; ids 0 to 3 of R25 are the legacy
descriptors AL, CL, DL, BL), `ext id w` for R8 to R15. -/
inductive Descriptor where
  | legacy (id : RegId) (w : Width)
  | rexLow (i : Fin 4)
  | ext (id : RegId) (w : Width)
  deriving DecidableEq, Repr, Inhabited

/-- The fatal error kinds with the information they carry (60_exceptions.md R311). Kind 9 concerns the construction
of a handler object and has no case (R321). -/
inductive FatalError where
  /-- Kind 1 (R314): the effective opcode and `ADDRESS_BASE + ip`. -/
  | invalidOpcode (op : Nat) (address : Int)
  /-- Kind 2 (R315): a unit answered with no boolean. -/
  | handlerContractViolation
  /-- Kind 3 (R313): a checked command while tainted. -/
  | taintedEnvironment
  /-- Kind 4 (R316): the region reaches above STACK_TOP. -/
  | stackUnderflow (a : Int) (n : Nat)
  /-- Kind 5 (R317): read or clear below every written byte. -/
  | stackIndex (a : Int) (n : Nat)
  /-- Kind 6 (R318): growth beyond STACK_MAX. -/
  | stackOverflow (a : Int) (n : Nat)
  /-- Kind 7 (R319): the resolver was handed `mod = 3`. -/
  | invalidAddressingMode (mod : Fin 4) (reg rm : RegId)
  /-- Kind 8 (R320): a descriptor wider than the mode admits. -/
  | registerWidthExceedsMode (d : Descriptor)
  /-- Kind 10 (R322): a code window outside the buffer, one that begins below its start among them (20_memory.md R62). -/
  | codeWindowOutOfRange (off : Int) (n : Nat)
  deriving DecidableEq, Repr, Inhabited

/-- One operation of the engine that a unit performs (40_decode_dispatch.md R151; the same operations as the host's
commands, without the taint check, 43_host_interface.md R240). -/
inductive UnitAction where
  | setIp (t : Int)
  | advanceIp (n : Int)
  | readRegister (d : Descriptor)
  | writeRegister (d : Descriptor) (v : Int)
  | getFlag (mask : Nat)
  | setFlag (mask : Nat) (value : Bool)
  | readStack (a : Int) (n : Nat)
  | writeStack (a : Int) (bytes : List Byte)
  | clearStack (a : Int) (n : Nat)
  | readCode (off : Int) (n : Nat)
  | resolve (mod : Fin 4) (reg rm : RegId)
  deriving DecidableEq, Repr

/-- What a unit answers after its operations: the three-way answer of 40_decode_dispatch.md R149, and the answer that
is no boolean, for which the source names an error (R315). -/
inductive Verdict where
  | accept
  | decline
  | fatal (e : FatalError)
  | nonBoolean
  deriving DecidableEq, Repr, Inhabited

/-- What a unit may read when it is invoked (40_decode_dispatch.md R151, R153). -/
structure UnitView where
  op : Nat
  ip : Nat
  mode : Mode
  addressBase : Int
  slots : Vector Word 16
  eflags : BitVec 32
  latches : Latches
  code : List Byte
  stackTop : Int
  stackMax : Nat
  stackPolicy : StackPolicy
  stackBytes : List Byte
  deriving DecidableEq, Repr

/-- A unit of the host that the spec does not describe (`UNITS` is any list of units, 92_eei_decisions.md): unit
number `id` answers with operations and a verdict that depend on what it may read, and nothing constrains which
(log entry 9). -/
opaque Config.hostUnit : (id : Nat) → UnitView → List UnitAction × Verdict

/-- A callback of a registration record (10_state.md R38): a fixed list of operations with its answer, or a unit
whose code the spec does not give. -/
inductive Callback where
  | script (actions : List UnitAction) (verdict : Verdict)
  | hostUnit (id : Nat)
  deriving DecidableEq, Repr

/-- A handler registration record (10_state.md R38): the reference unit REF, whose map is fixed by 45_reference_units.md
R270, or a record of the host's. -/
inductive UnitRecord where
  | ref
  | host (identity : String) (map : List (Nat × Callback))
  deriving DecidableEq, Repr

end Sys2Proof
end

