-- ==== Sys2Proof/Syntax.lean ====
section
/-! DEFINITION. The instructions: one constructor for each row of spec/opcode_table.json, with the operands that the
encoding gives it. -/

namespace Sys2Proof

/-- A displacement: absent, one byte or four bytes (30_encoding.md R107, R112). -/
inductive Disp where
  | none
  | disp8 (v : BitVec 8)
  | disp32 (v : BitVec 32)
  deriving DecidableEq, Repr

/-- A memory operand in one of the three forms of 42_address_resolver.md R213. -/
inductive MemOperand where
  | direct (base : RegId) (disp : Disp)
  | sib (scaleBits : Fin 4) (index base : RegId) (disp : Disp)
  | rip (disp : BitVec 32)
  deriving DecidableEq, Repr

/-- The `r/m` operand of a ModRM byte: a register (`mod = 3`) or memory (30_encoding.md R107). -/
inductive RmOperand where
  | reg (r : RegId)
  | mem (m : MemOperand)
  deriving DecidableEq, Repr

/-- The immediate of MOV r, imm: OPSIZE()/8 bytes (45_reference_units.md R280). -/
inductive Imm where
  | imm16 (v : BitVec 16)
  | imm32 (v : BitVec 32)
  | imm64 (v : BitVec 64)
  deriving DecidableEq, Repr

/-- The rows of the opcode table (30_encoding.md R114, R116, R122). -/
inductive Instr where
  /-- `0F`, the two-byte escape (R143). -/
  | esc2
  /-- `66` (R144). -/
  | opsize
  /-- `67` (R144). -/
  | addrsize
  /-- `40` to `4F` (R145). -/
  | rex (r : Rex)
  /-- Any byte the rows above leave and no reference row names (R146). -/
  | opcode (b : Byte)
  /-- `90` (R272). -/
  | nop
  /-- `31` XOR r/m, r (R273). -/
  | xorRmR (reg : RegId) (rm : RmOperand)
  /-- `33` XOR r, r/m (R274). -/
  | xorRRm (reg : RegId) (rm : RmOperand)
  /-- `88` MOV r/m8, r8 (R275). -/
  | movRm8R8 (reg : RegId) (rm : RmOperand)
  /-- `89` MOV r/m, r (R276). -/
  | movRmR (reg : RegId) (rm : RmOperand)
  /-- `8A` MOV r8, r/m8 (R277). -/
  | movR8Rm8 (reg : RegId) (rm : RmOperand)
  /-- `8B` MOV r, r/m (R278). -/
  | movRRm (reg : RegId) (rm : RmOperand)
  /-- `B0` to `B7` MOV r8, imm8 (R279). -/
  | movR8Imm8 (r : RegId) (imm : Byte)
  /-- `B8` to `BF` MOV r, imm (R280). -/
  | movRImm (r : RegId) (imm : Imm)
  /-- `50` to `57` (R281). -/
  | pushR (r : RegId)
  /-- `58` to `5F` (R282). -/
  | popR (r : RegId)
  /-- `8D` LEA r, m (R283); the register form is kept, and the unit declines it. -/
  | leaRM (reg : RegId) (rm : RmOperand)
  /-- `E8` CALL rel32 (R284). -/
  | callRel32 (rel : BitVec 32)
  deriving DecidableEq, Repr

/-- What decoding depends on beside the bytes: the mode and the latches (30_encoding.md R102; 45_reference_units.md
R271). -/
structure DecodeCtx where
  mode : Mode
  latches : Latches
  deriving DecidableEq, Repr

end Sys2Proof
end

