-- ==== Sys2Proof/Decode.lean ====
section
/-! DEFINITION. The decoder, total on any bytes and rejecting by name, and the encoder (30_encoding.md;
40_decode_dispatch.md R141 to R146). -/

namespace Sys2Proof

/-! ## Fields and byte order -/

/-- Bits 7:6: `mod` of ModRM, `scaleBits` of SIB (30_encoding.md R106, R109). -/
def byteHi (b : Byte) : Fin 4 := Fin.ofNat 4 (b.toNat / 64)

/-- Bits 5:3: `reg` of ModRM, `index` of SIB (30_encoding.md R106, R109). -/
def byteMid (b : Byte) : RegId := Fin.ofNat 8 (b.toNat / 8)

/-- Bits 2:0: `rm` of ModRM, `base` of SIB, a register id in an opcode (30_encoding.md R106, R109). -/
def byteLow (b : Byte) : RegId := Fin.ofNat 8 b.toNat

/-- A ModRM or SIB byte from its fields. -/
def packByte (hi : Fin 4) (mid low : RegId) : Byte := BitVec.ofNat 8 (64 * hi.val + 8 * mid.val + low.val)

/-- The little-endian value of a byte string (20_memory.md R80). -/
def leNat : List Byte → Nat
  | [] => 0
  | b :: bs => b.toNat + 256 * leNat bs

/-- The `n`-byte little-endian string of `v` (20_memory.md R80). -/
def bytesLe (v : Nat) : Nat → List Byte
  | 0 => []
  | n + 1 => BitVec.ofNat 8 v :: bytesLe (v / 256) n

/-- The REX byte of its four bits (30_encoding.md R110). -/
def Rex.byte (r : Rex) : Byte :=
  BitVec.ofNat 8 (0x40 + 8 * r.w.toNat + 4 * r.r.toNat + 2 * r.x.toNat + r.b.toNat)

/-- The four bits of a REX byte (30_encoding.md R110). -/
def rexOfByte (b : Byte) : Rex :=
  ⟨b.getLsbD 3, b.getLsbD 2, b.getLsbD 1, b.getLsbD 0⟩

/-! ## What the latches say -/

/-- `rex.W`; 0 when no REX byte is recorded (10_state.md R34). -/
def Latches.rexW (l : Latches) : Bool := (l.rex.map Rex.w).getD false

/-- `rex.R` (10_state.md R34). -/
def Latches.rexR (l : Latches) : Bool := (l.rex.map Rex.r).getD false

/-- `rex.X` (10_state.md R34). -/
def Latches.rexX (l : Latches) : Bool := (l.rex.map Rex.x).getD false

/-- `rex.B` (10_state.md R34). -/
def Latches.rexB (l : Latches) : Bool := (l.rex.map Rex.b).getD false

/-- OPSIZE() as a width (45_reference_units.md R271). -/
def opWidth (c : DecodeCtx) : Width :=
  if c.mode = .long ∧ c.latches.rexW = true then .w64
  else if c.latches.p66 = true then .w16
  else if c.mode = .real then .w16
  else .w32

/-- A width in bits (10_state.md R23). -/
def Width.bits : Width → Nat
  | .w8 => 8
  | .w16 => 16
  | .w32 => 32
  | .w64 => 64

/-- A width in bytes. -/
def Width.bytes : Width → Nat
  | .w8 => 1
  | .w16 => 2
  | .w32 => 4
  | .w64 => 8

/-! ## Byte classes -/

/-- The class of the byte at `ip` (30_encoding.md R102). -/
inductive ByteClass where
  | escape
  | opsize
  | addrsize
  | rex
  | opcode
  deriving DecidableEq, Repr

/-- 30_encoding.md R102, in its order of tests. -/
def byteClass (c : DecodeCtx) (b : Byte) : ByteClass :=
  if b = 0x0F ∧ c.mode ≠ .real then .escape
  else if b = 0x66 ∧ c.mode ≠ .real ∧ c.latches.esc = false then .opsize
  else if b = 0x67 ∧ c.mode ≠ .real ∧ c.latches.esc = false then .addrsize
  else if b &&& 0xF0 = 0x40 ∧ c.mode = .long ∧ c.latches.esc = false then .rex
  else .opcode

/-- The effective opcode of an opcode byte (30_encoding.md R104). -/
def effOpcode (esc : Bool) (b : Byte) : Nat := if esc then 0xF00 ||| b.toNat else b.toNat

/-! ## The reference map -/

/-- The rows of the reference unit's map (30_encoding.md R116). -/
inductive RefRow where
  | nop
  | xorRmR
  | xorRRm
  | movRm8R8
  | movRmR
  | movR8Rm8
  | movRRm
  | movR8Imm8
  | movRImm
  | pushR
  | popR
  | leaRM
  | callRel32
  deriving DecidableEq, Repr

/-- The rows of spec/opcode_table.json with unit REF: mask and match of the 12-bit effective opcode (30_encoding.md
R116, R122). -/
def refTable : List (Nat × Nat × RefRow) :=
  [(0xFFF, 0x090, .nop), (0xFFF, 0x031, .xorRmR), (0xFFF, 0x033, .xorRRm), (0xFFF, 0x088, .movRm8R8),
   (0xFFF, 0x089, .movRmR), (0xFFF, 0x08A, .movR8Rm8), (0xFFF, 0x08B, .movRRm), (0xFF8, 0x0B0, .movR8Imm8),
   (0xFF8, 0x0B8, .movRImm), (0xFF8, 0x050, .pushR), (0xFF8, 0x058, .popR), (0xFFF, 0x08D, .leaRM),
   (0xFFF, 0x0E8, .callRel32)]

/-- The reference row whose key an effective opcode is. -/
def refRow (op : Nat) : Option RefRow :=
  (refTable.find? fun e => op &&& e.1 == e.2.1).map fun e => e.2.2

/-- The mode and latch part of a row's `when` in spec/opcode_table.json: where it fails the unit declines before it
reads an operand byte (45_reference_units.md R272, R284), and the byte is read as an OPCODE row (log entry 15). -/
def refWhen (c : DecodeCtx) : RefRow → Bool
  | .nop => !c.latches.rexB
  | .callRel32 => c.mode != .real && !c.latches.p66
  | _ => true

/-! ## Operands -/

/-- The first `n` bytes and the rest, where there are `n`. -/
def takeBytes (n : Nat) (bs : List Byte) : Option (List Byte × List Byte) :=
  if n ≤ bs.length then some (bs.take n, bs.drop n) else none

/-- The displacement that `mod` announces (30_encoding.md R107, R112). -/
def decodeDisp (mod : Fin 4) (bs : List Byte) : Option (Disp × List Byte) :=
  match mod with
  | 0 => some (.none, bs)
  | 1 => (takeBytes 1 bs).map fun p => (.disp8 (BitVec.ofNat 8 (leNat p.1)), p.2)
  | 2 => (takeBytes 4 bs).map fun p => (.disp32 (BitVec.ofNat 32 (leNat p.1)), p.2)
  | 3 => none

/-- The memory form and its bytes after the ModRM byte (30_encoding.md R108; 42_address_resolver.md R211). -/
def decodeMem (mode : Mode) (mod : Fin 4) (rm : RegId) (bs : List Byte) : Option (MemOperand × List Byte) :=
  if rm = 4 then
    match bs with
    | [] => none
    | sib :: rest =>
      (decodeDisp mod rest).map fun p => (.sib (byteHi sib) (byteMid sib) (byteLow sib) p.1, p.2)
  else if rm = 5 ∧ mod = 0 ∧ mode = .long then
    (takeBytes 4 bs).map fun p => (.rip (BitVec.ofNat 32 (leNat p.1)), p.2)
  else (decodeDisp mod bs).map fun p => (.direct rm p.1, p.2)

/-- The ModRM byte and what follows it: the `reg` field, the `r/m` operand, the rest. -/
def decodeModRM (mode : Mode) (bs : List Byte) : Option (RegId × RmOperand × List Byte) :=
  match bs with
  | [] => none
  | m :: rest =>
    if byteHi m = 3 then some (byteMid m, .reg (byteLow m), rest)
    else (decodeMem mode (byteHi m) (byteLow m) rest).map fun p => (byteMid m, .mem p.1, p.2)

/-- The immediate of MOV r, imm at a width (45_reference_units.md R271, R280). -/
def immOf (w : Width) (v : Nat) : Imm :=
  match w with
  | .w8 => .imm16 (BitVec.ofNat 16 v)
  | .w16 => .imm16 (BitVec.ofNat 16 v)
  | .w32 => .imm32 (BitVec.ofNat 32 v)
  | .w64 => .imm64 (BitVec.ofNat 64 v)

/-- Why a byte string is no instruction. -/
inductive Reject where
  /-- There is no byte at all. -/
  | endOfBuffer
  /-- The operand bytes that the reference row of this opcode byte needs are not all there. -/
  | truncated (b : Byte)
  deriving DecidableEq, Repr

/-- The operands of a reference row, read from the bytes after the opcode byte `b`. -/
def decodeRow (c : DecodeCtx) (row : RefRow) (b : Byte) (bs : List Byte) : Option (Instr × List Byte) :=
  let modrm (f : RegId → RmOperand → Instr) : Option (Instr × List Byte) :=
    (decodeModRM c.mode bs).map fun p => (f p.1 p.2.1, p.2.2)
  match row with
  | .nop => some (.nop, bs)
  | .xorRmR => modrm .xorRmR
  | .xorRRm => modrm .xorRRm
  | .movRm8R8 => modrm .movRm8R8
  | .movRmR => modrm .movRmR
  | .movR8Rm8 => modrm .movR8Rm8
  | .movRRm => modrm .movRRm
  | .movR8Imm8 => (takeBytes 1 bs).map fun p => (.movR8Imm8 (byteLow b) (BitVec.ofNat 8 (leNat p.1)), p.2)
  | .movRImm => (takeBytes (opWidth c).bytes bs).map fun p => (.movRImm (byteLow b) (immOf (opWidth c) (leNat p.1)), p.2)
  | .pushR => some (.pushR (byteLow b), bs)
  | .popR => some (.popR (byteLow b), bs)
  | .leaRM => modrm .leaRM
  | .callRel32 => (takeBytes 4 bs).map fun p => (.callRel32 (BitVec.ofNat 32 (leNat p.1)), p.2)

/-- The reference row that an opcode byte announces in a context, if its mode and latch condition holds. -/
def rowOf (c : DecodeCtx) (b : Byte) : Option RefRow :=
  (refRow (effOpcode c.latches.esc b)).filter (refWhen c)

/-- The decoder: the instruction at the head of a byte string, and the bytes after it. -/
def decode (c : DecodeCtx) : List Byte → Except Reject (Instr × List Byte)
  | [] => .error .endOfBuffer
  | b :: bs =>
    match byteClass c b with
    | .escape => .ok (.esc2, bs)
    | .opsize => .ok (.opsize, bs)
    | .addrsize => .ok (.addrsize, bs)
    | .rex => .ok (.rex (rexOfByte b), bs)
    | .opcode =>
      match rowOf c b with
      | none => .ok (.opcode b, bs)
      | some row =>
        match decodeRow c row b bs with
        | some p => .ok p
        | none => .error (.truncated b)

/-! ## The encoder -/

/-- The `mod` field that a displacement needs (30_encoding.md R107). -/
def Disp.mod : Disp → Fin 4
  | .none => 0
  | .disp8 _ => 1
  | .disp32 _ => 2

/-- The bytes of a displacement (30_encoding.md R112). -/
def Disp.bytes : Disp → List Byte
  | .none => []
  | .disp8 v => [v]
  | .disp32 v => bytesLe v.toNat 4

/-- The ModRM byte with its SIB and displacement bytes (30_encoding.md R106, R108, R109). -/
def encodeModRM (reg : RegId) : RmOperand → List Byte
  | .reg r => [packByte 3 reg r]
  | .mem (.direct base d) => packByte d.mod reg base :: d.bytes
  | .mem (.sib s i b d) => packByte d.mod reg 4 :: packByte s i b :: d.bytes
  | .mem (.rip d) => packByte 0 reg 5 :: bytesLe d.toNat 4

/-- The bytes of an immediate (45_reference_units.md R271). -/
def Imm.bytes : Imm → List Byte
  | .imm16 v => bytesLe v.toNat 2
  | .imm32 v => bytesLe v.toNat 4
  | .imm64 v => bytesLe v.toNat 8

/-- An opcode byte with a register id in its low three bits. -/
def opcodeWithReg (base : Nat) (r : RegId) : Byte := BitVec.ofNat 8 (base + r.val)

/-- The bytes of an instruction (30_encoding.md R100, R114, R116). -/
def encode : Instr → List Byte
  | .esc2 => [0x0F]
  | .opsize => [0x66]
  | .addrsize => [0x67]
  | .rex r => [r.byte]
  | .opcode b => [b]
  | .nop => [0x90]
  | .xorRmR reg rm => 0x31 :: encodeModRM reg rm
  | .xorRRm reg rm => 0x33 :: encodeModRM reg rm
  | .movRm8R8 reg rm => 0x88 :: encodeModRM reg rm
  | .movRmR reg rm => 0x89 :: encodeModRM reg rm
  | .movR8Rm8 reg rm => 0x8A :: encodeModRM reg rm
  | .movRRm reg rm => 0x8B :: encodeModRM reg rm
  | .movR8Imm8 r v => [opcodeWithReg 0xB0 r, v]
  | .movRImm r v => opcodeWithReg 0xB8 r :: v.bytes
  | .pushR r => [opcodeWithReg 0x50 r]
  | .popR r => [opcodeWithReg 0x58 r]
  | .leaRM reg rm => 0x8D :: encodeModRM reg rm
  | .callRel32 rel => 0xE8 :: bytesLe rel.toNat 4

/-! ## The opcode table's words -/

/-- The context in which the words of spec/opcode_table.json are read: Long mode, the one mode in which every row can
occur (30_encoding.md R103), and no latch set. -/
def tableCtx : DecodeCtx := ⟨.long, .clear⟩

/-- A table word laid out as the code buffer holds it: its own bytes, lowest first, and zero bytes up to 16, which is
more than the longest instruction. -/
def tableBytes (nbits w : Nat) : List Byte := bytesLe (w % 2 ^ nbits) 16

/-- The instruction that the decoder reads from a table word. -/
def decodeTableWord (nbits w : Nat) : Option Instr :=
  match decode tableCtx (tableBytes nbits w) with
  | .ok p => some p.1
  | .error _ => none

end Sys2Proof
end

