-- ==== Sys2Proof/Machine/State.lean ====
section
/-! DEFINITION. The state of one engine as plain data, the reasons a step can stop, and the state after reset. -/

namespace Sys2Proof.Machine

open Sys2Proof

/-- The content of the stack: cells (depth, byte), where the byte at address `a` has depth `STACK_TOP - a`. Depths rise
strictly, and a depth that is not listed reads as zero (log entry 1). -/
abbrev Memory := List Host.Cell

/-- The stack (10_state.md R37): its configuration, its length `L` and its bytes. -/
structure Stack where
  top : Int
  max : Nat
  policy : StackPolicy
  len : Nat
  mem : Memory
  deriving DecidableEq, Repr

/-- The complete state of one engine (10_state.md R20), with the parameters of 00_scope.md R6 that the spec leaves open
and nothing writes. -/
structure State where
  params : Params
  mode : Mode
  slots : Vector Word 16
  eflags : BitVec 32
  ip : Nat
  addressBase : Int
  latches : Latches
  tainted : Bool
  code : List Byte
  stack : Stack
  units : List UnitRecord
  faulted : Option FatalError
  deriving DecidableEq, Repr

/-- Why no scan step is enabled. -/
inductive Fault where
  /-- Raised by `step` while `tainted` is set: `simulate()` fails at once, nothing changes, and `reset()` is the way
  back (60_exceptions.md R313). Safe: the machine stops where the spec stops it. -/
  | taintedEnvironment
  /-- Raised by `step` when an earlier step raised a fatal error: no scan step is enabled while `faulted` is set
  (60_exceptions.md R312). Safe: the machine stops where the spec stops it. -/
  | halted (e : FatalError)
  deriving DecidableEq, Repr

/-- What the spec refuses to give a meaning (00_scope.md R13). -/
inductive Refusal where
  /-- An instruction that has no meaning in this model. Safe. -/
  | notModelled (mnemonic : String)
  /-- A write of a negative value to ip, by a unit or the host (10_state.md R30). Safe. -/
  | negativeInstructionPointer
  /-- An access to a slot 8 to 15 outside Long mode, by a unit or the host (41_register_file.md R182). Safe. -/
  | absentSlot
  /-- A stack access of no byte, by a unit of the host or the host (20_memory.md R67). Safe. -/
  | zeroLengthAccess
  /-- A flag mask that is not exactly one bit below FLAGS_WIDTH, by a unit of the host or the host (43_host_interface.md
  R250, R251). Safe. -/
  | badFlagMask
  /-- A reference unit's load that the Forgiving policy answers with the empty string (45_reference_units.md R287).
  Safe. -/
  | emptyLoad
  deriving DecidableEq, Repr

/-- Construction (power-on), 43_host_interface.md R249, 70_reset_and_hazards.md R341. -/
def State.powerOn (params : Params) (mode : Mode) (policy : StackPolicy) (top : Int) (max : Nat) : State where
  params := params
  mode := mode
  slots := Vector.replicate 16 0
  eflags := 0
  ip := 0
  addressBase := 0
  latches := .clear
  tainted := false
  code := []
  stack := ⟨top, max, policy, 0, []⟩
  units := []
  faulted := none

/-- The machine right after power-on. The spec leaves the construction's arguments to the host: this model constructs a
Long-mode engine with the default Strict policy, top 0x7FFF and size 0x1000 (DESIGN CHOICE, unsafe: log entry 4). -/
def State.reset : State :=
  State.powerOn ⟨Config.highByteShift, .x86⟩ .long .strict 0x7FFF 0x1000

/-! Updates of one field, so that their lemmas (Sys2Proof/Laws/State.lean) are said once. -/

def State.withMode (s : State) (m : Mode) : State := { s with mode := m }
def State.withSlots (s : State) (v : Vector Word 16) : State := { s with slots := v }
def State.withFlags (s : State) (v : BitVec 32) : State := { s with eflags := v }
def State.withIp (s : State) (v : Nat) : State := { s with ip := v }
def State.withBase (s : State) (v : Int) : State := { s with addressBase := v }
def State.withLatches (s : State) (l : Latches) : State := { s with latches := l }
def State.withTaint (s : State) (b : Bool) : State := { s with tainted := b }
def State.withCode (s : State) (c : List Byte) : State := { s with code := c }
def State.withStack (s : State) (st : Stack) : State := { s with stack := st }
def State.withUnits (s : State) (u : List UnitRecord) : State := { s with units := u }
def State.withFault (s : State) (f : Option FatalError) : State := { s with faulted := f }

end Sys2Proof.Machine
end

