-- ==== Sys2Proof/Machine/Ops.lean ====
section
/-! DEFINITION. The named operations over registers, the code buffer and the stack; taking a fatal error, and the way
back from one. Every operation of a unit runs in `UnitM`: it answers a value and a state, or stops with the state as it
stands at that point (60_exceptions.md R312, R323). -/

namespace Sys2Proof

/-! ## Descriptors (10_state.md R23 to R26; 41_register_file.md R195) -/

/-- MAXW(MODE) = 8 << MODE (00_scope.md R7). -/
def Mode.maxWidth : Mode → Nat
  | .real => 16
  | .prot => 32
  | .long => 64

/-- MAXW(MODE) as a descriptor width. -/
def Mode.addrWidth : Mode → Width
  | .real => .w16
  | .prot => .w32
  | .long => .w64

/-- NREGS(MODE) (00_scope.md R7). -/
def Mode.nregs : Mode → Nat
  | .real => 8
  | .prot => 8
  | .long => 16

/-- The canonical slot of a descriptor (10_state.md R24 to R26). -/
def Descriptor.slot : Descriptor → Fin 16
  | .legacy id .w8 => Fin.ofNat 16 (id.val % 4)
  | .legacy id .w16 => Fin.ofNat 16 id.val
  | .legacy id .w32 => Fin.ofNat 16 id.val
  | .legacy id .w64 => Fin.ofNat 16 id.val
  | .rexLow i => Fin.ofNat 16 (i.val + 4)
  | .ext id _ => Fin.ofNat 16 (id.val + 8)

/-- The encoded id of a descriptor, 0 to 7 (10_state.md R23). -/
def Descriptor.code : Descriptor → RegId
  | .legacy id _ => id
  | .rexLow i => Fin.ofNat 8 (i.val + 4)
  | .ext id _ => id

/-- The width of a descriptor (10_state.md R23, R25). -/
def Descriptor.width : Descriptor → Width
  | .legacy _ w => w
  | .rexLow _ => .w8
  | .ext _ w => w

/-- AH, CH, DH, BH: ids 4 to 7 at width 8 of the legacy table (10_state.md R24). -/
def Descriptor.isHighByte : Descriptor → Bool
  | .legacy id .w8 => 4 ≤ id.val
  | _ => false

/-- HIGH_BYTE_SHIFT in bits (41_register_file.md R185). -/
def HighByteShift.bits : HighByteShift → Nat
  | .shift0 => 0
  | .shift8 => 8

/-- `sh(d)` (10_state.md R23; 41_register_file.md R184, R185). -/
def Descriptor.shift (p : Params) (d : Descriptor) : Nat := if d.isHighByte then p.highByte.bits else 0

/-- The value mask `2^width - 1` of a width (10_state.md R23; MASK64 = 2^64 - 1, D4). -/
def Width.mask : Width → Word
  | .w8 => 0xFF
  | .w16 => 0xFFFF
  | .w32 => 0xFFFFFFFF
  | .w64 => 0xFFFFFFFFFFFFFFFF

/-- `d.mask` (10_state.md R23). -/
def Descriptor.mask (d : Descriptor) : Word := d.width.mask

/-- The display name of a descriptor (10_state.md R24 to R26). -/
def Descriptor.name : Descriptor → String
  | .legacy id .w8 => ["AL", "CL", "DL", "BL", "AH", "CH", "DH", "BH"].getD id.val ""
  | .legacy id .w16 => ["AX", "CX", "DX", "BX", "SP", "BP", "SI", "DI"].getD id.val ""
  | .legacy id .w32 => ["EAX", "ECX", "EDX", "EBX", "ESP", "EBP", "ESI", "EDI"].getD id.val ""
  | .legacy id .w64 => ["RAX", "RCX", "RDX", "RBX", "RSP", "RBP", "RSI", "RDI"].getD id.val ""
  | .rexLow i => ["SPL", "BPL", "SIL", "DIL"].getD i.val ""
  | .ext id w =>
    ["R8", "R9", "R10", "R11", "R12", "R13", "R14", "R15"].getD id.val "" ++
      match w with
      | .w8 => "B"
      | .w16 => "W"
      | .w32 => "D"
      | .w64 => ""

/-- GetByCode (41_register_file.md R181, R182): a pure lookup that does not test the mode. -/
def getByCode (id : RegId) (w : Width) (rexPresent rexExtend : Bool) : Descriptor :=
  if rexPresent && rexExtend then .ext id w
  else if rexPresent && w == .w8 && 4 ≤ id.val then .rexLow (Fin.ofNat 4 id.val)
  else .legacy id w

/-- The ordinal of a fatal error kind (60_exceptions.md R311, D27). -/
def FatalError.ordinal : FatalError → Nat
  | .invalidOpcode _ _ => 1
  | .handlerContractViolation => 2
  | .taintedEnvironment => 3
  | .stackUnderflow _ _ => 4
  | .stackIndex _ _ => 5
  | .stackOverflow _ _ => 6
  | .invalidAddressingMode _ _ _ => 7
  | .registerWidthExceedsMode _ => 8
  | .codeWindowOutOfRange _ _ => 10

end Sys2Proof

namespace Sys2Proof.Machine

open Sys2Proof

/-! ## Stopping, taking a fatal error, and the way back -/

/-- How an operation of a unit ends early: a fatal error (00_scope.md R12 `raise`), a decline (40_decode_dispatch.md
R149), or a situation without a meaning (00_scope.md R13). -/
inductive Stop where
  | fatal (e : FatalError)
  | decline
  | refuse (r : Refusal)
  deriving DecidableEq, Repr

/-- A unit's computation: a stop keeps the state as it stands, since nothing is rolled back (60_exceptions.md R323). -/
abbrev UnitM := EStateM Stop State

/-- `raise K(info)` inside a unit. -/
def raise {α : Type} (e : FatalError) : UnitM α := throw (Stop.fatal e)

/-- A situation the spec refuses to settle. -/
def refuse {α : Type} (r : Refusal) : UnitM α := throw (Stop.refuse r)

/-- Taking a fatal error (60_exceptions.md R312): `faulted` records the first one; nothing else changes, so every write
made before the error stands (R323) and ip and the latches stay (R314, R326). -/
def State.takeFatal (s : State) (e : FatalError) : State :=
  match s.faulted with
  | none => s.withFault (some e)
  | some _ => s

/-- The host command `reset()`, the one way back from a fatal error or the taint (70_reset_and_hazards.md R342, R343;
60_exceptions.md R327). The 16 cells cover the NREGS slots of the configured mode (log entry 11). -/
def State.hostReset (s : State) : State :=
  ((((((s.withSlots (Vector.replicate 16 0)).withFlags 0).withLatches .clear).withStack
    ⟨s.stack.top, s.stack.max, s.stack.policy, 0, []⟩).withTaint false).withIp 0).withFault none

/-! ## Instruction pointer and code buffer -/

/-- `ip <- t` (10_state.md R30): a negative value is refused. -/
def setIp (t : Int) : UnitM Unit :=
  if t < 0 then refuse .negativeInstructionPointer else modify fun s => s.withIp t.toNat

/-- `CodeRead(off, n)`, for any integer offset: a RIP-form address that a unit hands on can be negative (20_memory.md R62;
42_address_resolver.md R227). -/
def codeRead (off : Int) (n : Nat) : UnitM (List Byte) := do
  let s ← get
  if 0 ≤ off ∧ off + n ≤ s.code.length then
    pure ((s.code.drop off.toNat).take n)
  else raise (.codeWindowOutOfRange off n)

/-! ## Registers -/

/-- The slot of a descriptor exists in a mode (10_state.md R22). -/
def slotExists (m : Mode) (d : Descriptor) : Bool := d.slot.val < m.nregs

/-- The descriptor's width is one the mode admits (41_register_file.md R188). -/
def widthFits (m : Mode) (d : Descriptor) : Bool := d.width.bits ≤ m.maxWidth

/-- The view of a descriptor (41_register_file.md R184, R186). -/
def State.view (s : State) (d : Descriptor) : Word :=
  (s.slots.get d.slot >>> d.shift s.params) &&& d.mask

/-- The slot after a write through a descriptor (41_register_file.md R187, R189). -/
def slotAfterWrite (m : Mode) (p : Params) (d : Descriptor) (old v : Word) : Word :=
  let v' := v &&& d.mask
  if m = .long ∧ 32 ≤ d.width.bits then v'
  else (old &&& ~~~(d.mask <<< d.shift p)) ||| (v' <<< d.shift p)

/-- The state after a write through a descriptor that the mode admits. -/
def State.putView (s : State) (d : Descriptor) (v : Word) : State :=
  s.withSlots (s.slots.set d.slot (slotAfterWrite s.mode s.params d (s.slots.get d.slot) v))

/-- What a register access checks before it reads or changes anything: the slot exists (41_register_file.md R182; log
entry 11), the width fits (R188). -/
def checkRegister (d : Descriptor) : UnitM Unit := do
  let s ← get
  if !slotExists s.mode d then refuse .absentSlot
  else if !widthFits s.mode d then raise (.registerWidthExceedsMode d)
  else pure ()

/-- `RegRead(d)` (41_register_file.md R186). -/
def regRead (d : Descriptor) : UnitM Word := do
  checkRegister d
  let s ← get
  pure (s.view d)

/-- `RegWrite(d, v)` (41_register_file.md R187). -/
def regWrite (d : Descriptor) (v : Word) : UnitM Unit := do
  checkRegister d
  modify fun s => s.putView d v

/-! ## The stack's cells -/

/-- The byte at a depth. -/
def Memory.get : Memory → Nat → Byte
  | [], _ => 0
  | c :: m, a => if a = c.1 then c.2 else Memory.get m a

/-- Sets the byte at a depth and keeps the canonical form. -/
def Memory.set : Memory → Nat → Byte → Memory
  | [], a, v => if v = 0 then [] else [(a, v)]
  | c :: m, a, v =>
    if a < c.1 then (if v = 0 then c :: m else (a, v) :: c :: m)
    else if a = c.1 then (if v = 0 then m else (a, v) :: m)
    else c :: Memory.set m a v

/-- Writes a byte string at rising addresses, which are falling depths. -/
def Memory.writeDown (m : Memory) (depth : Nat) : List Byte → Memory
  | [] => m
  | b :: bs => Memory.writeDown (Memory.set m depth b) (depth - 1) bs

/-- Cells at strictly rising depths from `lo` on, none of them zero. -/
def Memory.wfFrom (lo : Nat) : Memory → Bool
  | [] => true
  | c :: m => decide (lo ≤ c.1) && c.2 != 0 && Memory.wfFrom (c.1 + 1) m

/-- The canonical form of the stack's cells. -/
def Memory.wf (m : Memory) : Bool := Memory.wfFrom 0 m

/-- One more than the greatest listed depth; 0 where none is listed. -/
def Memory.bound : Memory → Nat
  | [] => 0
  | [c] => c.1 + 1
  | _ :: c :: m => Memory.bound (c :: m)

/-! ## The stack (20_memory.md) -/

/-- `off(a) = a - (T - L) - 1` (R65). -/
def Stack.off (st : Stack) (a : Int) : Int := a - (st.top - st.len) - 1

/-- The depth of an address at or below the top. -/
def Stack.depth (st : Stack) (a : Int) : Nat := (st.top - a).toNat

/-- The byte at an address of the occupied interval [T - L + 1, T] (R66); none outside it. -/
def Stack.byteAt (st : Stack) (a : Int) : Option Byte :=
  if st.top - st.len < a ∧ a ≤ st.top then some (Memory.get st.mem (st.depth a)) else none

/-- `stack_buf`, index 0 (the lowest occupied address) first (R66, R73). -/
def Stack.bytes (st : Stack) : List Byte :=
  (List.range st.len).map fun i => Memory.get st.mem (st.len - 1 - i)

/-- `StrictRead(a, n)` (R68, R69). -/
def Stack.strictRead (st : Stack) (a : Int) (n : Nat) : Except FatalError (List Byte) :=
  if st.top < a + n - 1 then .error (.stackUnderflow a n)
  else if st.off a < 0 then .error (.stackIndex a n)
  else .ok ((List.range n).map fun (j : Nat) => Memory.get st.mem (st.depth (a + (j : Int))))

/-- `StrictWrite(a, bytes)` (R68, R76) with growth (R77): the bytes of a gap are unlisted depths, which read as zero. -/
def Stack.strictWrite (st : Stack) (a : Int) (bytes : List Byte) : Except FatalError Stack :=
  if st.top < a + bytes.length - 1 then .error (.stackUnderflow a bytes.length)
  else if 0 ≤ st.off a then .ok { st with mem := Memory.writeDown st.mem (st.depth a) bytes }
  else if st.max < st.top - a + 1 then .error (.stackOverflow a bytes.length)
  else .ok { st with len := st.depth a + 1, mem := Memory.writeDown st.mem (st.depth a) bytes }

/-- `StrictClear(a, n)` (R68, R78): zero-fills the region, then trims every leading zero byte, so that the length is one
more than the depth of the lowest non-zero byte. -/
def Stack.strictClear (st : Stack) (a : Int) (n : Nat) : Except FatalError Stack :=
  if st.top < a + n - 1 then .error (.stackUnderflow a n)
  else if st.off a < 0 then .error (.stackIndex a n)
  else
    let m := Memory.writeDown st.mem (st.depth a) (List.replicate n 0)
    .ok { st with len := Memory.bound m, mem := m }

/-- The two errors that the Forgiving policy absorbs (R70 to R72). -/
def absorbed : FatalError → Bool
  | .stackUnderflow _ _ => true
  | .stackIndex _ _ => true
  | _ => false

/-- `MemRead(a, n)` by policy (R70). -/
def Stack.read (st : Stack) (a : Int) (n : Nat) : Except FatalError (List Byte) :=
  match st.policy with
  | .strict => st.strictRead a n
  | .forgiving =>
    match st.strictRead a n with
    | .ok bs => .ok bs
    | .error e => if absorbed e then .ok [] else .error e
  | .null => .ok (List.replicate n 0)

/-- `MemWrite(a, n, v)` by policy (R71). -/
def Stack.write (st : Stack) (a : Int) (bytes : List Byte) : Except FatalError Stack :=
  match st.policy with
  | .strict => st.strictWrite a bytes
  | .forgiving =>
    match st.strictWrite a bytes with
    | .ok st' => .ok st'
    | .error e => if absorbed e then .ok st else .error e
  | .null => .ok st

/-- `MemClear(a, n)` by policy (R72). -/
def Stack.clear (st : Stack) (a : Int) (n : Nat) : Except FatalError Stack :=
  match st.policy with
  | .strict => st.strictClear a n
  | .forgiving =>
    match st.strictClear a n with
    | .ok st' => .ok st'
    | .error e => if absorbed e then .ok st else .error e
  | .null => .ok st

/-- `MemRead`; an access of no byte is refused (R67). -/
def memRead (a : Int) (n : Nat) : UnitM (List Byte) := do
  let s ← get
  if n = 0 then refuse .zeroLengthAccess
  else
    match s.stack.read a n with
    | .ok bs => pure bs
    | .error e => raise e

/-- `MemWrite`; an access of no byte is refused (R67). -/
def memWrite (a : Int) (bytes : List Byte) : UnitM Unit := do
  let s ← get
  if bytes.length = 0 then refuse .zeroLengthAccess
  else
    match s.stack.write a bytes with
    | .ok st => set (s.withStack st)
    | .error e => raise e

/-- `MemClear`; an access of no byte is refused (R67). -/
def memClear (a : Int) (n : Nat) : UnitM Unit := do
  let s ← get
  if n = 0 then refuse .zeroLengthAccess
  else
    match s.stack.clear a n with
    | .ok st => set (s.withStack st)
    | .error e => raise e

/-! ## Fetching -/

/-- What decoding depends on, as the state holds it. -/
def State.ctx (s : State) : DecodeCtx := ⟨s.mode, s.latches⟩

/-- The instruction at ip (40_decode_dispatch.md R141, R142). -/
def fetch (s : State) : Except Reject (Instr × List Byte) := decode s.ctx (s.code.drop s.ip)

/-- A byte string placed in a code buffer at an offset. -/
def placeCode (code : List Byte) (off : Nat) (bytes : List Byte) : List Byte :=
  code.take off ++ List.replicate (off - code.length) 0 ++ bytes ++ code.drop (off + bytes.length)

end Sys2Proof.Machine
end

