-- ==== Sys2Proof/Machine/Leading.lean ====
section
/-! DEFINITION. The leading bytes: the escape, the two operand prefixes, REX (40_decode_dispatch.md R143 to R145). -/

namespace Sys2Proof.Machine

open Sys2Proof

/-- Records a leading byte in the latches and advances ip by 1. -/
def State.latch (s : State) (l : Latches) : State := (s.withLatches l).withIp (s.ip + 1)

/-- ESC2 (40_decode_dispatch.md R143). -/
def execEsc2 (s : State) : Host.Outcome State Fault Refusal := .next (s.latch { s.latches with esc := true })

/-- OPSIZE (40_decode_dispatch.md R144). -/
def execOpsize (s : State) : Host.Outcome State Fault Refusal := .next (s.latch { s.latches with p66 := true })

/-- ADDRSIZE (40_decode_dispatch.md R144). -/
def execAddrsize (s : State) : Host.Outcome State Fault Refusal := .next (s.latch { s.latches with p67 := true })

/-- REX: a second REX byte replaces the first (40_decode_dispatch.md R145). -/
def execRex (r : Rex) (s : State) : Host.Outcome State Fault Refusal := .next (s.latch { s.latches with rex := some r })

end Sys2Proof.Machine
end

