-- ==== Sys2Proof/Machine/Flags.lean ====
section
/-! DEFINITION. Flag access by mask and the flag result of a logical operation. -/

namespace Sys2Proof.Machine

open Sys2Proof

/-- The mask of a flag's bit (00_scope.md R9). -/
def flagMask (i : Fin 32) : BitVec 32 := BitVec.ofNat 32 (2 ^ i.val)

/-- A flag mask the spec gives a meaning: exactly one bit, below FLAGS_WIDTH (43_host_interface.md R250, R251). -/
def oneBitMask (m : Nat) : Bool := (List.range 32).any fun i => m == 2 ^ i

/-- `GetFlag(m)` on a flags value (43_host_interface.md R250). -/
def getMasked (f m : BitVec 32) : Bool := f &&& m != 0

/-- `SetFlag(m, b)` on a flags value (43_host_interface.md R251). -/
def setMasked (f m : BitVec 32) (b : Bool) : BitVec 32 := if b then f ||| m else f &&& ~~~m

/-- `GetFlag(m)` for a unit (43_host_interface.md R250). -/
def getFlag (m : Nat) : UnitM Bool := do
  let s ← get
  if !oneBitMask m then refuse .badFlagMask else pure (getMasked s.eflags (BitVec.ofNat 32 m))

/-- `SetFlag(m, b)` for a unit (43_host_interface.md R251). -/
def setFlag (m : Nat) (b : Bool) : UnitM Unit :=
  if !oneBitMask m then refuse .badFlagMask
  else modify fun s => s.withFlags (setMasked s.eflags (BitVec.ofNat 32 m) b)

/-- `r[7:0]` has an even number of 1 bits (45_reference_units.md R288). -/
def evenParity (r : Word) : Bool := ((List.range 8).countP fun i => r.getLsbD i) % 2 == 0

/-- `LogicFlags(r, w)` (45_reference_units.md R288), in the order of its lines. -/
def logicFlags (p : FlagBits) (r : Word) (w : Width) (f : BitVec 32) : BitVec 32 :=
  let f := setMasked f (flagMask p.cf) false
  let f := setMasked f (flagMask p.of) false
  let f := setMasked f (flagMask p.sf) (r.getLsbD (w.bits - 1))
  let f := setMasked f (flagMask p.zf) (r == 0)
  setMasked f (flagMask p.pf) (evenParity r)

/-- The state after `LogicFlags(r, w)`. -/
def State.setLogicFlags (s : State) (r : Word) (w : Width) : State :=
  s.withFlags (logicFlags s.params.flags r w s.eflags)

end Sys2Proof.Machine
end

