-- ==== Sys2Proof/Machine/Operands.lean ====
section
/-! DEFINITION. The operand forms: operand sizes, register operands, the addressing-mode resolver, the fetch of a
ModRM operand, loads and stores. -/

namespace Sys2Proof.Machine

open Sys2Proof

/-! ## Sizes and register operands (45_reference_units.md R271, R289) -/

/-- OPSIZE(). -/
def State.opSize (s : State) : Width := opWidth s.ctx

/-- STKSIZE(). -/
def State.stkSize (s : State) : Width := if s.latches.p66 then .w16 else s.mode.addrWidth

/-- SPREG: SP, ESP or RSP. -/
def State.spReg (s : State) : Descriptor := getByCode 4 s.mode.addrWidth false false

/-- `RegOp(f, e, w)`. -/
def State.regOp (s : State) (f : RegId) (ext : Bool) (w : Width) : Descriptor :=
  getByCode f w s.latches.rex.isSome ext

/-! ## The resolver (42_address_resolver.md) -/

/-- An Addressing Result (R210), with the values captured when the resolver ran (R220). -/
inductive AddrResult where
  | direct (base : Word) (disp : Int) (dispSize : Nat)
  | sib (scale : Nat) (index base : Word) (disp : Int) (dispSize : Nat)
  | rip (anchor : Nat) (disp : Int)
  deriving DecidableEq, Repr

/-- `address(e)`, an exact integer (R214 to R216, R224, R225). -/
def AddrResult.address (e : Int) : AddrResult → Int
  | .direct base disp _ => base.toNat + disp + e
  | .sib scale index base disp _ => scale * index.toNat + base.toNat + disp + e
  | .rip anchor disp => (anchor + 4) + disp + e

/-- `displacementSizeInBytes()` (R220). -/
def AddrResult.dispSize : AddrResult → Nat
  | .direct _ _ n => n
  | .sib _ _ _ _ n => n
  | .rip _ _ => 4

/-- `consumed` (R221). -/
def AddrResult.consumed : AddrResult → Nat
  | .direct _ _ n => n
  | .sib _ _ _ _ n => 1 + n
  | .rip _ _ => 4

/-- The displacement size that `mod` announces (30_encoding.md R107). -/
def dispSizeOf (mod : Fin 4) : Nat :=
  match mod with
  | 0 => 0
  | 1 => 1
  | 2 => 4
  | 3 => 0

/-- The signed value of a displacement of 0, 1 or 4 bytes (30_encoding.md R112; 00_scope.md R11). -/
def signedLe (bs : List Byte) : Int := (leNat bs : Int) - if 2 * leNat bs < 256 ^ bs.length then 0 else 256 ^ bs.length

/-- A register read for an address, at ADDR_REG_WIDTH(MODE) (42_address_resolver.md R219). -/
def readAddrReg (f : RegId) (ext : Bool) : UnitM Word := do
  let s ← get
  regRead (s.regOp f ext s.mode.addrWidth)

/-- The displacement bytes at an offset; none are read where `mod` announces none (42_address_resolver.md R214, R215). -/
def readDisp (off : Nat) (mod : Fin 4) : UnitM (List Byte) :=
  if dispSizeOf mod = 0 then pure [] else codeRead off (dispSizeOf mod)

/-- `Resolve({mod, reg, rm})` on the code buffer, with ip at the byte after the ModRM byte (42_address_resolver.md R211 to
R216, R222). -/
def resolve (mod : Fin 4) (reg rm : RegId) : UnitM AddrResult := do
  let s ← get
  if mod = 3 then raise (.invalidAddressingMode mod reg rm)
  else if rm = 4 then do
    let sib ← codeRead s.ip 1
    let b := BitVec.ofNat 8 (leNat sib)
    let index ← readAddrReg (byteMid b) s.latches.rexX
    let base ← readAddrReg (byteLow b) s.latches.rexB
    let disp ← readDisp (s.ip + 1) mod
    pure (.sib (2 ^ (byteHi b).val) index base (signedLe disp) (dispSizeOf mod))
  else if rm = 5 ∧ mod = 0 ∧ s.mode = .long then do
    let disp ← codeRead s.ip 4
    pure (.rip s.ip (signedLe disp))
  else do
    let base ← readAddrReg rm s.latches.rexB
    let disp ← readDisp s.ip mod
    pure (.direct base (signedLe disp) (dispSizeOf mod))

/-- The signed value of a decoded displacement. -/
def dispValue : Disp → Int
  | .none => 0
  | .disp8 v => v.toInt
  | .disp32 v => v.toInt

/-- The bytes of a decoded displacement. -/
def dispLen : Disp → Nat
  | .none => 0
  | .disp8 _ => 1
  | .disp32 _ => 4

/-- The same resolution for an operand the decoder has read: the registers are read, the bytes are known
(42_address_resolver.md R214 to R216). -/
def evalMem (m : MemOperand) : UnitM AddrResult := do
  let s ← get
  match m with
  | .direct base d =>
    let b ← readAddrReg base s.latches.rexB
    pure (.direct b (dispValue d) (dispLen d))
  | .sib scale index base d =>
    let i ← readAddrReg index s.latches.rexX
    let b ← readAddrReg base s.latches.rexB
    pure (.sib (2 ^ scale.val) i b (dispValue d) (dispLen d))
  | .rip d => pure (.rip s.ip d.toInt)

/-! ## The ModRM operand (45_reference_units.md R289) -/

/-- Where an `r/m` operand lies: in a register, or on the stack at an effective address. -/
inductive Loc where
  | reg (r : RegId)
  | mem (ea : Int)
  deriving DecidableEq, Repr

/-- What `FetchModRM()` leaves: the `reg` field and the `r/m` operand. -/
structure Fetched where
  reg : RegId
  loc : Loc
  deriving DecidableEq, Repr

/-- Moves ip forward. -/
def skip (n : Nat) : UnitM Unit := modify fun s => s.withIp (s.ip + n)

/-- `FetchModRM()` on the code buffer. -/
def fetchModRM : UnitM Fetched := do
  let s ← get
  let bs ← codeRead ((s.ip + 1 : Nat) : Int) 1
  let m := BitVec.ofNat 8 (leNat bs)
  skip 2
  if byteHi m = 3 then
    pure ⟨byteMid m, .reg (byteLow m)⟩
  else
    let a ← resolve (byteHi m) (byteMid m) (byteLow m)
    skip a.consumed
    pure ⟨byteMid m, .mem (a.address 0)⟩

/-- `FetchModRM()` for operands the decoder has read. -/
def fetchOperand (reg : RegId) (rm : RmOperand) : UnitM Fetched := do
  skip 2
  match rm with
  | .reg r => pure ⟨reg, .reg r⟩
  | .mem m =>
    let a ← evalMem m
    skip a.consumed
    pure ⟨reg, .mem (a.address 0)⟩

/-- An immediate of `n` bytes after the opcode byte, from the code buffer (45_reference_units.md R271). -/
def fetchImm (n : Nat) : UnitM Word := do
  let s ← get
  let bs ← codeRead ((s.ip + 1 : Nat) : Int) n
  pure (BitVec.ofNat 64 (leNat bs))

/-- The value of a decoded immediate. -/
def immValue : Imm → Word
  | .imm16 v => v.setWidth 64
  | .imm32 v => v.setWidth 64
  | .imm64 v => v

/-! ## Loads and stores (45_reference_units.md R287) -/

/-- `Load(ea, w)`. -/
def load (ea : Int) (w : Width) : UnitM Word := do
  let bs ← memRead ea w.bytes
  if bs.length = w.bytes then pure (BitVec.ofNat 64 (leNat bs)) else refuse .emptyLoad

/-- `Store(ea, w, v)`. -/
def store (ea : Int) (w : Width) (v : Word) : UnitM Unit := memWrite ea (bytesLe v.toNat w.bytes)

/-- Reads an `r/m` operand of a width. -/
def readLoc (l : Loc) (w : Width) : UnitM Word := do
  let s ← get
  match l with
  | .reg r => regRead (s.regOp r s.latches.rexB w)
  | .mem ea => load ea w

/-- Writes an `r/m` operand of a width. -/
def writeLoc (l : Loc) (w : Width) (v : Word) : UnitM Unit := do
  let s ← get
  match l with
  | .reg r => regWrite (s.regOp r s.latches.rexB w) v
  | .mem ea => store ea w v

/-- Reads the `reg` operand of a width. -/
def readReg (f : RegId) (w : Width) : UnitM Word := do
  let s ← get
  regRead (s.regOp f s.latches.rexR w)

/-- Writes the `reg` operand of a width. -/
def writeReg (f : RegId) (w : Width) (v : Word) : UnitM Unit := do
  let s ← get
  regWrite (s.regOp f s.latches.rexR w) v

/-- Writes the register whose id stands in the low three bits of the opcode. -/
def writeOpReg (f : RegId) (w : Width) (v : Word) : UnitM Unit := do
  let s ← get
  regWrite (s.regOp f s.latches.rexB w) v

end Sys2Proof.Machine
end

