-- ==== Sys2Proof/Machine/Units.lean ====
section
/-! DEFINITION. Execution units and the dispatch chain (40_decode_dispatch.md R146 to R153): what a unit answers, the
units of the host, and the walk along `UNITS`. -/

namespace Sys2Proof.Machine

open Sys2Proof

/-- A unit's answer (40_decode_dispatch.md R149): a decline carries no state (R152, D16). -/
inductive Answer where
  | accept (s : State)
  | decline
  | fatal (e : FatalError) (s : State)
  | refused (r : Refusal)
  deriving DecidableEq, Repr

/-- The answer of a unit's computation: it accepts where it ends. -/
def answerOf (m : UnitM Unit) (s : State) : Answer :=
  match m s with
  | .ok _ t => .accept t
  | .error (.fatal e) t => .fatal e t
  | .error .decline _ => .decline
  | .error (.refuse r) _ => .refused r

/-- One operation of a unit of the host (40_decode_dispatch.md R151). -/
def runAction : UnitAction → UnitM Unit
  | .setIp t => setIp t
  | .advanceIp n => do
    let s ← get
    setIp (s.ip + n)
  | .readRegister d => do
    let _ ← regRead d
    pure ()
  | .writeRegister d v => regWrite d (BitVec.ofInt 64 v)
  | .getFlag m => do
    let _ ← getFlag m
    pure ()
  | .setFlag m b => setFlag m b
  | .readStack a n => do
    let _ ← memRead a n
    pure ()
  | .writeStack a bytes => memWrite a bytes
  | .clearStack a n => memClear a n
  | .readCode off n => do
    let _ ← codeRead off n
    pure ()
  | .resolve mod reg rm => do
    let _ ← resolve mod reg rm
    pure ()

/-- The operations of a unit in their order. -/
def runActions : List UnitAction → UnitM Unit
  | [] => pure ()
  | a :: as => do
    runAction a
    runActions as

/-- The verdict at the end of a unit's operations; an answer that is no boolean is `HandlerContractViolation` at that
point (60_exceptions.md R315). -/
def runVerdict : Verdict → UnitM Unit
  | .accept => pure ()
  | .decline => throw Stop.decline
  | .fatal e => raise e
  | .nonBoolean => raise .handlerContractViolation

/-- What a unit may read when it is invoked under the key `op` (40_decode_dispatch.md R151, R153). -/
def unitView (op : Nat) (s : State) : UnitView where
  op := op
  ip := s.ip
  mode := s.mode
  addressBase := s.addressBase
  slots := s.slots
  eflags := s.eflags
  latches := s.latches
  code := s.code
  stackTop := s.stack.top
  stackMax := s.stack.max
  stackPolicy := s.stack.policy
  stackBytes := s.stack.bytes

/-- A callback of the host's, invoked under the key `op`. -/
def runCallback (op : Nat) : Callback → UnitM Unit
  | .script actions v => do
    runActions actions
    runVerdict v
  | .hostUnit id => do
    let s ← get
    runActions (Config.hostUnit id (unitView op s)).1
    runVerdict (Config.hostUnit id (unitView op s)).2

/-- The callback a record holds for an effective opcode, `ref` being REF's callback for it; none where the record's map
lacks the key (40_decode_dispatch.md R146, R150; 45_reference_units.md R270). -/
def callbackOf (op : Nat) (ref : UnitM Unit) : UnitRecord → Option (UnitM Unit)
  | .ref => if (refRow op).isSome then some ref else none
  | .host _ map => (map.find? fun e => e.1 == op).map fun e => runCallback op e.2

/-- Acceptance: the latches are cleared, ip stays where the unit left it (40_decode_dispatch.md R147). -/
def State.clearLatches (s : State) : State := s.withLatches .clear

/-- The walk along the chain, front to back, for an effective opcode (40_decode_dispatch.md R146 to R148). -/
def walk (op : Nat) (ref : UnitM Unit) (s : State) : List UnitRecord → Host.Outcome State Fault Refusal
  | [] => .next (s.takeFatal (.invalidOpcode op (s.addressBase + s.ip)))
  | u :: us =>
    match callbackOf op ref u with
    | none => walk op ref s us
    | some m =>
      match answerOf m s with
      | .accept t => .next t.clearLatches
      | .decline => walk op ref s us
      | .fatal e t => .next (t.takeFatal e)
      | .refused r => .refused r

/-- The dispatch step for an effective opcode, with REF's callback for it (40_decode_dispatch.md R146). -/
def dispatch (op : Nat) (ref : UnitM Unit) (s : State) : Host.Outcome State Fault Refusal := walk op ref s s.units

end Sys2Proof.Machine
end

