-- ==== Sys2Proof/Machine/Logic.lean ====
section
/-! DEFINITION. The reference units NOP and XOR (45_reference_units.md R272 to R274). A body is the unit's callback; it
takes the fetch of its operands, from the code buffer or from what the decoder has read. -/

namespace Sys2Proof.Machine

open Sys2Proof

/-- NOP: declines with REX.B (45_reference_units.md R272). -/
def nopBody : UnitM Unit := do
  let s ← get
  if s.latches.rexB then throw Stop.decline else skip 1

/-- XOR r/m, r (45_reference_units.md R273). -/
def xorRmRBody (fetched : UnitM Fetched) : UnitM Unit := do
  let s ← get
  let w := s.opSize
  let o ← fetched
  let src ← readReg o.reg w
  let dst ← readLoc o.loc w
  let r := dst ^^^ src
  writeLoc o.loc w r
  modify fun t => t.setLogicFlags r w

/-- XOR r, r/m (45_reference_units.md R274). -/
def xorRRmBody (fetched : UnitM Fetched) : UnitM Unit := do
  let s ← get
  let w := s.opSize
  let o ← fetched
  let src ← readLoc o.loc w
  let dst ← readReg o.reg w
  let r := dst ^^^ src
  writeReg o.reg w r
  modify fun t => t.setLogicFlags r w

/-- NOP, opcode 0x090. -/
def execNop (s : State) : Host.Outcome State Fault Refusal := dispatch 0x090 nopBody s

/-- XOR r/m, r, opcode 0x031. -/
def execXorRmR (reg : RegId) (rm : RmOperand) (s : State) : Host.Outcome State Fault Refusal :=
  dispatch 0x031 (xorRmRBody (fetchOperand reg rm)) s

/-- XOR r, r/m, opcode 0x033. -/
def execXorRRm (reg : RegId) (rm : RmOperand) (s : State) : Host.Outcome State Fault Refusal :=
  dispatch 0x033 (xorRRmBody (fetchOperand reg rm)) s

end Sys2Proof.Machine
end

