-- ==== Sys2Proof/Machine/Move.lean ====
section
/-! DEFINITION. The reference units MOV and LEA (45_reference_units.md R275 to R280, R283). -/

namespace Sys2Proof.Machine

open Sys2Proof

/-- A move from the `reg` operand to the `r/m` operand (45_reference_units.md R275, R276). -/
def moveToRm (w : Width) (fetched : UnitM Fetched) : UnitM Unit := do
  let o ← fetched
  let v ← readReg o.reg w
  writeLoc o.loc w v

/-- A move from the `r/m` operand to the `reg` operand (45_reference_units.md R277, R278). -/
def moveToReg (w : Width) (fetched : UnitM Fetched) : UnitM Unit := do
  let o ← fetched
  let v ← readLoc o.loc w
  writeReg o.reg w v

/-- MOV r/m8, r8 (45_reference_units.md R275). -/
def movRm8R8Body (fetched : UnitM Fetched) : UnitM Unit := moveToRm .w8 fetched

/-- MOV r/m, r (45_reference_units.md R276). -/
def movRmRBody (fetched : UnitM Fetched) : UnitM Unit := do
  let s ← get
  moveToRm s.opSize fetched

/-- MOV r8, r/m8 (45_reference_units.md R277). -/
def movR8Rm8Body (fetched : UnitM Fetched) : UnitM Unit := moveToReg .w8 fetched

/-- MOV r, r/m (45_reference_units.md R278). -/
def movRRmBody (fetched : UnitM Fetched) : UnitM Unit := do
  let s ← get
  moveToReg s.opSize fetched

/-- MOV r8, imm8 (45_reference_units.md R279). -/
def movR8Imm8Body (r : RegId) (imm : UnitM Word) : UnitM Unit := do
  let v ← imm
  writeOpReg r .w8 v
  skip 2

/-- MOV r, imm (45_reference_units.md R280); the immediate has OPSIZE()/8 bytes. -/
def movRImmBody (r : RegId) (imm : Nat → UnitM Word) : UnitM Unit := do
  let s ← get
  let v ← imm s.opSize.bytes
  writeOpReg r s.opSize v
  skip (1 + s.opSize.bytes)

/-- LEA r, m: declines the register form with nothing changed (45_reference_units.md R283). -/
def leaBody (fetched : UnitM Fetched) : UnitM Unit := do
  let s ← get
  let o ← fetched
  match o.loc with
  | .reg _ => throw Stop.decline
  | .mem ea => writeReg o.reg s.opSize (BitVec.ofInt 64 ea)

/-- MOV r/m8, r8, opcode 0x088. -/
def execMovRm8R8 (reg : RegId) (rm : RmOperand) (s : State) : Host.Outcome State Fault Refusal :=
  dispatch 0x088 (movRm8R8Body (fetchOperand reg rm)) s

/-- MOV r/m, r, opcode 0x089. -/
def execMovRmR (reg : RegId) (rm : RmOperand) (s : State) : Host.Outcome State Fault Refusal :=
  dispatch 0x089 (movRmRBody (fetchOperand reg rm)) s

/-- MOV r8, r/m8, opcode 0x08A. -/
def execMovR8Rm8 (reg : RegId) (rm : RmOperand) (s : State) : Host.Outcome State Fault Refusal :=
  dispatch 0x08A (movR8Rm8Body (fetchOperand reg rm)) s

/-- MOV r, r/m, opcode 0x08B. -/
def execMovRRm (reg : RegId) (rm : RmOperand) (s : State) : Host.Outcome State Fault Refusal :=
  dispatch 0x08B (movRRmBody (fetchOperand reg rm)) s

/-- MOV r8, imm8, opcodes 0x0B0 to 0x0B7. -/
def execMovR8Imm8 (r : RegId) (imm : Byte) (s : State) : Host.Outcome State Fault Refusal :=
  dispatch (0x0B0 + r.val) (movR8Imm8Body r (pure (imm.setWidth 64))) s

/-- MOV r, imm, opcodes 0x0B8 to 0x0BF. -/
def execMovRImm (r : RegId) (imm : Imm) (s : State) : Host.Outcome State Fault Refusal :=
  dispatch (0x0B8 + r.val) (movRImmBody r fun _ => pure (immValue imm)) s

/-- LEA r, m, opcode 0x08D. -/
def execLeaRM (reg : RegId) (rm : RmOperand) (s : State) : Host.Outcome State Fault Refusal :=
  dispatch 0x08D (leaBody (fetchOperand reg rm)) s

end Sys2Proof.Machine
end

