-- ==== Sys2Proof/Machine/StackUnits.lean ====
section
/-! DEFINITION. The reference units that use the stack pointer: PUSH, POP, CALL (45_reference_units.md R281, R282,
R284). -/

namespace Sys2Proof.Machine

open Sys2Proof

/-- A stack pointer moved by `n` bytes, modulo the mode's width. -/
def moveSp (m : Mode) (sp : Word) (n : Int) : Int := ((sp.toNat : Int) + n) % 2 ^ m.maxWidth

/-- Stores `v` below the stack pointer and then moves the stack pointer (45_reference_units.md R281, R284). -/
def pushValue (w : Width) (v : Word) : UnitM Unit := do
  let s ← get
  let old ← regRead s.spReg
  let sp := moveSp s.mode old (-(w.bytes : Int))
  store sp w v
  regWrite s.spReg (BitVec.ofInt 64 sp)

/-- PUSH r (45_reference_units.md R281). -/
def pushBody (r : RegId) : UnitM Unit := do
  let s ← get
  let v ← regRead (s.regOp r s.latches.rexB s.stkSize)
  pushValue s.stkSize v
  skip 1

/-- POP r (45_reference_units.md R282): the destination is written last, nothing is cleared. -/
def popBody (r : RegId) : UnitM Unit := do
  let s ← get
  let sp ← regRead s.spReg
  let v ← load sp.toNat s.stkSize
  regWrite s.spReg (BitVec.ofInt 64 (moveSp s.mode sp s.stkSize.bytes))
  writeOpReg r s.stkSize v
  skip 1

/-- CALL rel32 (45_reference_units.md R284): declines in Real mode and under the prefix 0x66; a negative target is refused
(10_state.md R30). -/
def callBody (rel : UnitM Word) : UnitM Unit := do
  let s ← get
  if s.mode = .real ∨ s.latches.p66 = true then throw Stop.decline
  else do
    let v ← rel
    pushValue s.mode.addrWidth (BitVec.ofInt 64 (s.addressBase + s.ip + 5))
    setIp (s.ip + 5 + (v.setWidth 32).toInt)

/-- PUSH r, opcodes 0x050 to 0x057. -/
def execPushR (r : RegId) (s : State) : Host.Outcome State Fault Refusal := dispatch (0x050 + r.val) (pushBody r) s

/-- POP r, opcodes 0x058 to 0x05F. -/
def execPopR (r : RegId) (s : State) : Host.Outcome State Fault Refusal := dispatch (0x058 + r.val) (popBody r) s

/-- CALL rel32, opcode 0x0E8. -/
def execCallRel32 (rel : BitVec 32) (s : State) : Host.Outcome State Fault Refusal :=
  dispatch 0x0E8 (callBody (pure (rel.setWidth 64))) s

end Sys2Proof.Machine
end

