-- ==== Sys2Proof/Machine/Opcode.lean ====
section
/-! DEFINITION. The dispatch of an opcode byte (40_decode_dispatch.md R146): REF's callback for an effective opcode reads
its operands from the code buffer. -/

namespace Sys2Proof.Machine

open Sys2Proof

/-- The register id in the low three bits of an effective opcode. -/
def opReg (op : Nat) : RegId := Fin.ofNat 8 op

/-- REF's callback for an effective opcode (45_reference_units.md R270, R272 to R284). -/
def refCallback (op : Nat) : UnitM Unit :=
  match refRow op with
  | none => throw Stop.decline
  | some .nop => nopBody
  | some .xorRmR => xorRmRBody fetchModRM
  | some .xorRRm => xorRRmBody fetchModRM
  | some .movRm8R8 => movRm8R8Body fetchModRM
  | some .movRmR => movRmRBody fetchModRM
  | some .movR8Rm8 => movR8Rm8Body fetchModRM
  | some .movRRm => movRRmBody fetchModRM
  | some .movR8Imm8 => movR8Imm8Body (opReg op) (fetchImm 1)
  | some .movRImm => movRImmBody (opReg op) fetchImm
  | some .pushR => pushBody (opReg op)
  | some .popR => popBody (opReg op)
  | some .leaRM => leaBody fetchModRM
  | some .callRel32 => callBody (fetchImm 4)

/-- The dispatch of the opcode byte `b` (40_decode_dispatch.md R146). -/
def execOpcode (b : Byte) (s : State) : Host.Outcome State Fault Refusal :=
  dispatch (effOpcode s.latches.esc b) (refCallback (effOpcode s.latches.esc b)) s

/-- A byte string that is no whole instruction: where operand bytes are missing the opcode byte is dispatched all the
same, and the unit that reads the missing window raises the error (log entry 16); with no byte at all the run has
ended. -/
def execRejected (r : Reject) (s : State) : Host.Outcome State Fault Refusal :=
  match r with
  | .endOfBuffer => .next s
  | .truncated b => execOpcode b s

end Sys2Proof.Machine
end

