-- ==== Sys2Proof/Machine/Dispatch.lean ====
section
/-! DEFINITION. One arm for each instruction. -/

namespace Sys2Proof.Machine

open Sys2Proof

def exec (i : Instr) (s : State) : Host.Outcome State Fault Refusal :=
  match i with
  | .esc2 => Sys2Proof.Machine.execEsc2 s
  | .opsize => Sys2Proof.Machine.execOpsize s
  | .addrsize => Sys2Proof.Machine.execAddrsize s
  | .rex r => Sys2Proof.Machine.execRex r s
  | .opcode b => Sys2Proof.Machine.execOpcode b s
  | .nop => Sys2Proof.Machine.execNop s
  | .xorRmR reg rm => Sys2Proof.Machine.execXorRmR reg rm s
  | .xorRRm reg rm => Sys2Proof.Machine.execXorRRm reg rm s
  | .movRm8R8 reg rm => Sys2Proof.Machine.execMovRm8R8 reg rm s
  | .movRmR reg rm => Sys2Proof.Machine.execMovRmR reg rm s
  | .movR8Rm8 reg rm => Sys2Proof.Machine.execMovR8Rm8 reg rm s
  | .movRRm reg rm => Sys2Proof.Machine.execMovRRm reg rm s
  | .movR8Imm8 r imm => Sys2Proof.Machine.execMovR8Imm8 r imm s
  | .movRImm r imm => Sys2Proof.Machine.execMovRImm r imm s
  | .pushR r => Sys2Proof.Machine.execPushR r s
  | .popR r => Sys2Proof.Machine.execPopR r s
  | .leaRM reg rm => Sys2Proof.Machine.execLeaRM reg rm s
  | .callRel32 rel => Sys2Proof.Machine.execCallRel32 rel s

end Sys2Proof.Machine
end

