-- ==== Sys2Proof/Machine/Step.lean ====
section
/-! DEFINITION. One scan step of `simulate()` (40_decode_dispatch.md R140 to R146), and the placing of one instruction
where it is fetched. -/

namespace Sys2Proof.Machine

open Sys2Proof

/-- One scan step. While tainted, `simulate()` fails at once (R140); while `faulted` is set no step is enabled
(60_exceptions.md R312); with ip at or past the end of the buffer the run has ended normally and nothing changes (R141,
R156; log entry 3). -/
def step (s : State) : Host.Outcome State Fault Refusal :=
  if s.tainted then .fault .taintedEnvironment
  else
    match s.faulted with
    | some e => .fault (.halted e)
    | none =>
      if s.code.length ≤ s.ip then .next s
      else
        match fetch s with
        | .ok p => exec p.1 s
        | .error r => execRejected r s

/-- The state in which the next step fetches and runs the instruction of a table word: the word stands at ip, the mode
and the latches are those the table is read in, REF is at the front of the chain, and the run is enabled (log entry
10). -/
def State.withFetchWord (s : State) (nbits w : Nat) : State :=
  (((((s.withCode (placeCode s.code s.ip (tableBytes nbits w))).withMode tableCtx.mode).withLatches
    tableCtx.latches).withUnits (.ref :: s.units)).withTaint false).withFault none

end Sys2Proof.Machine
end

