-- ==== Sys2Proof/Machine/Commands.lean ====
section
/-! DEFINITION. The host's command port (43_host_interface.md): one function, each command one indivisible transaction,
taken only while no run is in progress (log entry 22). -/

namespace Sys2Proof.Machine

open Sys2Proof

/-- The commands of the host (43_host_interface.md R242 to R264). `simulate` carries the step bound of the run, the open
parameter STEP_BOUND (40_decode_dispatch.md R154; log entry 8). -/
inductive Command where
  | setCodeBuffer (bytes : List Byte)
  | simulate (bound : Nat)
  | reset
  | getInstructionPointer
  | setInstructionPointer (n : Int)
  | advanceInstructionPointer (n : Int)
  | readRegister (d : Descriptor)
  | writeRegister (d : Descriptor) (v : Int)
  | getFlag (mask : Nat)
  | setFlag (mask : Nat) (value : Bool)
  | getFlags
  | readStackAt (a : Int) (n : Nat)
  | writeStackAt (a : Int) (bytes : List Byte)
  | clearStackAt (a : Int) (n : Nat)
  | getStack
  | registerInstructions (u : UnitRecord)
  | setMode (m : Mode)
  | setStackAddress (a : Int)
  | setStackSize (n : Nat)
  | setAddressBase (b : Int)
  deriving DecidableEq, Repr

/-- What a command returns to the host. -/
inductive Reply where
  | nothing
  | int (v : Int)
  | flag (b : Bool)
  | bytes (bs : List Byte)
  deriving DecidableEq, Repr

/-- How a command ends. -/
inductive CommandResult where
  /-- The command is done. -/
  | done (s : State) (r : Reply)
  /-- The command ended with a fatal error; the state is what the host finds (60_exceptions.md R312, R326). -/
  | error (e : FatalError) (s : State)
  /-- `simulate()` while `faulted` is set: no step is enabled (40_decode_dispatch.md R140; U18). -/
  | stuck (e : FatalError)
  /-- The spec refuses the situation (00_scope.md R13). -/
  | refused (r : Refusal)
  /-- The step bound was reached: the run did not end (40_decode_dispatch.md R154). -/
  | didNotEnd (s : State)
  deriving DecidableEq, Repr

/-- The commands that check the taint (43_host_interface.md R241). -/
def Command.checksTaint : Command → Bool
  | .simulate _ => true
  | .readRegister _ => true
  | .writeRegister _ _ => true
  | .readStackAt _ _ => true
  | .writeStackAt _ _ => true
  | .clearStackAt _ _ => true
  | .getStack => true
  | .getFlag _ => true
  | .setFlag _ _ => true
  | .getFlags => true
  | .getInstructionPointer => true
  | .setInstructionPointer _ => true
  | .advanceInstructionPointer _ => true
  | .reset => false
  | .setMode _ => false
  | .setStackAddress _ => false
  | .setStackSize _ => false
  | .setAddressBase _ => false
  | .registerInstructions _ => false
  | .setCodeBuffer _ => false

/-- An operation of the engine issued as a command: a fatal error ends the command and is recorded (60_exceptions.md R312;
log entry 12). No operation declines. -/
def asCommand (m : UnitM Reply) (s : State) : CommandResult :=
  match m s with
  | .ok r t => .done t r
  | .error (.fatal e) t => .error e (t.takeFatal e)
  | .error (.refuse r) _ => .refused r
  | .error .decline t => .done t .nothing

/-- The loop of `simulate()` under a step bound (40_decode_dispatch.md R141, R154). -/
def runLoop : Nat → State → CommandResult
  | 0, s => if s.code.length ≤ s.ip then .done s .nothing else .didNotEnd s
  | n + 1, s =>
    if s.code.length ≤ s.ip then .done s .nothing
    else
      match step s with
      | .next t =>
        match t.faulted with
        | some e => .error e t
        | none => runLoop n t
      | .fault (.halted e) => .stuck e
      | .fault .taintedEnvironment => .error .taintedEnvironment s
      | .refused r => .refused r

/-- `simulate()` (40_decode_dispatch.md R140, R141). -/
def simulate (bound : Nat) (s : State) : CommandResult :=
  match s.faulted with
  | some e => .stuck e
  | none => runLoop bound s

/-- A command's effect when the taint does not shut it out. -/
def runCommand (c : Command) (s : State) : CommandResult :=
  match c with
  | .setCodeBuffer bytes => .done (s.withCode bytes) .nothing
  | .simulate n => simulate n s
  | .reset => .done s.hostReset .nothing
  | .getInstructionPointer => .done s (.int s.ip)
  | .setInstructionPointer n => asCommand (do setIp n; pure .nothing) s
  | .advanceInstructionPointer n => asCommand (do setIp (s.ip + n); pure .nothing) s
  | .readRegister d => asCommand (do let v ← regRead d; pure (.int v.toNat)) s
  | .writeRegister d v => asCommand (do regWrite d (BitVec.ofInt 64 v); pure .nothing) s
  | .getFlag m => asCommand (do let b ← getFlag m; pure (.flag b)) s
  | .setFlag m b => asCommand (do setFlag m b; pure .nothing) s
  | .getFlags => .done s (.int s.eflags.toNat)
  | .readStackAt a n => asCommand (do let bs ← memRead a n; pure (.bytes bs)) s
  | .writeStackAt a bytes => asCommand (do memWrite a bytes; pure .nothing) s
  | .clearStackAt a n => asCommand (do memClear a n; pure .nothing) s
  | .getStack => .done s (.bytes s.stack.bytes)
  | .registerInstructions u => .done (s.withUnits (u :: s.units)) .nothing
  | .setMode m => .done ((s.withMode m).withTaint true) .nothing
  | .setStackAddress a => .done ((s.withStack { s.stack with top := a }).withTaint true) .nothing
  | .setStackSize n => .done ((s.withStack { s.stack with max := n }).withTaint true) .nothing
  | .setAddressBase b => .done ((s.withBase b).withTaint true) .nothing

/-- One command of the host (43_host_interface.md R240, R241): a checked command while tainted raises
`TaintedEnvironment` before it does anything else, and that error is not recorded (60_exceptions.md R313; log entry
17). -/
def command (c : Command) (s : State) : CommandResult :=
  if c.checksTaint && s.tainted then .error .taintedEnvironment s else runCommand c s

end Sys2Proof.Machine
end

