-- ==== Sys2Proof/WellFormed.lean ====
section
/-! DEFINITION. Which instructions an encoding can stand for, in a mode and with the latches of the bytes before it. -/

namespace Sys2Proof

/-- A memory operand that its ModRM byte selects in a mode (30_encoding.md R108): id 4 selects the SIB form, id 5 with
no displacement the RIP form in Long mode, and only there. -/
def MemOperand.wf (mode : Mode) : MemOperand → Bool
  | .direct base d => base != 4 && !(base == 5 && d == .none && mode == .long)
  | .sib _ _ _ _ => true
  | .rip _ => mode == .long

/-- An `r/m` operand that its ModRM byte can encode in a mode. -/
def RmOperand.wf (mode : Mode) : RmOperand → Bool
  | .reg _ => true
  | .mem m => m.wf mode

/-- The immediate has OPSIZE()/8 bytes (45_reference_units.md R271, R280). -/
def Imm.wf (w : Width) : Imm → Bool
  | .imm16 _ => w == .w16
  | .imm32 _ => w == .w32
  | .imm64 _ => w == .w64

/-- The context admits a reference row: no escape is pending, its opcode byte is of no leading class (a REX value never
is one of them, and every reference opcode is a one-byte opcode), and the row's `when` holds. -/
def refAdmitted (c : DecodeCtx) (row : RefRow) : Bool := !c.latches.esc && refWhen c row

/-- Well-formed instructions of a context (30_encoding.md R102, R108, R114, R116, R122). -/
def wellFormed (c : DecodeCtx) : Instr → Bool
  | .esc2 => c.mode != .real
  | .opsize => c.mode != .real && !c.latches.esc
  | .addrsize => c.mode != .real && !c.latches.esc
  | .rex _ => c.mode == .long && !c.latches.esc
  | .opcode b => byteClass c b == .opcode && (rowOf c b).isNone
  | .nop => refAdmitted c .nop
  | .xorRmR _ rm => refAdmitted c .xorRmR && rm.wf c.mode
  | .xorRRm _ rm => refAdmitted c .xorRRm && rm.wf c.mode
  | .movRm8R8 _ rm => refAdmitted c .movRm8R8 && rm.wf c.mode
  | .movRmR _ rm => refAdmitted c .movRmR && rm.wf c.mode
  | .movR8Rm8 _ rm => refAdmitted c .movR8Rm8 && rm.wf c.mode
  | .movRRm _ rm => refAdmitted c .movRRm && rm.wf c.mode
  | .movR8Imm8 _ _ => refAdmitted c .movR8Imm8
  | .movRImm _ v => refAdmitted c .movRImm && v.wf (opWidth c)
  | .pushR _ => refAdmitted c .pushR
  | .popR _ => refAdmitted c .popR
  | .leaRM _ rm => refAdmitted c .leaRM && rm.wf c.mode
  | .callRel32 _ => refAdmitted c .callRel32

end Sys2Proof
end

