-- ==== Sys2Proof/Safety.lean ====
section
/-! DEFINITION. The terms in which claims about the machine are stated: the invariant of its states, when a run goes on,
when REF is asked, what a load reads and a store leaves, the scan step as the spec writes it. -/

namespace Sys2Proof.Machine

open Sys2Proof

/-! ## Invariant -/

/-- Which latches can be set in a mode (30_encoding.md R103). -/
def latchesLegal (m : Mode) (l : Latches) : Bool :=
  (m != .real || (!l.esc && !l.p66 && !l.p67)) && (m == .long || l.rex.isNone)

/-- The slots hold nothing that the mode could not have written: absent slots are zero, and no slot has a bit at or above
MAXW(MODE) (10_state.md R22; 41_register_file.md R190). -/
def slotsFit (m : Mode) (v : Vector Word 16) : Bool :=
  (List.finRange 16).all fun i => (i.val < m.nregs || v.get i == 0) && (v.get i).toNat < 2 ^ m.maxWidth

/-- What holds of the stack in every state: canonical cells, all of them within the length (20_memory.md R66). -/
def Stack.canonical (st : Stack) : Bool := Memory.wf st.mem && Memory.bound st.mem ≤ st.len

/-- The content fits the configuration: 0 <= L <= STACK_MAX (10_state.md R20), and a Null stack is empty (R37). -/
def Stack.fits (st : Stack) : Bool := st.len ≤ st.max && (st.policy != .null || st.len == 0)

/-- The invariant. A reconfiguration may leave content that fits no more; the taint shuts the machine until `reset()`
(43_host_interface.md R266). -/
def State.inv (s : State) : Bool :=
  s.stack.canonical && (s.tainted || (s.stack.fits && latchesLegal s.mode s.latches && slotsFit s.mode s.slots))

/-! ## Runs -/

/-- A scan step is enabled and a byte is there to scan (40_decode_dispatch.md R140, R141). -/
def State.running (s : State) : Bool := !s.tainted && s.faulted.isNone && decide (s.ip < s.code.length)

/-- One scan step as the spec writes it: the byte at ip, its class, its effect; the dispatch walks the chain and REF's
callback reads its operands from the code buffer itself (40_decode_dispatch.md R141 to R146). -/
def scanStep (s : State) (b : Byte) : Host.Outcome State Fault Refusal :=
  match byteClass s.ctx b with
  | .escape => execEsc2 s
  | .opsize => execOpsize s
  | .addrsize => execAddrsize s
  | .rex => execRex (rexOfByte b) s
  | .opcode => execOpcode b s

/-! ## The dispatch chain -/

/-- A record of the host's that lets an effective opcode pass: its map lacks the key, or its callback declines. -/
def Passes (op : Nat) (s : State) (u : UnitRecord) : Prop :=
  match u with
  | .ref => False
  | .host _ map =>
    match map.find? fun e => e.1 == op with
    | none => True
    | some e => answerOf (runCallback op e.2) s = .decline

/-- What a callback of the host's does when it is invoked under the key `op`: its operations, then its answer
(40_decode_dispatch.md R149). -/
def callbackAnswer (op : Nat) (s : State) : Callback → List UnitAction × Verdict
  | .script actions v => (actions, v)
  | .hostUnit id => Config.hostUnit id (unitView op s)

/-- REF is the first record of the chain that does not let the effective opcode pass. -/
def RefAsked (op : Nat) (s : State) : Prop :=
  ∃ front back, s.units = front ++ .ref :: back ∧ ∀ u ∈ front, Passes op s u

/-- REF is asked, and every record behind it is REF again or lets the effective opcode pass. -/
def RefLast (op : Nat) (s : State) : Prop :=
  ∃ front back, s.units = front ++ .ref :: back ∧ (∀ u ∈ front, Passes op s u) ∧
    ∀ u ∈ back, u = .ref ∨ Passes op s u

/-- The effective opcode under which an instruction of the reference set is dispatched (30_encoding.md R116). -/
def opcodeOf : Instr → Option Nat
  | .esc2 => none
  | .opsize => none
  | .addrsize => none
  | .rex _ => none
  | .opcode _ => none
  | .nop => some 0x090
  | .xorRmR _ _ => some 0x031
  | .xorRRm _ _ => some 0x033
  | .movRm8R8 _ _ => some 0x088
  | .movRmR _ _ => some 0x089
  | .movR8Rm8 _ _ => some 0x08A
  | .movRRm _ _ => some 0x08B
  | .movR8Imm8 r _ => some (0x0B0 + r.val)
  | .movRImm r _ => some (0x0B8 + r.val)
  | .pushR r => some (0x050 + r.val)
  | .popR r => some (0x058 + r.val)
  | .leaRM _ _ => some 0x08D
  | .callRel32 _ => some 0x0E8

/-! ## Operands -/

/-- The number of bytes of a memory operand after its ModRM byte (42_address_resolver.md R221). -/
def memLen : MemOperand → Nat
  | .direct _ d => dispLen d
  | .sib _ _ _ d => 1 + dispLen d
  | .rip _ => 4

/-- The register an address takes as base or index, at ADDR_REG_WIDTH(MODE) (42_address_resolver.md R219). -/
def State.addrReg (s : State) (f : RegId) (ext : Bool) : Int := (s.view (s.regOp f ext s.mode.addrWidth)).toNat

/-- The effective address of a memory operand of the instruction whose opcode byte is at ip (42_address_resolver.md R214
to R216; the byte after the ModRM byte is at `ip + 2`). -/
def State.effAddr (s : State) : MemOperand → Int
  | .direct base d => s.addrReg base s.latches.rexB + dispValue d
  | .sib scale index base d =>
    2 ^ scale.val * s.addrReg index s.latches.rexX + s.addrReg base s.latches.rexB + dispValue d
  | .rip d => s.ip + 2 + 4 + d.toInt

/-- The descriptor of the `reg` operand (45_reference_units.md R289). -/
def State.regD (s : State) (f : RegId) (w : Width) : Descriptor := s.regOp f s.latches.rexR w

/-- The descriptor of a register-direct `r/m` operand, or of the register in the opcode (45_reference_units.md R289). -/
def State.rmD (s : State) (f : RegId) (w : Width) : Descriptor := s.regOp f s.latches.rexB w

/-- The destination register of the forms that store nothing and write one register (45_reference_units.md R273 to R280,
R283). -/
def State.destOf (s : State) : Instr → Option Descriptor
  | .esc2 => none
  | .opsize => none
  | .addrsize => none
  | .rex _ => none
  | .opcode _ => none
  | .nop => none
  | .xorRmR _ (.reg r) => some (s.rmD r s.opSize)
  | .xorRmR _ (.mem _) => none
  | .xorRRm reg _ => some (s.regD reg s.opSize)
  | .movRm8R8 _ (.reg r) => some (s.rmD r .w8)
  | .movRm8R8 _ (.mem _) => none
  | .movRmR _ (.reg r) => some (s.rmD r s.opSize)
  | .movRmR _ (.mem _) => none
  | .movR8Rm8 reg _ => some (s.regD reg .w8)
  | .movRRm reg _ => some (s.regD reg s.opSize)
  | .movR8Imm8 r _ => some (s.rmD r .w8)
  | .movRImm r _ => some (s.rmD r s.opSize)
  | .pushR _ => none
  | .popR _ => none
  | .leaRM _ (.reg _) => none
  | .leaRM reg (.mem _) => some (s.regD reg s.opSize)
  | .callRel32 _ => none

/-- The address and the number of bytes that a form with a memory destination stores to (45_reference_units.md R273, R275,
R276). -/
def State.storeOf (s : State) : Instr → Option (Int × Nat)
  | .xorRmR _ (.mem m) => some (s.effAddr m, s.opSize.bytes)
  | .movRm8R8 _ (.mem m) => some (s.effAddr m, 1)
  | .movRmR _ (.mem m) => some (s.effAddr m, s.opSize.bytes)
  | _ => none

/-- The address and the number of bytes that a form loads from (45_reference_units.md R273, R274, R277, R278, R282). -/
def State.loadOf (s : State) : Instr → Option (Int × Nat)
  | .xorRmR _ (.mem m) => some (s.effAddr m, s.opSize.bytes)
  | .xorRRm _ (.mem m) => some (s.effAddr m, s.opSize.bytes)
  | .movR8Rm8 _ (.mem m) => some (s.effAddr m, 1)
  | .movRRm _ (.mem m) => some (s.effAddr m, s.opSize.bytes)
  | .popR _ => some ((s.view s.spReg).toNat, s.stkSize.bytes)
  | _ => none

/-- Where ip stands when a form accesses the stack: behind its memory operand, or at the opcode byte still
(45_reference_units.md R281, R282, R284, R289). -/
def State.ipAtAccess (s : State) : Instr → Nat
  | .xorRmR _ (.mem m) => s.ip + 2 + memLen m
  | .xorRRm _ (.mem m) => s.ip + 2 + memLen m
  | .movRm8R8 _ (.mem m) => s.ip + 2 + memLen m
  | .movRmR _ (.mem m) => s.ip + 2 + memLen m
  | .movR8Rm8 _ (.mem m) => s.ip + 2 + memLen m
  | .movRRm _ (.mem m) => s.ip + 2 + memLen m
  | _ => s.ip

/-- The flags that an instruction of the reference set writes are those of XOR (45_reference_units.md R285). -/
def writesLogicFlags : Instr → Bool
  | .xorRmR _ _ => true
  | .xorRRm _ _ => true
  | _ => false

/-- Every flag and every other bit of `eflags` is as it was, but the five flags of XOR where the instruction is an XOR
(45_reference_units.md R285, R288). -/
def SameFlags (i : Instr) (s t : State) : Prop :=
  ∀ k : Fin 32, ¬ (writesLogicFlags i = true ∧ k ∈ [s.params.flags.cf, s.params.flags.of, s.params.flags.sf,
    s.params.flags.zf, s.params.flags.pf]) → t.eflags.getLsbD k.val = s.eflags.getLsbD k.val

/-- How a dispatched instruction leaves the latches and the fault record: accepted, the latches are clear and no error is
recorded; ended by a fatal error, the latches are kept and an error is recorded, the first one if there was one
(40_decode_dispatch.md R147; 60_exceptions.md R312). -/
def AcceptedOrFaulted (s t : State) : Prop :=
  (t.latches = .clear ∧ t.faulted = s.faulted) ∨
    (t.latches = s.latches ∧ t.faulted.isSome = true ∧ (s.faulted.isSome = true → t.faulted = s.faulted))

/-- The stack pointer's address after `n` bytes are pushed (45_reference_units.md R281, R284). -/
def State.spAfterPush (s : State) (n : Nat) : Int :=
  ((s.view s.spReg).toNat - (n : Int)) % 2 ^ s.mode.maxWidth

/-! ## Loads and stores -/

/-- A load of `n` bytes at `a` gets its bytes (20_memory.md R68 to R70). -/
def Readable (st : Stack) (a : Int) (n : Nat) : Prop :=
  st.policy = .null ∨ (st.top - st.len < a ∧ a + n - 1 ≤ st.top)

/-- The byte a load gets at an address it can read: the stack's, or zero under the Null policy (20_memory.md R70). -/
def loadedByte (st : Stack) (a : Int) : Byte := if st.policy = .null then 0 else (st.byteAt a).getD 0

/-- The little-endian value a load gets (45_reference_units.md R287). -/
def loadedValue (st : Stack) (a : Int) (w : Width) : Word :=
  BitVec.ofNat 64 (leNat ((List.range w.bytes).map fun (j : Nat) => loadedByte st (a + (j : Int))))

/-- A store of `n` bytes at `a` does nothing and raises nothing (20_memory.md R71). -/
def Dropped (st : Stack) (a : Int) (n : Nat) : Prop :=
  st.policy = .null ∨ (st.policy = .forgiving ∧ st.top < a + n - 1)

/-- A store of `n` bytes at `a` raises nothing (20_memory.md R68, R71, R77). -/
def Writable (st : Stack) (a : Int) (n : Nat) : Prop :=
  Dropped st a n ∨ (a + n - 1 ≤ st.top ∧ (st.top - st.len < a ∨ st.top - a + 1 ≤ st.max))

/-- What a store of `bytes` at `a` leaves (20_memory.md R71, R76, R77): the configuration, and either the very same stack
or the stored bytes, every other byte as it was, the gap of a growth zero. -/
def Stored (st : Stack) (a : Int) (bytes : List Byte) (st' : Stack) : Prop :=
  st'.top = st.top ∧ st'.max = st.max ∧ st'.policy = st.policy ∧
    (Dropped st a bytes.length → st' = st) ∧
    (¬ Dropped st a bytes.length →
      (st'.len : Int) = max (st.len : Int) (st.top - a + 1) ∧
        ∀ x : Int, st'.byteAt x =
          if a ≤ x ∧ x < a + bytes.length then bytes[(x - a).toNat]?
          else if (st.byteAt x).isSome then st.byteAt x
          else if a < x ∧ x ≤ st.top then some 0
          else none)

/-- Everything but the registers, the flags, ip, the latches, the stack's bytes and the fault record is as it was: what
no unit may write (40_decode_dispatch.md R151). -/
def SameConfiguration (s t : State) : Prop :=
  t.params = s.params ∧ t.mode = s.mode ∧ t.addressBase = s.addressBase ∧ t.tainted = s.tainted ∧ t.code = s.code ∧
    t.units = s.units ∧ t.stack.top = s.stack.top ∧ t.stack.max = s.stack.max ∧ t.stack.policy = s.stack.policy

end Sys2Proof.Machine
end

