-- ==== Sys2Proof/Laws/Memory.lean ====
section
/-! SUPPORT. The laws of the stack's cells and of the stack operations: a read after a write, the canonical form that
every operation keeps, and what each operation answers, said once. -/

namespace Sys2Proof.Machine

open Sys2Proof

namespace Memory

/-! ## Cells -/

theorem wfFrom_cons {lo : Nat} {c : Host.Cell} {m : Memory} :
    wfFrom lo (c :: m) = true ↔ lo ≤ c.1 ∧ c.2 ≠ 0 ∧ wfFrom (c.1 + 1) m = true := by
  simp [wfFrom, and_assoc]

theorem wfFrom_mono {lo lo' : Nat} (h : lo ≤ lo') {m : Memory} (hm : wfFrom lo' m = true) : wfFrom lo m = true := by
  cases m with
  | nil => rfl
  | cons c m =>
    rw [wfFrom_cons] at hm ⊢
    exact ⟨h.trans hm.1, hm.2⟩

/-- Below the first listed depth every byte is zero. -/
theorem get_of_lt {lo : Nat} {m : Memory} (hm : wfFrom lo m = true) {a : Nat} (h : a < lo) : get m a = 0 := by
  induction m generalizing lo with
  | nil => rfl
  | cons c m ih =>
    rw [wfFrom_cons] at hm
    have hne : a ≠ c.1 := by omega
    simp only [get, hne, if_false]
    exact ih hm.2.2 (by omega)

/-- Setting a byte keeps the canonical form. -/
theorem wfFrom_set {lo : Nat} {m : Memory} (hm : wfFrom lo m = true) {a : Nat} (h : lo ≤ a) (v : Byte) :
    wfFrom lo (set m a v) = true := by
  induction m generalizing lo with
  | nil =>
    by_cases hv : v = 0
    · rw [set, if_pos hv]; rfl
    · rw [set, if_neg hv]; exact wfFrom_cons.2 ⟨h, hv, rfl⟩
  | cons c m ih =>
    rw [wfFrom_cons] at hm
    obtain ⟨h1, h2, h3⟩ := hm
    rcases lt_trichotomy a c.1 with hlt | heq | hgt
    · by_cases hv : v = 0
      · simp only [set, hlt, if_true, hv]
        exact wfFrom_cons.2 ⟨h1, h2, h3⟩
      · simp only [set, hlt, if_true, hv, if_false]
        exact wfFrom_cons.2 ⟨h, hv, wfFrom_cons.2 ⟨hlt, h2, h3⟩⟩
    · subst heq
      by_cases hv : v = 0
      · simp only [set, lt_irrefl, if_false, if_true, hv]
        exact wfFrom_mono (by omega) h3
      · simp only [set, lt_irrefl, if_false, if_true, hv]
        exact wfFrom_cons.2 ⟨h1, hv, h3⟩
    · have hlt : ¬ a < c.1 := by omega
      have hne : a ≠ c.1 := by omega
      simp only [set, hlt, hne, if_false]
      exact wfFrom_cons.2 ⟨h1, h2, ih h3 hgt⟩

/-- Setting a byte keeps the canonical form. -/
theorem wf_set {m : Memory} (hm : wf m = true) (a : Nat) (v : Byte) : wf (set m a v) = true :=
  wfFrom_set hm (Nat.zero_le a) v

theorem get_set_from {lo : Nat} {m : Memory} (hm : wfFrom lo m = true) (a : Nat) (v : Byte) (b : Nat) :
    get (set m a v) b = if b = a then v else get m b := by
  induction m generalizing lo with
  | nil =>
    by_cases hv : v = 0
    · rw [set, if_pos hv]; simp [get, hv]
    · rw [set, if_neg hv]; rfl
  | cons c m ih =>
    rw [wfFrom_cons] at hm
    obtain ⟨h1, h2, h3⟩ := hm
    rcases lt_trichotomy a c.1 with hlt | heq | hgt
    · have hz : get m a = 0 := get_of_lt h3 (by omega)
      have hne : a ≠ c.1 := by omega
      by_cases hv : v = 0
      · simp only [set, hlt, if_true, hv, get]
        by_cases hb : b = a
        · subst hb; simp [hne, hz]
        · simp [hb]
      · simp only [set, hlt, if_true, hv, if_false, get]
    · subst heq
      have hz : get m c.1 = 0 := get_of_lt h3 (by omega)
      by_cases hv : v = 0
      · simp only [set, lt_irrefl, if_false, if_true, hv, get]
        by_cases hb : b = c.1
        · subst hb; simp [hz]
        · simp [hb]
      · simp only [set, lt_irrefl, if_false, if_true, hv, get]
        by_cases hb : b = c.1 <;> simp [hb]
    · have hlt : ¬ a < c.1 := by omega
      have hne : a ≠ c.1 := by omega
      simp only [set, hlt, hne, if_false, get, ih h3]
      by_cases hb : b = c.1
      · subst hb; simp [Ne.symm hne]
      · simp [hb]

/-- A read after a write: the written byte at its depth, every other byte as it was. -/
theorem get_set {m : Memory} (hm : wf m = true) (a : Nat) (v : Byte) (b : Nat) :
    get (set m a v) b = if b = a then v else get m b := get_set_from hm a v b

theorem bound_cons (c : Host.Cell) {m : Memory} (hm : wfFrom (c.1 + 1) m = true) :
    bound (c :: m) = max (c.1 + 1) (bound m) := by
  induction m generalizing c with
  | nil => simp [bound]
  | cons d m ih =>
    rw [wfFrom_cons] at hm
    have := ih d hm.2.2
    simp only [bound, this]
    omega

/-- At and above the bound every byte is zero. -/
theorem get_of_bound_le_from {lo : Nat} {m : Memory} (hm : wfFrom lo m = true) {a : Nat} (h : bound m ≤ a) :
    get m a = 0 := by
  induction m generalizing lo with
  | nil => rfl
  | cons c m ih =>
    rw [wfFrom_cons] at hm
    rw [bound_cons c hm.2.2] at h
    have hne : a ≠ c.1 := by omega
    simp only [get, hne, if_false]
    exact ih hm.2.2 (by omega)

/-- At and above the bound every byte is zero. -/
theorem get_of_bound_le {m : Memory} (hm : wf m = true) {a : Nat} (h : bound m ≤ a) : get m a = 0 :=
  get_of_bound_le_from hm h

/-- A non-zero byte lies just below a bound that is not zero. -/
theorem get_bound_pred_from {lo : Nat} {m : Memory} (hm : wfFrom lo m = true) (h : bound m ≠ 0) :
    get m (bound m - 1) ≠ 0 := by
  induction m generalizing lo with
  | nil => simp [bound] at h
  | cons c m ih =>
    rw [wfFrom_cons] at hm
    obtain ⟨-, h2, h3⟩ := hm
    rw [bound_cons c h3]
    by_cases hb : bound m = 0
    · simpa [hb, get] using h2
    · have hih := ih h3 hb
      by_cases hge : c.1 + 1 ≤ bound m
      · rw [max_eq_right hge]
        by_cases hc : bound m - 1 = c.1
        · simpa [get, hc] using h2
        · simpa [get, hc] using hih
      · exact absurd (get_of_lt h3 (by omega)) hih

/-- A non-zero byte lies just below a bound that is not zero. -/
theorem get_bound_pred {m : Memory} (hm : wf m = true) (h : bound m ≠ 0) : get m (bound m - 1) ≠ 0 :=
  get_bound_pred_from hm h

/-- The bound is the least depth from which every byte is zero. -/
theorem bound_le_of_zero {m : Memory} (hm : wf m = true) {n : Nat} (h : ∀ a, n ≤ a → get m a = 0) : bound m ≤ n := by
  by_contra hlt
  exact get_bound_pred hm (by omega) (h _ (by omega))

/-- Canonical memories that read alike are equal. -/
theorem ext_from {lo : Nat} {m m' : Memory} (hm : wfFrom lo m = true) (hm' : wfFrom lo m' = true)
    (h : ∀ a, get m a = get m' a) : m = m' := by
  induction m generalizing lo m' with
  | nil =>
    cases m' with
    | nil => rfl
    | cons c m' =>
      rw [wfFrom_cons] at hm'
      have := h c.1
      simp [get] at this
      exact absurd this.symm hm'.2.1
  | cons c m ih =>
    rw [wfFrom_cons] at hm
    cases m' with
    | nil =>
      have := h c.1
      simp [get] at this
      exact absurd this hm.2.1
    | cons d m' =>
      rw [wfFrom_cons] at hm'
      have hk : c.1 = d.1 := by
        by_contra hne
        rcases lt_or_gt_of_ne hne with hlt | hgt
        · have := h c.1
          simp only [get, if_true, hne, if_false] at this
          rw [get_of_lt hm'.2.2 (by omega)] at this
          exact hm.2.1 this
        · have := h d.1
          simp only [get, if_true, Ne.symm hne, if_false] at this
          rw [get_of_lt hm.2.2 (by omega)] at this
          exact hm'.2.1 this.symm
      have hv : c.2 = d.2 := by
        have := h c.1
        simpa [get, hk] using this
      have hc : c = d := Prod.ext hk hv
      subst hc
      congr 1
      apply ih hm.2.2 hm'.2.2
      intro a
      by_cases ha : a = c.1
      · subst ha
        rw [get_of_lt hm.2.2 (by omega), get_of_lt hm'.2.2 (by omega)]
      · simpa [get, ha] using h a

/-- Canonical memories that read alike are equal. -/
theorem ext {m m' : Memory} (hm : wf m = true) (hm' : wf m' = true) (h : ∀ a, get m a = get m' a) : m = m' :=
  ext_from hm hm' h

/-- Writing a byte string keeps the canonical form. -/
theorem wf_writeDown {m : Memory} (hm : wf m = true) (d : Nat) (bs : List Byte) : wf (writeDown m d bs) = true := by
  induction bs generalizing m d with
  | nil => exact hm
  | cons b bs ih => exact ih (wf_set hm d b) (d - 1)

/-- A read after a byte string is written downwards from a depth: the string's bytes at their depths, every other byte
as it was. -/
theorem get_writeDown {m : Memory} (hm : wf m = true) (d : Nat) (bs : List Byte) (h : bs.length ≤ d + 1) (x : Nat) :
    get (writeDown m d bs) x = if x ≤ d ∧ d < x + bs.length then bs.getD (d - x) 0 else get m x := by
  induction bs generalizing m d with
  | nil =>
    rw [writeDown, if_neg]
    simp only [List.length_nil]
    omega
  | cons b bs ih =>
    simp only [List.length_cons] at h ⊢
    rw [writeDown]
    rcases Nat.eq_zero_or_pos d with hd | hd
    · subst hd
      have hbs : bs = [] := List.length_eq_zero_iff.1 (by omega)
      subst hbs
      rw [writeDown, get_set hm]
      by_cases hx : x = 0
      · subst hx; simp
      · have : ¬ (x ≤ 0 ∧ 0 < x + 1) := by omega
        simp [hx]
    · rw [ih (wf_set hm d b) (d - 1) (by omega), get_set hm]
      by_cases hx : x = d
      · subst hx
        have : ¬ (x ≤ x - 1 ∧ x - 1 < x + bs.length) := by omega
        simp [this]
      · by_cases hc : x ≤ d ∧ d < x + (bs.length + 1)
        · have hc' : x ≤ d - 1 ∧ d - 1 < x + bs.length := by omega
          have he : d - x = (d - 1 - x) + 1 := by omega
          simp only [hc, hc', and_self, if_true]
          rw [he, List.getD_cons_succ]
        · have hc' : ¬ (x ≤ d - 1 ∧ d - 1 < x + bs.length) := by omega
          simp only [hc, hc', if_false, hx]

/-- Writing a byte string from a depth moves the bound no further than that depth. -/
theorem bound_writeDown {m : Memory} (hm : wf m = true) (d : Nat) (bs : List Byte) (h : bs.length ≤ d + 1) {n : Nat}
    (hn : bound m ≤ n) (hd : d < n) : bound (writeDown m d bs) ≤ n := by
  apply bound_le_of_zero (wf_writeDown hm d bs)
  intro a ha
  rw [get_writeDown hm d bs h]
  have : ¬ (a ≤ d ∧ d < a + bs.length) := by omega
  rw [if_neg this]
  exact get_of_bound_le hm (by omega)

end Memory

/-! ## The stack -/

namespace Stack

theorem canonical_iff (st : Stack) :
    st.canonical = true ↔ Memory.wf st.mem = true ∧ Memory.bound st.mem ≤ st.len := by
  simp [canonical]

theorem fits_iff (st : Stack) : st.fits = true ↔ st.len ≤ st.max ∧ (st.policy = .null → st.len = 0) := by
  simp only [fits, Bool.and_eq_true, decide_eq_true_eq, Bool.or_eq_true, bne_iff_ne, ne_eq, beq_iff_eq]
  constructor <;> rintro ⟨h1, h2⟩ <;> refine ⟨h1, ?_⟩
  · intro hp; exact h2.resolve_left (by simpa using hp)
  · by_cases hp : st.policy = .null
    · exact Or.inr (h2 hp)
    · exact Or.inl hp

/-- What a strict write answers, in one place (20_memory.md R68, R76, R77). -/
theorem strictWrite_ok {st st' : Stack} {a : Int} {bs : List Byte} (h : st.strictWrite a bs = .ok st') :
    a + bs.length - 1 ≤ st.top ∧ st'.top = st.top ∧ st'.max = st.max ∧ st'.policy = st.policy ∧
      st'.mem = Memory.writeDown st.mem (st.depth a) bs ∧
        ((0 ≤ st.off a ∧ st'.len = st.len) ∨
          (st.off a < 0 ∧ st.top - a + 1 ≤ st.max ∧ st'.len = st.depth a + 1)) := by
  unfold strictWrite at h
  split at h
  · cases h
  · rename_i h1
    split at h
    · rename_i h2
      cases h
      exact ⟨by omega, rfl, rfl, rfl, rfl, Or.inl ⟨h2, rfl⟩⟩
    · rename_i h2
      split at h
      · cases h
      · rename_i h3
        cases h
        exact ⟨by omega, rfl, rfl, rfl, rfl, Or.inr ⟨by omega, by omega, rfl⟩⟩

/-- A strict write keeps the canonical form and the bound by STACK_MAX. -/
theorem strictWrite_keeps {st st' : Stack} {a : Int} {bs : List Byte} (hn : bs ≠ [])
    (h : st.strictWrite a bs = .ok st') (hc : st.canonical = true) :
    st'.canonical = true ∧ (st.len ≤ st.max → st'.len ≤ st'.max) := by
  obtain ⟨h1, -, h3, -, h5, h6⟩ := strictWrite_ok h
  rw [canonical_iff] at hc ⊢
  have hpos : 0 < bs.length := List.length_pos_iff.2 hn
  have hd : bs.length ≤ st.depth a + 1 := by simp only [depth]; omega
  rw [h5]
  rcases h6 with ⟨h6, h7⟩ | ⟨h6, h7, h8⟩
  · have hlt : st.depth a < st.len := by simp only [depth, off] at *; omega
    rw [h7, h3]
    exact ⟨⟨Memory.wf_writeDown hc.1 _ _, Memory.bound_writeDown hc.1 _ _ hd hc.2 hlt⟩, id⟩
  · rw [h8, h3]
    refine ⟨⟨Memory.wf_writeDown hc.1 _ _, Memory.bound_writeDown hc.1 _ _ hd ?_ (by omega)⟩, fun _ => ?_⟩
    · simp only [depth, off] at *; omega
    · simp only [depth] at *; omega

/-- What a strict clear answers (20_memory.md R68, R78). -/
theorem strictClear_ok {st st' : Stack} {a : Int} {n : Nat} (h : st.strictClear a n = .ok st') :
    a + n - 1 ≤ st.top ∧ 0 ≤ st.off a ∧
      st' = { st with
        len := Memory.bound (Memory.writeDown st.mem (st.depth a) (List.replicate n 0))
        mem := Memory.writeDown st.mem (st.depth a) (List.replicate n 0) } := by
  unfold strictClear at h
  split at h
  · cases h
  · split at h
    · cases h
    · cases h
      exact ⟨by omega, by omega, rfl⟩

/-- A strict clear keeps the canonical form and does not lengthen the stack. -/
theorem strictClear_keeps {st st' : Stack} {a : Int} {n : Nat} (hn : n ≠ 0)
    (h : st.strictClear a n = .ok st') (hc : st.canonical = true) :
    st'.canonical = true ∧ st'.len ≤ st.len ∧ st'.top = st.top ∧ st'.max = st.max ∧ st'.policy = st.policy := by
  obtain ⟨h1, h2, rfl⟩ := strictClear_ok h
  rw [canonical_iff] at hc ⊢
  have hd : (List.replicate n (0 : Byte)).length ≤ st.depth a + 1 := by
    simp only [List.length_replicate, depth]; omega
  have hlt : st.depth a < st.len := by simp only [depth, off] at *; omega
  exact ⟨⟨Memory.wf_writeDown hc.1 _ _, le_refl _⟩, Memory.bound_writeDown hc.1 _ _ hd hc.2 hlt, rfl, rfl, rfl⟩

/-- What a write answers under any policy: the same stack, or a strict write's. -/
theorem write_ok {st st' : Stack} {a : Int} {bs : List Byte} (h : st.write a bs = .ok st') :
    st' = st ∨ (st.policy ≠ .null ∧ st.strictWrite a bs = .ok st') := by
  unfold write at h
  split at h
  · rename_i hp; exact Or.inr ⟨by simp [hp], h⟩
  · rename_i hp
    split at h
    · rename_i heq; cases h; exact Or.inr ⟨by simp [hp], heq⟩
    · split at h
      · cases h; exact Or.inl rfl
      · cases h
  · cases h; exact Or.inl rfl

/-- What a clear answers under any policy: the same stack, or a strict clear's. -/
theorem clear_ok {st st' : Stack} {a : Int} {n : Nat} (h : st.clear a n = .ok st') :
    st' = st ∨ (st.policy ≠ .null ∧ st.strictClear a n = .ok st') := by
  unfold clear at h
  split at h
  · rename_i hp; exact Or.inr ⟨by simp [hp], h⟩
  · rename_i hp
    split at h
    · rename_i heq; cases h; exact Or.inr ⟨by simp [hp], heq⟩
    · split at h
      · cases h; exact Or.inl rfl
      · cases h
  · cases h; exact Or.inl rfl

/-- A write keeps the configuration, the canonical form and the fit. -/
theorem write_keeps {st st' : Stack} {a : Int} {bs : List Byte} (hn : bs ≠ []) (h : st.write a bs = .ok st')
    (hc : st.canonical = true) :
    st'.canonical = true ∧ (st.fits = true → st'.fits = true) ∧ st'.top = st.top ∧ st'.max = st.max ∧
      st'.policy = st.policy := by
  rcases write_ok h with rfl | ⟨hp, h⟩
  · exact ⟨hc, id, rfl, rfl, rfl⟩
  · obtain ⟨-, h2, h3, h4, -⟩ := strictWrite_ok h
    obtain ⟨h5, h6⟩ := strictWrite_keeps hn h hc
    refine ⟨h5, fun hf => ?_, h2, h3, h4⟩
    rw [fits_iff] at hf ⊢
    exact ⟨h6 hf.1, fun hq => absurd (h4 ▸ hq) hp⟩

/-- A clear keeps the configuration, the canonical form and the fit. -/
theorem clear_keeps {st st' : Stack} {a : Int} {n : Nat} (hn : n ≠ 0) (h : st.clear a n = .ok st')
    (hc : st.canonical = true) :
    st'.canonical = true ∧ (st.fits = true → st'.fits = true) ∧ st'.top = st.top ∧ st'.max = st.max ∧
      st'.policy = st.policy := by
  rcases clear_ok h with rfl | ⟨hp, h⟩
  · exact ⟨hc, id, rfl, rfl, rfl⟩
  · obtain ⟨h1, h2, h3, h4, h5⟩ := strictClear_keeps hn h hc
    refine ⟨h1, fun hf => ?_, h3, h4, h5⟩
    rw [fits_iff] at hf ⊢
    exact ⟨by omega, fun hq => absurd (h5 ▸ hq) hp⟩

end Stack

/-- The empty stack is canonical. -/
theorem emptyStack_canonical (top : Int) (max : Nat) (p : StackPolicy) :
    Stack.canonical ⟨top, max, p, 0, []⟩ = true := rfl

/-- Reset leaves canonical memory. -/
theorem reset_memory_wf : Memory.wf State.reset.stack.mem = true := rfl

end Sys2Proof.Machine
end

