-- ==== Sys2Proof/Laws/State.lean ====
section
/-! SUPPORT. One lemma for each field of the state and each update, so that no proof unfolds a record update; and the
same for the updates that operations are made of. -/

namespace Sys2Proof.Machine

open Sys2Proof

/-! ### withMode -/

@[simp] theorem State.withMode_params (s : State) (v : Mode) : (s.withMode v).params = s.params := rfl
@[simp] theorem State.withMode_mode (s : State) (v : Mode) : (s.withMode v).mode = v := rfl
@[simp] theorem State.withMode_slots (s : State) (v : Mode) : (s.withMode v).slots = s.slots := rfl
@[simp] theorem State.withMode_eflags (s : State) (v : Mode) : (s.withMode v).eflags = s.eflags := rfl
@[simp] theorem State.withMode_ip (s : State) (v : Mode) : (s.withMode v).ip = s.ip := rfl
@[simp] theorem State.withMode_addressBase (s : State) (v : Mode) : (s.withMode v).addressBase = s.addressBase := rfl
@[simp] theorem State.withMode_latches (s : State) (v : Mode) : (s.withMode v).latches = s.latches := rfl
@[simp] theorem State.withMode_tainted (s : State) (v : Mode) : (s.withMode v).tainted = s.tainted := rfl
@[simp] theorem State.withMode_code (s : State) (v : Mode) : (s.withMode v).code = s.code := rfl
@[simp] theorem State.withMode_stack (s : State) (v : Mode) : (s.withMode v).stack = s.stack := rfl
@[simp] theorem State.withMode_units (s : State) (v : Mode) : (s.withMode v).units = s.units := rfl
@[simp] theorem State.withMode_faulted (s : State) (v : Mode) : (s.withMode v).faulted = s.faulted := rfl
@[simp] theorem State.withMode_withMode (s : State) (v w : Mode) : (s.withMode v).withMode w = s.withMode w := rfl
@[simp] theorem State.withMode_self (s : State) : s.withMode s.mode = s := rfl

/-! ### withSlots -/

@[simp] theorem State.withSlots_params (s : State) (v : Vector Word 16) : (s.withSlots v).params = s.params := rfl
@[simp] theorem State.withSlots_mode (s : State) (v : Vector Word 16) : (s.withSlots v).mode = s.mode := rfl
@[simp] theorem State.withSlots_slots (s : State) (v : Vector Word 16) : (s.withSlots v).slots = v := rfl
@[simp] theorem State.withSlots_eflags (s : State) (v : Vector Word 16) : (s.withSlots v).eflags = s.eflags := rfl
@[simp] theorem State.withSlots_ip (s : State) (v : Vector Word 16) : (s.withSlots v).ip = s.ip := rfl
@[simp] theorem State.withSlots_addressBase (s : State) (v : Vector Word 16) : (s.withSlots v).addressBase = s.addressBase := rfl
@[simp] theorem State.withSlots_latches (s : State) (v : Vector Word 16) : (s.withSlots v).latches = s.latches := rfl
@[simp] theorem State.withSlots_tainted (s : State) (v : Vector Word 16) : (s.withSlots v).tainted = s.tainted := rfl
@[simp] theorem State.withSlots_code (s : State) (v : Vector Word 16) : (s.withSlots v).code = s.code := rfl
@[simp] theorem State.withSlots_stack (s : State) (v : Vector Word 16) : (s.withSlots v).stack = s.stack := rfl
@[simp] theorem State.withSlots_units (s : State) (v : Vector Word 16) : (s.withSlots v).units = s.units := rfl
@[simp] theorem State.withSlots_faulted (s : State) (v : Vector Word 16) : (s.withSlots v).faulted = s.faulted := rfl
@[simp] theorem State.withSlots_withSlots (s : State) (v w : Vector Word 16) : (s.withSlots v).withSlots w = s.withSlots w := rfl
@[simp] theorem State.withSlots_self (s : State) : s.withSlots s.slots = s := rfl

/-! ### withFlags -/

@[simp] theorem State.withFlags_params (s : State) (v : BitVec 32) : (s.withFlags v).params = s.params := rfl
@[simp] theorem State.withFlags_mode (s : State) (v : BitVec 32) : (s.withFlags v).mode = s.mode := rfl
@[simp] theorem State.withFlags_slots (s : State) (v : BitVec 32) : (s.withFlags v).slots = s.slots := rfl
@[simp] theorem State.withFlags_eflags (s : State) (v : BitVec 32) : (s.withFlags v).eflags = v := rfl
@[simp] theorem State.withFlags_ip (s : State) (v : BitVec 32) : (s.withFlags v).ip = s.ip := rfl
@[simp] theorem State.withFlags_addressBase (s : State) (v : BitVec 32) : (s.withFlags v).addressBase = s.addressBase := rfl
@[simp] theorem State.withFlags_latches (s : State) (v : BitVec 32) : (s.withFlags v).latches = s.latches := rfl
@[simp] theorem State.withFlags_tainted (s : State) (v : BitVec 32) : (s.withFlags v).tainted = s.tainted := rfl
@[simp] theorem State.withFlags_code (s : State) (v : BitVec 32) : (s.withFlags v).code = s.code := rfl
@[simp] theorem State.withFlags_stack (s : State) (v : BitVec 32) : (s.withFlags v).stack = s.stack := rfl
@[simp] theorem State.withFlags_units (s : State) (v : BitVec 32) : (s.withFlags v).units = s.units := rfl
@[simp] theorem State.withFlags_faulted (s : State) (v : BitVec 32) : (s.withFlags v).faulted = s.faulted := rfl
@[simp] theorem State.withFlags_withFlags (s : State) (v w : BitVec 32) : (s.withFlags v).withFlags w = s.withFlags w := rfl
@[simp] theorem State.withFlags_self (s : State) : s.withFlags s.eflags = s := rfl

/-! ### withIp -/

@[simp] theorem State.withIp_params (s : State) (v : Nat) : (s.withIp v).params = s.params := rfl
@[simp] theorem State.withIp_mode (s : State) (v : Nat) : (s.withIp v).mode = s.mode := rfl
@[simp] theorem State.withIp_slots (s : State) (v : Nat) : (s.withIp v).slots = s.slots := rfl
@[simp] theorem State.withIp_eflags (s : State) (v : Nat) : (s.withIp v).eflags = s.eflags := rfl
@[simp] theorem State.withIp_ip (s : State) (v : Nat) : (s.withIp v).ip = v := rfl
@[simp] theorem State.withIp_addressBase (s : State) (v : Nat) : (s.withIp v).addressBase = s.addressBase := rfl
@[simp] theorem State.withIp_latches (s : State) (v : Nat) : (s.withIp v).latches = s.latches := rfl
@[simp] theorem State.withIp_tainted (s : State) (v : Nat) : (s.withIp v).tainted = s.tainted := rfl
@[simp] theorem State.withIp_code (s : State) (v : Nat) : (s.withIp v).code = s.code := rfl
@[simp] theorem State.withIp_stack (s : State) (v : Nat) : (s.withIp v).stack = s.stack := rfl
@[simp] theorem State.withIp_units (s : State) (v : Nat) : (s.withIp v).units = s.units := rfl
@[simp] theorem State.withIp_faulted (s : State) (v : Nat) : (s.withIp v).faulted = s.faulted := rfl
@[simp] theorem State.withIp_withIp (s : State) (v w : Nat) : (s.withIp v).withIp w = s.withIp w := rfl
@[simp] theorem State.withIp_self (s : State) : s.withIp s.ip = s := rfl

/-! ### withBase -/

@[simp] theorem State.withBase_params (s : State) (v : Int) : (s.withBase v).params = s.params := rfl
@[simp] theorem State.withBase_mode (s : State) (v : Int) : (s.withBase v).mode = s.mode := rfl
@[simp] theorem State.withBase_slots (s : State) (v : Int) : (s.withBase v).slots = s.slots := rfl
@[simp] theorem State.withBase_eflags (s : State) (v : Int) : (s.withBase v).eflags = s.eflags := rfl
@[simp] theorem State.withBase_ip (s : State) (v : Int) : (s.withBase v).ip = s.ip := rfl
@[simp] theorem State.withBase_addressBase (s : State) (v : Int) : (s.withBase v).addressBase = v := rfl
@[simp] theorem State.withBase_latches (s : State) (v : Int) : (s.withBase v).latches = s.latches := rfl
@[simp] theorem State.withBase_tainted (s : State) (v : Int) : (s.withBase v).tainted = s.tainted := rfl
@[simp] theorem State.withBase_code (s : State) (v : Int) : (s.withBase v).code = s.code := rfl
@[simp] theorem State.withBase_stack (s : State) (v : Int) : (s.withBase v).stack = s.stack := rfl
@[simp] theorem State.withBase_units (s : State) (v : Int) : (s.withBase v).units = s.units := rfl
@[simp] theorem State.withBase_faulted (s : State) (v : Int) : (s.withBase v).faulted = s.faulted := rfl
@[simp] theorem State.withBase_withBase (s : State) (v w : Int) : (s.withBase v).withBase w = s.withBase w := rfl
@[simp] theorem State.withBase_self (s : State) : s.withBase s.addressBase = s := rfl

/-! ### withLatches -/

@[simp] theorem State.withLatches_params (s : State) (v : Latches) : (s.withLatches v).params = s.params := rfl
@[simp] theorem State.withLatches_mode (s : State) (v : Latches) : (s.withLatches v).mode = s.mode := rfl
@[simp] theorem State.withLatches_slots (s : State) (v : Latches) : (s.withLatches v).slots = s.slots := rfl
@[simp] theorem State.withLatches_eflags (s : State) (v : Latches) : (s.withLatches v).eflags = s.eflags := rfl
@[simp] theorem State.withLatches_ip (s : State) (v : Latches) : (s.withLatches v).ip = s.ip := rfl
@[simp] theorem State.withLatches_addressBase (s : State) (v : Latches) : (s.withLatches v).addressBase = s.addressBase := rfl
@[simp] theorem State.withLatches_latches (s : State) (v : Latches) : (s.withLatches v).latches = v := rfl
@[simp] theorem State.withLatches_tainted (s : State) (v : Latches) : (s.withLatches v).tainted = s.tainted := rfl
@[simp] theorem State.withLatches_code (s : State) (v : Latches) : (s.withLatches v).code = s.code := rfl
@[simp] theorem State.withLatches_stack (s : State) (v : Latches) : (s.withLatches v).stack = s.stack := rfl
@[simp] theorem State.withLatches_units (s : State) (v : Latches) : (s.withLatches v).units = s.units := rfl
@[simp] theorem State.withLatches_faulted (s : State) (v : Latches) : (s.withLatches v).faulted = s.faulted := rfl
@[simp] theorem State.withLatches_withLatches (s : State) (v w : Latches) : (s.withLatches v).withLatches w = s.withLatches w := rfl
@[simp] theorem State.withLatches_self (s : State) : s.withLatches s.latches = s := rfl

/-! ### withTaint -/

@[simp] theorem State.withTaint_params (s : State) (v : Bool) : (s.withTaint v).params = s.params := rfl
@[simp] theorem State.withTaint_mode (s : State) (v : Bool) : (s.withTaint v).mode = s.mode := rfl
@[simp] theorem State.withTaint_slots (s : State) (v : Bool) : (s.withTaint v).slots = s.slots := rfl
@[simp] theorem State.withTaint_eflags (s : State) (v : Bool) : (s.withTaint v).eflags = s.eflags := rfl
@[simp] theorem State.withTaint_ip (s : State) (v : Bool) : (s.withTaint v).ip = s.ip := rfl
@[simp] theorem State.withTaint_addressBase (s : State) (v : Bool) : (s.withTaint v).addressBase = s.addressBase := rfl
@[simp] theorem State.withTaint_latches (s : State) (v : Bool) : (s.withTaint v).latches = s.latches := rfl
@[simp] theorem State.withTaint_tainted (s : State) (v : Bool) : (s.withTaint v).tainted = v := rfl
@[simp] theorem State.withTaint_code (s : State) (v : Bool) : (s.withTaint v).code = s.code := rfl
@[simp] theorem State.withTaint_stack (s : State) (v : Bool) : (s.withTaint v).stack = s.stack := rfl
@[simp] theorem State.withTaint_units (s : State) (v : Bool) : (s.withTaint v).units = s.units := rfl
@[simp] theorem State.withTaint_faulted (s : State) (v : Bool) : (s.withTaint v).faulted = s.faulted := rfl
@[simp] theorem State.withTaint_withTaint (s : State) (v w : Bool) : (s.withTaint v).withTaint w = s.withTaint w := rfl
@[simp] theorem State.withTaint_self (s : State) : s.withTaint s.tainted = s := rfl

/-! ### withCode -/

@[simp] theorem State.withCode_params (s : State) (v : List Byte) : (s.withCode v).params = s.params := rfl
@[simp] theorem State.withCode_mode (s : State) (v : List Byte) : (s.withCode v).mode = s.mode := rfl
@[simp] theorem State.withCode_slots (s : State) (v : List Byte) : (s.withCode v).slots = s.slots := rfl
@[simp] theorem State.withCode_eflags (s : State) (v : List Byte) : (s.withCode v).eflags = s.eflags := rfl
@[simp] theorem State.withCode_ip (s : State) (v : List Byte) : (s.withCode v).ip = s.ip := rfl
@[simp] theorem State.withCode_addressBase (s : State) (v : List Byte) : (s.withCode v).addressBase = s.addressBase := rfl
@[simp] theorem State.withCode_latches (s : State) (v : List Byte) : (s.withCode v).latches = s.latches := rfl
@[simp] theorem State.withCode_tainted (s : State) (v : List Byte) : (s.withCode v).tainted = s.tainted := rfl
@[simp] theorem State.withCode_code (s : State) (v : List Byte) : (s.withCode v).code = v := rfl
@[simp] theorem State.withCode_stack (s : State) (v : List Byte) : (s.withCode v).stack = s.stack := rfl
@[simp] theorem State.withCode_units (s : State) (v : List Byte) : (s.withCode v).units = s.units := rfl
@[simp] theorem State.withCode_faulted (s : State) (v : List Byte) : (s.withCode v).faulted = s.faulted := rfl
@[simp] theorem State.withCode_withCode (s : State) (v w : List Byte) : (s.withCode v).withCode w = s.withCode w := rfl
@[simp] theorem State.withCode_self (s : State) : s.withCode s.code = s := rfl

/-! ### withStack -/

@[simp] theorem State.withStack_params (s : State) (v : Stack) : (s.withStack v).params = s.params := rfl
@[simp] theorem State.withStack_mode (s : State) (v : Stack) : (s.withStack v).mode = s.mode := rfl
@[simp] theorem State.withStack_slots (s : State) (v : Stack) : (s.withStack v).slots = s.slots := rfl
@[simp] theorem State.withStack_eflags (s : State) (v : Stack) : (s.withStack v).eflags = s.eflags := rfl
@[simp] theorem State.withStack_ip (s : State) (v : Stack) : (s.withStack v).ip = s.ip := rfl
@[simp] theorem State.withStack_addressBase (s : State) (v : Stack) : (s.withStack v).addressBase = s.addressBase := rfl
@[simp] theorem State.withStack_latches (s : State) (v : Stack) : (s.withStack v).latches = s.latches := rfl
@[simp] theorem State.withStack_tainted (s : State) (v : Stack) : (s.withStack v).tainted = s.tainted := rfl
@[simp] theorem State.withStack_code (s : State) (v : Stack) : (s.withStack v).code = s.code := rfl
@[simp] theorem State.withStack_stack (s : State) (v : Stack) : (s.withStack v).stack = v := rfl
@[simp] theorem State.withStack_units (s : State) (v : Stack) : (s.withStack v).units = s.units := rfl
@[simp] theorem State.withStack_faulted (s : State) (v : Stack) : (s.withStack v).faulted = s.faulted := rfl
@[simp] theorem State.withStack_withStack (s : State) (v w : Stack) : (s.withStack v).withStack w = s.withStack w := rfl
@[simp] theorem State.withStack_self (s : State) : s.withStack s.stack = s := rfl

/-! ### withUnits -/

@[simp] theorem State.withUnits_params (s : State) (v : List UnitRecord) : (s.withUnits v).params = s.params := rfl
@[simp] theorem State.withUnits_mode (s : State) (v : List UnitRecord) : (s.withUnits v).mode = s.mode := rfl
@[simp] theorem State.withUnits_slots (s : State) (v : List UnitRecord) : (s.withUnits v).slots = s.slots := rfl
@[simp] theorem State.withUnits_eflags (s : State) (v : List UnitRecord) : (s.withUnits v).eflags = s.eflags := rfl
@[simp] theorem State.withUnits_ip (s : State) (v : List UnitRecord) : (s.withUnits v).ip = s.ip := rfl
@[simp] theorem State.withUnits_addressBase (s : State) (v : List UnitRecord) : (s.withUnits v).addressBase = s.addressBase := rfl
@[simp] theorem State.withUnits_latches (s : State) (v : List UnitRecord) : (s.withUnits v).latches = s.latches := rfl
@[simp] theorem State.withUnits_tainted (s : State) (v : List UnitRecord) : (s.withUnits v).tainted = s.tainted := rfl
@[simp] theorem State.withUnits_code (s : State) (v : List UnitRecord) : (s.withUnits v).code = s.code := rfl
@[simp] theorem State.withUnits_stack (s : State) (v : List UnitRecord) : (s.withUnits v).stack = s.stack := rfl
@[simp] theorem State.withUnits_units (s : State) (v : List UnitRecord) : (s.withUnits v).units = v := rfl
@[simp] theorem State.withUnits_faulted (s : State) (v : List UnitRecord) : (s.withUnits v).faulted = s.faulted := rfl
@[simp] theorem State.withUnits_withUnits (s : State) (v w : List UnitRecord) : (s.withUnits v).withUnits w = s.withUnits w := rfl
@[simp] theorem State.withUnits_self (s : State) : s.withUnits s.units = s := rfl

/-! ### withFault -/

@[simp] theorem State.withFault_params (s : State) (v : Option FatalError) : (s.withFault v).params = s.params := rfl
@[simp] theorem State.withFault_mode (s : State) (v : Option FatalError) : (s.withFault v).mode = s.mode := rfl
@[simp] theorem State.withFault_slots (s : State) (v : Option FatalError) : (s.withFault v).slots = s.slots := rfl
@[simp] theorem State.withFault_eflags (s : State) (v : Option FatalError) : (s.withFault v).eflags = s.eflags := rfl
@[simp] theorem State.withFault_ip (s : State) (v : Option FatalError) : (s.withFault v).ip = s.ip := rfl
@[simp] theorem State.withFault_addressBase (s : State) (v : Option FatalError) : (s.withFault v).addressBase = s.addressBase := rfl
@[simp] theorem State.withFault_latches (s : State) (v : Option FatalError) : (s.withFault v).latches = s.latches := rfl
@[simp] theorem State.withFault_tainted (s : State) (v : Option FatalError) : (s.withFault v).tainted = s.tainted := rfl
@[simp] theorem State.withFault_code (s : State) (v : Option FatalError) : (s.withFault v).code = s.code := rfl
@[simp] theorem State.withFault_stack (s : State) (v : Option FatalError) : (s.withFault v).stack = s.stack := rfl
@[simp] theorem State.withFault_units (s : State) (v : Option FatalError) : (s.withFault v).units = s.units := rfl
@[simp] theorem State.withFault_faulted (s : State) (v : Option FatalError) : (s.withFault v).faulted = v := rfl
@[simp] theorem State.withFault_withFault (s : State) (v w : Option FatalError) : (s.withFault v).withFault w = s.withFault w := rfl
@[simp] theorem State.withFault_self (s : State) : s.withFault s.faulted = s := rfl

/-! ### putView -/

@[simp] theorem State.putView_params (s : State) (d : Descriptor) (v : Word) : (s.putView d v).params = s.params := rfl
@[simp] theorem State.putView_mode (s : State) (d : Descriptor) (v : Word) : (s.putView d v).mode = s.mode := rfl
@[simp] theorem State.putView_slots (s : State) (d : Descriptor) (v : Word) : (s.putView d v).slots = s.slots.set d.slot (slotAfterWrite s.mode s.params d (s.slots.get d.slot) v) := rfl
@[simp] theorem State.putView_eflags (s : State) (d : Descriptor) (v : Word) : (s.putView d v).eflags = s.eflags := rfl
@[simp] theorem State.putView_ip (s : State) (d : Descriptor) (v : Word) : (s.putView d v).ip = s.ip := rfl
@[simp] theorem State.putView_addressBase (s : State) (d : Descriptor) (v : Word) : (s.putView d v).addressBase = s.addressBase := rfl
@[simp] theorem State.putView_latches (s : State) (d : Descriptor) (v : Word) : (s.putView d v).latches = s.latches := rfl
@[simp] theorem State.putView_tainted (s : State) (d : Descriptor) (v : Word) : (s.putView d v).tainted = s.tainted := rfl
@[simp] theorem State.putView_code (s : State) (d : Descriptor) (v : Word) : (s.putView d v).code = s.code := rfl
@[simp] theorem State.putView_stack (s : State) (d : Descriptor) (v : Word) : (s.putView d v).stack = s.stack := rfl
@[simp] theorem State.putView_units (s : State) (d : Descriptor) (v : Word) : (s.putView d v).units = s.units := rfl
@[simp] theorem State.putView_faulted (s : State) (d : Descriptor) (v : Word) : (s.putView d v).faulted = s.faulted := rfl

/-! ### setLogicFlags -/

@[simp] theorem State.setLogicFlags_params (s : State) (r : Word) (w : Width) : (s.setLogicFlags r w).params = s.params := rfl
@[simp] theorem State.setLogicFlags_mode (s : State) (r : Word) (w : Width) : (s.setLogicFlags r w).mode = s.mode := rfl
@[simp] theorem State.setLogicFlags_slots (s : State) (r : Word) (w : Width) : (s.setLogicFlags r w).slots = s.slots := rfl
@[simp] theorem State.setLogicFlags_eflags (s : State) (r : Word) (w : Width) : (s.setLogicFlags r w).eflags = logicFlags s.params.flags r w s.eflags := rfl
@[simp] theorem State.setLogicFlags_ip (s : State) (r : Word) (w : Width) : (s.setLogicFlags r w).ip = s.ip := rfl
@[simp] theorem State.setLogicFlags_addressBase (s : State) (r : Word) (w : Width) : (s.setLogicFlags r w).addressBase = s.addressBase := rfl
@[simp] theorem State.setLogicFlags_latches (s : State) (r : Word) (w : Width) : (s.setLogicFlags r w).latches = s.latches := rfl
@[simp] theorem State.setLogicFlags_tainted (s : State) (r : Word) (w : Width) : (s.setLogicFlags r w).tainted = s.tainted := rfl
@[simp] theorem State.setLogicFlags_code (s : State) (r : Word) (w : Width) : (s.setLogicFlags r w).code = s.code := rfl
@[simp] theorem State.setLogicFlags_stack (s : State) (r : Word) (w : Width) : (s.setLogicFlags r w).stack = s.stack := rfl
@[simp] theorem State.setLogicFlags_units (s : State) (r : Word) (w : Width) : (s.setLogicFlags r w).units = s.units := rfl
@[simp] theorem State.setLogicFlags_faulted (s : State) (r : Word) (w : Width) : (s.setLogicFlags r w).faulted = s.faulted := rfl

/-! ### clearLatches -/

@[simp] theorem State.clearLatches_params (s : State) : (s.clearLatches).params = s.params := rfl
@[simp] theorem State.clearLatches_mode (s : State) : (s.clearLatches).mode = s.mode := rfl
@[simp] theorem State.clearLatches_slots (s : State) : (s.clearLatches).slots = s.slots := rfl
@[simp] theorem State.clearLatches_eflags (s : State) : (s.clearLatches).eflags = s.eflags := rfl
@[simp] theorem State.clearLatches_ip (s : State) : (s.clearLatches).ip = s.ip := rfl
@[simp] theorem State.clearLatches_addressBase (s : State) : (s.clearLatches).addressBase = s.addressBase := rfl
@[simp] theorem State.clearLatches_latches (s : State) : (s.clearLatches).latches = .clear := rfl
@[simp] theorem State.clearLatches_tainted (s : State) : (s.clearLatches).tainted = s.tainted := rfl
@[simp] theorem State.clearLatches_code (s : State) : (s.clearLatches).code = s.code := rfl
@[simp] theorem State.clearLatches_stack (s : State) : (s.clearLatches).stack = s.stack := rfl
@[simp] theorem State.clearLatches_units (s : State) : (s.clearLatches).units = s.units := rfl
@[simp] theorem State.clearLatches_faulted (s : State) : (s.clearLatches).faulted = s.faulted := rfl

/-! ### latch -/

@[simp] theorem State.latch_params (s : State) (l : Latches) : (s.latch l).params = s.params := rfl
@[simp] theorem State.latch_mode (s : State) (l : Latches) : (s.latch l).mode = s.mode := rfl
@[simp] theorem State.latch_slots (s : State) (l : Latches) : (s.latch l).slots = s.slots := rfl
@[simp] theorem State.latch_eflags (s : State) (l : Latches) : (s.latch l).eflags = s.eflags := rfl
@[simp] theorem State.latch_ip (s : State) (l : Latches) : (s.latch l).ip = s.ip + 1 := rfl
@[simp] theorem State.latch_addressBase (s : State) (l : Latches) : (s.latch l).addressBase = s.addressBase := rfl
@[simp] theorem State.latch_latches (s : State) (l : Latches) : (s.latch l).latches = l := rfl
@[simp] theorem State.latch_tainted (s : State) (l : Latches) : (s.latch l).tainted = s.tainted := rfl
@[simp] theorem State.latch_code (s : State) (l : Latches) : (s.latch l).code = s.code := rfl
@[simp] theorem State.latch_stack (s : State) (l : Latches) : (s.latch l).stack = s.stack := rfl
@[simp] theorem State.latch_units (s : State) (l : Latches) : (s.latch l).units = s.units := rfl
@[simp] theorem State.latch_faulted (s : State) (l : Latches) : (s.latch l).faulted = s.faulted := rfl

/-! ### hostReset -/

@[simp] theorem State.hostReset_params (s : State) : (s.hostReset).params = s.params := rfl
@[simp] theorem State.hostReset_mode (s : State) : (s.hostReset).mode = s.mode := rfl
@[simp] theorem State.hostReset_slots (s : State) : (s.hostReset).slots = Vector.replicate 16 0 := rfl
@[simp] theorem State.hostReset_eflags (s : State) : (s.hostReset).eflags = 0 := rfl
@[simp] theorem State.hostReset_ip (s : State) : (s.hostReset).ip = 0 := rfl
@[simp] theorem State.hostReset_addressBase (s : State) : (s.hostReset).addressBase = s.addressBase := rfl
@[simp] theorem State.hostReset_latches (s : State) : (s.hostReset).latches = .clear := rfl
@[simp] theorem State.hostReset_tainted (s : State) : (s.hostReset).tainted = false := rfl
@[simp] theorem State.hostReset_code (s : State) : (s.hostReset).code = s.code := rfl
@[simp] theorem State.hostReset_stack (s : State) : (s.hostReset).stack = ⟨s.stack.top, s.stack.max, s.stack.policy, 0, []⟩ := rfl
@[simp] theorem State.hostReset_units (s : State) : (s.hostReset).units = s.units := rfl
@[simp] theorem State.hostReset_faulted (s : State) : (s.hostReset).faulted = none := rfl

/-! ### takeFatal -/

@[simp] theorem State.takeFatal_params (s : State) (e : FatalError) : (s.takeFatal e).params = s.params := by
  unfold State.takeFatal; split <;> rfl
@[simp] theorem State.takeFatal_mode (s : State) (e : FatalError) : (s.takeFatal e).mode = s.mode := by
  unfold State.takeFatal; split <;> rfl
@[simp] theorem State.takeFatal_slots (s : State) (e : FatalError) : (s.takeFatal e).slots = s.slots := by
  unfold State.takeFatal; split <;> rfl
@[simp] theorem State.takeFatal_eflags (s : State) (e : FatalError) : (s.takeFatal e).eflags = s.eflags := by
  unfold State.takeFatal; split <;> rfl
@[simp] theorem State.takeFatal_ip (s : State) (e : FatalError) : (s.takeFatal e).ip = s.ip := by
  unfold State.takeFatal; split <;> rfl
@[simp] theorem State.takeFatal_addressBase (s : State) (e : FatalError) : (s.takeFatal e).addressBase = s.addressBase := by
  unfold State.takeFatal; split <;> rfl
@[simp] theorem State.takeFatal_latches (s : State) (e : FatalError) : (s.takeFatal e).latches = s.latches := by
  unfold State.takeFatal; split <;> rfl
@[simp] theorem State.takeFatal_tainted (s : State) (e : FatalError) : (s.takeFatal e).tainted = s.tainted := by
  unfold State.takeFatal; split <;> rfl
@[simp] theorem State.takeFatal_code (s : State) (e : FatalError) : (s.takeFatal e).code = s.code := by
  unfold State.takeFatal; split <;> rfl
@[simp] theorem State.takeFatal_stack (s : State) (e : FatalError) : (s.takeFatal e).stack = s.stack := by
  unfold State.takeFatal; split <;> rfl
@[simp] theorem State.takeFatal_units (s : State) (e : FatalError) : (s.takeFatal e).units = s.units := by
  unfold State.takeFatal; split <;> rfl

/-- A fatal error leaves `faulted` set (60_exceptions.md R312). -/
@[simp] theorem State.takeFatal_isSome (s : State) (e : FatalError) : (s.takeFatal e).faulted.isSome = true := by
  unfold State.takeFatal; split <;> simp_all

/-- The first fatal error is the one recorded (10_state.md R39). -/
theorem State.takeFatal_of_none {s : State} (h : s.faulted = none) (e : FatalError) :
    s.takeFatal e = s.withFault (some e) := by
  simp [State.takeFatal, h]

theorem State.takeFatal_of_some {s : State} {e₀ : FatalError} (h : s.faulted = some e₀) (e : FatalError) :
    s.takeFatal e = s := by
  simp [State.takeFatal, h]

/-! ### What operand sizes and register operands depend on -/

@[simp] theorem State.withSlots_ctx (s : State) (v : Vector Word 16) : (s.withSlots v).ctx = s.ctx := rfl
@[simp] theorem State.withSlots_opSize (s : State) (v : Vector Word 16) : (s.withSlots v).opSize = s.opSize := rfl
@[simp] theorem State.withSlots_stkSize (s : State) (v : Vector Word 16) : (s.withSlots v).stkSize = s.stkSize := rfl
@[simp] theorem State.withSlots_spReg (s : State) (v : Vector Word 16) : (s.withSlots v).spReg = s.spReg := rfl
@[simp] theorem State.withSlots_regOp (s : State) (v : Vector Word 16) (f : RegId) (e : Bool) (w : Width) :
    (s.withSlots v).regOp f e w = s.regOp f e w := rfl
@[simp] theorem State.withFlags_ctx (s : State) (v : BitVec 32) : (s.withFlags v).ctx = s.ctx := rfl
@[simp] theorem State.withFlags_opSize (s : State) (v : BitVec 32) : (s.withFlags v).opSize = s.opSize := rfl
@[simp] theorem State.withFlags_stkSize (s : State) (v : BitVec 32) : (s.withFlags v).stkSize = s.stkSize := rfl
@[simp] theorem State.withFlags_spReg (s : State) (v : BitVec 32) : (s.withFlags v).spReg = s.spReg := rfl
@[simp] theorem State.withFlags_regOp (s : State) (v : BitVec 32) (f : RegId) (e : Bool) (w : Width) :
    (s.withFlags v).regOp f e w = s.regOp f e w := rfl
@[simp] theorem State.withFlags_view (s : State) (v : BitVec 32) (d : Descriptor) : (s.withFlags v).view d = s.view d := rfl
@[simp] theorem State.withFlags_putView (s : State) (v : BitVec 32) (d : Descriptor) (x : Word) :
    (s.withFlags v).putView d x = (s.putView d x).withFlags v := rfl
@[simp] theorem State.withIp_ctx (s : State) (v : Nat) : (s.withIp v).ctx = s.ctx := rfl
@[simp] theorem State.withIp_opSize (s : State) (v : Nat) : (s.withIp v).opSize = s.opSize := rfl
@[simp] theorem State.withIp_stkSize (s : State) (v : Nat) : (s.withIp v).stkSize = s.stkSize := rfl
@[simp] theorem State.withIp_spReg (s : State) (v : Nat) : (s.withIp v).spReg = s.spReg := rfl
@[simp] theorem State.withIp_regOp (s : State) (v : Nat) (f : RegId) (e : Bool) (w : Width) :
    (s.withIp v).regOp f e w = s.regOp f e w := rfl
@[simp] theorem State.withIp_view (s : State) (v : Nat) (d : Descriptor) : (s.withIp v).view d = s.view d := rfl
@[simp] theorem State.withIp_putView (s : State) (v : Nat) (d : Descriptor) (x : Word) :
    (s.withIp v).putView d x = (s.putView d x).withIp v := rfl
@[simp] theorem State.withBase_ctx (s : State) (v : Int) : (s.withBase v).ctx = s.ctx := rfl
@[simp] theorem State.withBase_opSize (s : State) (v : Int) : (s.withBase v).opSize = s.opSize := rfl
@[simp] theorem State.withBase_stkSize (s : State) (v : Int) : (s.withBase v).stkSize = s.stkSize := rfl
@[simp] theorem State.withBase_spReg (s : State) (v : Int) : (s.withBase v).spReg = s.spReg := rfl
@[simp] theorem State.withBase_regOp (s : State) (v : Int) (f : RegId) (e : Bool) (w : Width) :
    (s.withBase v).regOp f e w = s.regOp f e w := rfl
@[simp] theorem State.withBase_view (s : State) (v : Int) (d : Descriptor) : (s.withBase v).view d = s.view d := rfl
@[simp] theorem State.withBase_putView (s : State) (v : Int) (d : Descriptor) (x : Word) :
    (s.withBase v).putView d x = (s.putView d x).withBase v := rfl
@[simp] theorem State.withTaint_ctx (s : State) (v : Bool) : (s.withTaint v).ctx = s.ctx := rfl
@[simp] theorem State.withTaint_opSize (s : State) (v : Bool) : (s.withTaint v).opSize = s.opSize := rfl
@[simp] theorem State.withTaint_stkSize (s : State) (v : Bool) : (s.withTaint v).stkSize = s.stkSize := rfl
@[simp] theorem State.withTaint_spReg (s : State) (v : Bool) : (s.withTaint v).spReg = s.spReg := rfl
@[simp] theorem State.withTaint_regOp (s : State) (v : Bool) (f : RegId) (e : Bool) (w : Width) :
    (s.withTaint v).regOp f e w = s.regOp f e w := rfl
@[simp] theorem State.withTaint_view (s : State) (v : Bool) (d : Descriptor) : (s.withTaint v).view d = s.view d := rfl
@[simp] theorem State.withTaint_putView (s : State) (v : Bool) (d : Descriptor) (x : Word) :
    (s.withTaint v).putView d x = (s.putView d x).withTaint v := rfl
@[simp] theorem State.withCode_ctx (s : State) (v : List Byte) : (s.withCode v).ctx = s.ctx := rfl
@[simp] theorem State.withCode_opSize (s : State) (v : List Byte) : (s.withCode v).opSize = s.opSize := rfl
@[simp] theorem State.withCode_stkSize (s : State) (v : List Byte) : (s.withCode v).stkSize = s.stkSize := rfl
@[simp] theorem State.withCode_spReg (s : State) (v : List Byte) : (s.withCode v).spReg = s.spReg := rfl
@[simp] theorem State.withCode_regOp (s : State) (v : List Byte) (f : RegId) (e : Bool) (w : Width) :
    (s.withCode v).regOp f e w = s.regOp f e w := rfl
@[simp] theorem State.withCode_view (s : State) (v : List Byte) (d : Descriptor) : (s.withCode v).view d = s.view d := rfl
@[simp] theorem State.withCode_putView (s : State) (v : List Byte) (d : Descriptor) (x : Word) :
    (s.withCode v).putView d x = (s.putView d x).withCode v := rfl
@[simp] theorem State.withStack_ctx (s : State) (v : Stack) : (s.withStack v).ctx = s.ctx := rfl
@[simp] theorem State.withStack_opSize (s : State) (v : Stack) : (s.withStack v).opSize = s.opSize := rfl
@[simp] theorem State.withStack_stkSize (s : State) (v : Stack) : (s.withStack v).stkSize = s.stkSize := rfl
@[simp] theorem State.withStack_spReg (s : State) (v : Stack) : (s.withStack v).spReg = s.spReg := rfl
@[simp] theorem State.withStack_regOp (s : State) (v : Stack) (f : RegId) (e : Bool) (w : Width) :
    (s.withStack v).regOp f e w = s.regOp f e w := rfl
@[simp] theorem State.withStack_view (s : State) (v : Stack) (d : Descriptor) : (s.withStack v).view d = s.view d := rfl
@[simp] theorem State.withStack_putView (s : State) (v : Stack) (d : Descriptor) (x : Word) :
    (s.withStack v).putView d x = (s.putView d x).withStack v := rfl
@[simp] theorem State.withUnits_ctx (s : State) (v : List UnitRecord) : (s.withUnits v).ctx = s.ctx := rfl
@[simp] theorem State.withUnits_opSize (s : State) (v : List UnitRecord) : (s.withUnits v).opSize = s.opSize := rfl
@[simp] theorem State.withUnits_stkSize (s : State) (v : List UnitRecord) : (s.withUnits v).stkSize = s.stkSize := rfl
@[simp] theorem State.withUnits_spReg (s : State) (v : List UnitRecord) : (s.withUnits v).spReg = s.spReg := rfl
@[simp] theorem State.withUnits_regOp (s : State) (v : List UnitRecord) (f : RegId) (e : Bool) (w : Width) :
    (s.withUnits v).regOp f e w = s.regOp f e w := rfl
@[simp] theorem State.withUnits_view (s : State) (v : List UnitRecord) (d : Descriptor) : (s.withUnits v).view d = s.view d := rfl
@[simp] theorem State.withUnits_putView (s : State) (v : List UnitRecord) (d : Descriptor) (x : Word) :
    (s.withUnits v).putView d x = (s.putView d x).withUnits v := rfl
@[simp] theorem State.withFault_ctx (s : State) (v : Option FatalError) : (s.withFault v).ctx = s.ctx := rfl
@[simp] theorem State.withFault_opSize (s : State) (v : Option FatalError) : (s.withFault v).opSize = s.opSize := rfl
@[simp] theorem State.withFault_stkSize (s : State) (v : Option FatalError) : (s.withFault v).stkSize = s.stkSize := rfl
@[simp] theorem State.withFault_spReg (s : State) (v : Option FatalError) : (s.withFault v).spReg = s.spReg := rfl
@[simp] theorem State.withFault_regOp (s : State) (v : Option FatalError) (f : RegId) (e : Bool) (w : Width) :
    (s.withFault v).regOp f e w = s.regOp f e w := rfl
@[simp] theorem State.withFault_view (s : State) (v : Option FatalError) (d : Descriptor) : (s.withFault v).view d = s.view d := rfl
@[simp] theorem State.withFault_putView (s : State) (v : Option FatalError) (d : Descriptor) (x : Word) :
    (s.withFault v).putView d x = (s.putView d x).withFault v := rfl

@[simp] theorem State.ctx_mode (s : State) : s.ctx.mode = s.mode := rfl
@[simp] theorem State.ctx_latches (s : State) : s.ctx.latches = s.latches := rfl
@[simp] theorem State.putView_ctx (s : State) (d : Descriptor) (v : Word) : (s.putView d v).ctx = s.ctx := rfl
@[simp] theorem State.putView_regOp (s : State) (d : Descriptor) (v : Word) (f : RegId) (e : Bool) (w : Width) :
    (s.putView d v).regOp f e w = s.regOp f e w := rfl
@[simp] theorem State.putView_spReg (s : State) (d : Descriptor) (v : Word) : (s.putView d v).spReg = s.spReg := rfl

/-! ### The clear latches -/

@[simp] theorem Latches.clear_esc : Latches.clear.esc = false := rfl
@[simp] theorem Latches.clear_p66 : Latches.clear.p66 = false := rfl
@[simp] theorem Latches.clear_p67 : Latches.clear.p67 = false := rfl
@[simp] theorem Latches.clear_rex : Latches.clear.rex = none := rfl

end Sys2Proof.Machine
end

