-- ==== Sys2Proof/Laws/Ops.lean ====
section
/-! SUPPORT. One lemma for each shared operation: what it answers where it succeeds, and everything it can do to the state
(`UnitStep`), whether it succeeds or stops. -/

namespace Sys2Proof.Machine

open Sys2Proof

/-! ## Running a computation -/

theorem bind_apply {α β : Type} (x : UnitM α) (f : α → UnitM β) (s : State) :
    (x >>= f) s = match x s with
      | .ok a t => f a t
      | .error e t => .error e t := by
  show EStateM.bind x f s = _
  unfold EStateM.bind
  split <;> simp_all

/-- A first part that succeeds hands its value and state on. -/
theorem bind_of_ok {α β : Type} {x : UnitM α} {f : α → UnitM β} {s t : State} {a : α} (h : x s = .ok a t) :
    (x >>= f) s = f a t := by
  rw [bind_apply, h]

/-- A first part that stops stops the whole. -/
theorem bind_of_error {α β : Type} {x : UnitM α} {f : α → UnitM β} {s t : State} {e : Stop} (h : x s = .error e t) :
    (x >>= f) s = .error e t := by
  rw [bind_apply, h]

@[simp] theorem pure_apply {α : Type} (a : α) (s : State) : (pure a : UnitM α) s = .ok a s := rfl
@[simp] theorem get_apply (s : State) : (get : UnitM State) s = .ok s s := rfl
@[simp] theorem set_apply (s t : State) : (set t : UnitM PUnit) s = .ok ⟨⟩ t := rfl
@[simp] theorem modify_apply (f : State → State) (s : State) : (modify f : UnitM PUnit) s = .ok ⟨⟩ (f s) := rfl
@[simp] theorem throw_apply {α : Type} (e : Stop) (s : State) : (throw e : UnitM α) s = .error e s := rfl
@[simp] theorem raise_apply {α : Type} (e : FatalError) (s : State) :
    (raise e : UnitM α) s = .error (.fatal e) s := rfl
@[simp] theorem refuse_apply {α : Type} (r : Refusal) (s : State) :
    (refuse r : UnitM α) s = .error (.refuse r) s := rfl
@[simp] theorem bind_get {β : Type} (f : State → UnitM β) (s : State) : (get >>= f) s = f s s := rfl
@[simp] theorem bind_pure_apply {α β : Type} (a : α) (f : α → UnitM β) (s : State) :
    ((pure a : UnitM α) >>= f) s = f a s := rfl
@[simp] theorem bind_modify {β : Type} (g : State → State) (f : PUnit → UnitM β) (s : State) :
    (modify g >>= f) s = f ⟨⟩ (g s) := rfl

/-- The state in which a computation ends or stops. -/
def stateAfter {α : Type} : EStateM.Result Stop State α → State
  | .ok _ t => t
  | .error _ t => t

/-! ## Operations that succeed -/

theorem setIp_eq (n : Nat) (s : State) : setIp (n : Int) s = .ok ⟨⟩ (s.withIp n) := by
  have : ¬ (n : Int) < 0 := by omega
  simp [setIp, this]

theorem setIp_of_nonneg {t : Int} (h : 0 ≤ t) (s : State) : setIp t s = .ok ⟨⟩ (s.withIp t.toNat) := by
  have : ¬ t < 0 := by omega
  simp [setIp, this]

theorem setIp_of_neg {t : Int} (h : t < 0) (s : State) :
    setIp t s = .error (.refuse .negativeInstructionPointer) s := by
  rw [setIp, if_pos h]; rfl

@[simp] theorem skip_apply (n : Nat) (s : State) : skip n s = .ok ⟨⟩ (s.withIp (s.ip + n)) := rfl

/-- A window inside the buffer is read (20_memory.md R62). -/
theorem codeRead_eq {off n : Nat} {s : State} (h : off + n ≤ s.code.length) :
    codeRead off n s = .ok ((s.code.drop off).take n) s := by
  have : 0 ≤ (off : Int) ∧ (off : Int) + n ≤ s.code.length := by omega
  simp [codeRead, this]

/-- Any other window is an error, one below the buffer's start among them (20_memory.md R62). -/
theorem codeRead_outside {off : Int} {n : Nat} {s : State} (h : off < 0 ∨ (s.code.length : Int) < off + n) :
    codeRead off n s = .error (.fatal (.codeWindowOutOfRange off n)) s := by
  have : ¬ (0 ≤ off ∧ off + n ≤ s.code.length) := by omega
  rw [codeRead, bind_get, if_neg this]; rfl

theorem checkRegister_eq {d : Descriptor} {s : State} (h : slotExists s.mode d = true) (hw : widthFits s.mode d = true) :
    checkRegister d s = .ok ⟨⟩ s := by
  simp [checkRegister, h, hw]

/-- `RegRead` through a descriptor the mode admits (41_register_file.md R186). -/
theorem regRead_eq {d : Descriptor} {s : State} (h : slotExists s.mode d = true) (hw : widthFits s.mode d = true) :
    regRead d s = .ok (s.view d) s := by
  rw [regRead, bind_of_ok (checkRegister_eq h hw)]; rfl

/-- `RegWrite` through a descriptor the mode admits (41_register_file.md R187). -/
theorem regWrite_eq {d : Descriptor} {s : State} (h : slotExists s.mode d = true) (hw : widthFits s.mode d = true)
    (v : Word) : regWrite d v s = .ok ⟨⟩ (s.putView d v) := by
  rw [regWrite, bind_of_ok (checkRegister_eq h hw)]; rfl

theorem memRead_eq {a : Int} {n : Nat} {s : State} {bs : List Byte} (hn : n ≠ 0) (h : s.stack.read a n = .ok bs) :
    memRead a n s = .ok bs s := by
  simp [memRead, hn, h]

theorem memRead_error {a : Int} {n : Nat} {s : State} {e : FatalError} (hn : n ≠ 0) (h : s.stack.read a n = .error e) :
    memRead a n s = .error (.fatal e) s := by
  simp [memRead, hn, h]

theorem memWrite_eq {a : Int} {bs : List Byte} {s : State} {st : Stack} (hn : bs ≠ [])
    (h : s.stack.write a bs = .ok st) : memWrite a bs s = .ok ⟨⟩ (s.withStack st) := by
  have : bs.length ≠ 0 := by simpa using hn
  simp [memWrite, this, h]

theorem memWrite_error {a : Int} {bs : List Byte} {s : State} {e : FatalError} (hn : bs ≠ [])
    (h : s.stack.write a bs = .error e) : memWrite a bs s = .error (.fatal e) s := by
  have : bs.length ≠ 0 := by simpa using hn
  simp [memWrite, this, h]

/-! ## Everything an operation can do -/

/-- Every change that the operations of a unit can make: the configuration, the latches and the fault record stay, the
stack's cells stay canonical and fitting, the slots stay what the mode can have written. -/
structure UnitStep (s t : State) : Prop where
  configuration : SameConfiguration s t
  latches : t.latches = s.latches
  faulted : t.faulted = s.faulted
  canonical : s.stack.canonical = true → t.stack.canonical = true
  fits : s.stack.canonical = true → s.stack.fits = true → t.stack.fits = true
  slots : slotsFit s.mode s.slots = true → slotsFit s.mode t.slots = true

theorem UnitStep.refl (s : State) : UnitStep s s :=
  ⟨⟨rfl, rfl, rfl, rfl, rfl, rfl, rfl, rfl, rfl⟩, rfl, rfl, id, fun _ h => h, id⟩

theorem UnitStep.trans {s t u : State} (h : UnitStep s t) (k : UnitStep t u) : UnitStep s u := by
  obtain ⟨⟨a1, a2, a3, a4, a5, a6, a7, a8, a9⟩, b, c, d, e, f⟩ := h
  obtain ⟨⟨a1', a2', a3', a4', a5', a6', a7', a8', a9'⟩, b', c', d', e', f'⟩ := k
  refine ⟨⟨a1'.trans a1, a2'.trans a2, a3'.trans a3, a4'.trans a4, a5'.trans a5, a6'.trans a6, a7'.trans a7,
    a8'.trans a8, a9'.trans a9⟩, b'.trans b, c'.trans c, fun h => d' (d h), fun h k => e' (d h) (e h k), fun h => ?_⟩
  have := f h
  rw [← a2] at this ⊢
  exact f' this

/-- A computation makes only the changes of `UnitStep`, whether it ends or stops. -/
def Steps {α : Type} (m : UnitM α) : Prop := ∀ s, UnitStep s (stateAfter (m s))

theorem Steps.bind {α β : Type} {x : UnitM α} {f : α → UnitM β} (hx : Steps x) (hf : ∀ a, Steps (f a)) :
    Steps (x >>= f) := by
  intro s
  have h := hx s
  rw [bind_apply]
  cases hxs : x s with
  | ok a t =>
    rw [hxs] at h
    exact h.trans (hf a t)
  | error e t =>
    rw [hxs] at h
    exact h

theorem Steps.pure {α : Type} (a : α) : Steps (Pure.pure a : UnitM α) := fun s => UnitStep.refl s
theorem Steps.get : Steps (MonadState.get : UnitM State) := fun s => UnitStep.refl s
theorem Steps.throw {α : Type} (e : Stop) : Steps (MonadExcept.throw e : UnitM α) := fun s => UnitStep.refl s
theorem Steps.raise {α : Type} (e : FatalError) : Steps (Machine.raise e : UnitM α) := fun s => UnitStep.refl s
theorem Steps.refuse {α : Type} (r : Refusal) : Steps (Machine.refuse r : UnitM α) := fun s => UnitStep.refl s

theorem Steps.ite {α : Type} {c : Prop} [Decidable c] {x y : UnitM α} (hx : Steps x) (hy : Steps y) :
    Steps (if c then x else y) := by
  split <;> assumption

/-- A state read at the start. -/
theorem Steps.withState {α : Type} {f : State → UnitM α} (h : ∀ s, Steps (f s)) : Steps (MonadState.get >>= f) :=
  Steps.get.bind h

theorem unitStep_withIp (s : State) (n : Nat) : UnitStep s (s.withIp n) :=
  ⟨⟨rfl, rfl, rfl, rfl, rfl, rfl, rfl, rfl, rfl⟩, rfl, rfl, id, fun _ h => h, id⟩

theorem unitStep_withFlags (s : State) (f : BitVec 32) : UnitStep s (s.withFlags f) :=
  ⟨⟨rfl, rfl, rfl, rfl, rfl, rfl, rfl, rfl, rfl⟩, rfl, rfl, id, fun _ h => h, id⟩

theorem skip_steps (n : Nat) : Steps (skip n) := fun s => unitStep_withIp s _

theorem setIp_steps (t : Int) : Steps (setIp t) :=
  Steps.ite (Steps.refuse _) fun s => unitStep_withIp s _

theorem codeRead_steps (off : Int) (n : Nat) : Steps (codeRead off n) :=
  Steps.withState fun _ => Steps.ite (Steps.pure _) (Steps.raise _)

theorem setLogicFlags_steps (r : Word) (w : Width) : Steps (modify fun t => t.setLogicFlags r w) :=
  fun s => unitStep_withFlags s _

theorem checkRegister_steps (d : Descriptor) : Steps (checkRegister d) := by
  exact Steps.withState fun _ => Steps.ite (Steps.refuse _) (Steps.ite (Steps.raise _) (Steps.pure _))

theorem regRead_steps (d : Descriptor) : Steps (regRead d) :=
  (checkRegister_steps d).bind fun _ => Steps.withState fun _ => Steps.pure _

theorem memRead_steps (a : Int) (n : Nat) : Steps (memRead a n) := by
  refine Steps.withState fun s => Steps.ite (Steps.refuse _) ?_
  split
  · exact Steps.pure _
  · exact Steps.raise _

theorem unitStep_withStack {s : State} {st : Stack} (h : s.stack.canonical = true → st.canonical = true ∧
    (s.stack.fits = true → st.fits = true)) (ht : st.top = s.stack.top) (hm : st.max = s.stack.max)
    (hp : st.policy = s.stack.policy) : UnitStep s (s.withStack st) :=
  ⟨⟨rfl, rfl, rfl, rfl, rfl, rfl, ht, hm, hp⟩, rfl, rfl, fun hc => (h hc).1, fun hc hf => (h hc).2 hf, id⟩

theorem strictWrite_config {st st' : Stack} {a : Int} {bs : List Byte} (h : st.write a bs = .ok st') :
    st'.top = st.top ∧ st'.max = st.max ∧ st'.policy = st.policy := by
  rcases Stack.write_ok h with rfl | ⟨-, h⟩
  · exact ⟨rfl, rfl, rfl⟩
  · obtain ⟨-, h2, h3, h4, -⟩ := Stack.strictWrite_ok h
    exact ⟨h2, h3, h4⟩

theorem strictClear_config {st st' : Stack} {a : Int} {n : Nat} (h : st.clear a n = .ok st') :
    st'.top = st.top ∧ st'.max = st.max ∧ st'.policy = st.policy := by
  rcases Stack.clear_ok h with rfl | ⟨-, h⟩
  · exact ⟨rfl, rfl, rfl⟩
  · obtain ⟨-, -, rfl⟩ := Stack.strictClear_ok h
    exact ⟨rfl, rfl, rfl⟩

theorem memWrite_steps (a : Int) (bs : List Byte) : Steps (memWrite a bs) := by
  intro s
  by_cases hn : bs = []
  · subst hn; exact UnitStep.refl s
  · cases h : s.stack.write a bs with
    | error e => rw [memWrite_error hn h]; exact UnitStep.refl s
    | ok st =>
      rw [memWrite_eq hn h]
      obtain ⟨h1, h2, h3⟩ := strictWrite_config h
      exact unitStep_withStack (fun hc => ⟨(Stack.write_keeps hn h hc).1, (Stack.write_keeps hn h hc).2.1⟩) h1 h2 h3

theorem memClear_steps (a : Int) (n : Nat) : Steps (memClear a n) := by
  intro s
  by_cases hn : n = 0
  · subst hn; exact UnitStep.refl s
  · cases h : s.stack.clear a n with
    | error e => simp only [memClear, hn, if_false, bind_get, h]; exact UnitStep.refl s
    | ok st =>
      simp only [memClear, hn, if_false, bind_get, h]
      obtain ⟨h1, h2, h3⟩ := strictClear_config h
      exact unitStep_withStack (fun hc => ⟨(Stack.clear_keeps hn h hc).1, (Stack.clear_keeps hn h hc).2.1⟩) h1 h2 h3

/-! ## Registers -/

/-- A slot read after a slot write. -/
theorem slots_get_set (v : Vector Word 16) (i j : Fin 16) (x : Word) :
    (v.set i x).get j = if i = j then x else v.get j := by
  rw [Vector.get_eq_getElem, Vector.getElem_set, Vector.get_eq_getElem]
  simp [Fin.ext_iff]

theorem slotsFit_iff (m : Mode) (v : Vector Word 16) :
    slotsFit m v = true ↔ ∀ i : Fin 16, (i.val < m.nregs ∨ v.get i = 0) ∧ (v.get i).toNat < 2 ^ m.maxWidth := by
  simp [slotsFit, List.all_eq_true]

theorem mask_lt (w : Width) : w.mask.toNat < 2 ^ w.bits := by cases w <;> decide

/-- A view's value fits its width. -/
theorem masked_lt (v : Word) (w : Width) : (v &&& w.mask).toNat < 2 ^ w.bits := by
  rw [BitVec.toNat_and]
  exact Nat.and_lt_two_pow _ (mask_lt w)

theorem shifted_lt {p : Params} {d : Descriptor} {m : Mode} (hw : widthFits m d = true) {v : Word}
    (hv : v.toNat < 2 ^ d.width.bits) : (v <<< d.shift p).toNat < 2 ^ m.maxWidth := by
  have h16 : 16 ≤ m.maxWidth := by cases m <;> decide
  have hb : d.width.bits ≤ m.maxWidth := by simpa [widthFits] using hw
  have hs : d.width.bits + d.shift p ≤ m.maxWidth := by
    unfold Descriptor.shift
    by_cases hh : d.isHighByte = true
    · have h8 : d.width.bits = 8 := by
        cases d with
        | legacy id w => cases w <;> simp_all [Descriptor.isHighByte, Descriptor.width, Width.bits]
        | rexLow i => simp [Descriptor.isHighByte] at hh
        | ext id w => simp [Descriptor.isHighByte] at hh
      have : p.highByte.bits ≤ 8 := by cases p.highByte <;> decide
      rw [if_pos hh]
      omega
    · rw [if_neg hh]
      omega
  rw [BitVec.toNat_shiftLeft, Nat.shiftLeft_eq]
  refine lt_of_le_of_lt (Nat.mod_le _ _) ?_
  calc v.toNat * 2 ^ d.shift p < 2 ^ d.width.bits * 2 ^ d.shift p :=
        Nat.mul_lt_mul_of_pos_right hv (Nat.two_pow_pos _)
    _ = 2 ^ (d.width.bits + d.shift p) := (Nat.pow_add _ _ _).symm
    _ ≤ 2 ^ m.maxWidth := Nat.pow_le_pow_right (by decide) hs

/-- A write through a descriptor of the mode leaves nothing at or above MAXW(MODE) (41_register_file.md R190). -/
theorem slotAfterWrite_lt {m : Mode} {d : Descriptor} (hw : widthFits m d = true) (p : Params) {old : Word} (v : Word)
    (ho : old.toNat < 2 ^ m.maxWidth) : (slotAfterWrite m p d old v).toNat < 2 ^ m.maxWidth := by
  have hb : d.width.bits ≤ m.maxWidth := by simpa [widthFits] using hw
  have hv : (v &&& d.mask).toNat < 2 ^ d.width.bits := masked_lt v d.width
  unfold slotAfterWrite
  simp only
  split
  · exact lt_of_lt_of_le hv (Nat.pow_le_pow_right (by decide) hb)
  · rw [BitVec.toNat_or, BitVec.toNat_and]
    exact Nat.or_lt_two_pow (lt_of_le_of_lt Nat.and_le_left ho) (shifted_lt hw hv)

theorem slotsFit_putView {s : State} {d : Descriptor} (h : slotExists s.mode d = true)
    (hw : widthFits s.mode d = true) (v : Word) (hs : slotsFit s.mode s.slots = true) :
    slotsFit s.mode (s.putView d v).slots = true := by
  rw [slotsFit_iff] at hs ⊢
  intro i
  rw [State.putView_slots, slots_get_set]
  split
  · rename_i he
    subst he
    exact ⟨Or.inl (by simpa [slotExists] using h), slotAfterWrite_lt hw _ _ (hs _).2⟩
  · exact hs i

theorem regWrite_steps (d : Descriptor) (v : Word) : Steps (regWrite d v) := by
  intro s
  by_cases h : slotExists s.mode d = true
  · by_cases hw : widthFits s.mode d = true
    · rw [regWrite_eq h hw]
      exact ⟨⟨rfl, rfl, rfl, rfl, rfl, rfl, rfl, rfl, rfl⟩, rfl, rfl, id, fun _ h => h, slotsFit_putView h hw v⟩
    · have : checkRegister d s = .error (.fatal (.registerWidthExceedsMode d)) s := by simp [checkRegister, h, hw]
      rw [regWrite, bind_of_error this]
      exact UnitStep.refl s
  · have : checkRegister d s = .error (.refuse .absentSlot) s := by simp [checkRegister, h]
    rw [regWrite, bind_of_error this]
    exact UnitStep.refl s

theorem getFlag_steps (m : Nat) : Steps (getFlag m) :=
  Steps.withState fun _ => Steps.ite (Steps.refuse _) (Steps.pure _)

theorem setFlag_steps (m : Nat) (b : Bool) : Steps (setFlag m b) :=
  Steps.ite (Steps.refuse _) fun s => unitStep_withFlags s _

/-! ## Descriptors of operands exist and fit -/

theorem opWidth_fits (c : DecodeCtx) : (opWidth c).bits ≤ c.mode.maxWidth := by
  unfold opWidth
  rcases c with ⟨m, l⟩
  cases m <;> simp only <;> split_ifs <;> simp_all [Width.bits, Mode.maxWidth]

theorem stkSize_fits (s : State) : s.stkSize.bits ≤ s.mode.maxWidth := by
  unfold State.stkSize
  cases s.mode <;> split <;> decide

theorem addrWidth_bits (m : Mode) : m.addrWidth.bits = m.maxWidth := by cases m <;> rfl

theorem getByCode_width (f : RegId) (w : Width) (p e : Bool) : (getByCode f w p e).width = w := by
  unfold getByCode
  split_ifs with h1 h2
  · rfl
  · simp only [Bool.and_eq_true, beq_iff_eq] at h2
    simp [Descriptor.width, h2.1.2]
  · rfl

theorem slot_lt_eight_of_legacy (f : RegId) (w : Width) : (Descriptor.legacy f w).slot.val < 8 := by
  revert f; cases w <;> decide

theorem slot_lt_eight_of_rexLow (i : Fin 4) : (Descriptor.rexLow i).slot.val < 8 := by
  revert i; decide

/-- A register operand names an existing slot where the latches are legal for the mode (41_register_file.md R182). -/
theorem regOp_exists {s : State} (h : latchesLegal s.mode s.latches = true) (f : RegId) (e : Bool) (w : Width) :
    slotExists s.mode (s.regOp f e w) = true := by
  have h8 : ∀ d : Descriptor, d.slot.val < 8 → slotExists s.mode d = true := by
    intro d hd
    have : 8 ≤ s.mode.nregs := by cases s.mode <;> decide
    simp only [slotExists, decide_eq_true_eq]
    omega
  unfold State.regOp getByCode
  split_ifs with h1 h2
  · have hl : s.mode = .long := by
      by_contra hne
      simp only [Bool.and_eq_true] at h1
      simp [latchesLegal, hne, Option.isSome_iff_ne_none.1 h1.1] at h
    simp only [slotExists, hl, decide_eq_true_eq]
    exact (Descriptor.ext f w).slot.isLt
  · exact h8 _ (slot_lt_eight_of_rexLow _)
  · exact h8 _ (slot_lt_eight_of_legacy _ _)

theorem regOp_fits (s : State) (f : RegId) (e : Bool) {w : Width} (h : w.bits ≤ s.mode.maxWidth) :
    widthFits s.mode (s.regOp f e w) = true := by
  simp [widthFits, State.regOp, getByCode_width, h]

theorem spReg_exists (s : State) : slotExists s.mode s.spReg = true := by
  unfold State.spReg
  cases s.mode <;> decide

theorem spReg_fits (s : State) : widthFits s.mode s.spReg = true := by
  simp [widthFits, State.spReg, getByCode_width, addrWidth_bits]

end Sys2Proof.Machine
end

