-- ==== Sys2Proof/Laws/Bits.lean ====
section
/-! SUPPORT. Bit by bit: what a view, a slot after a write and the flags after a masked write hold. -/

namespace Sys2Proof.Machine

open Sys2Proof

/-- A width's mask has exactly the bits below the width (10_state.md R23). -/
theorem mask_bit (w : Width) (k : Nat) : w.mask.getLsbD k = decide (k < w.bits) := by
  by_cases hk : k < 64
  · have : ∀ w : Width, ∀ k : Fin 64, w.mask.getLsbD k.val = decide (k.val < w.bits) := by intro w; cases w <;> decide
    exact this w ⟨k, hk⟩
  · rw [BitVec.getLsbD_of_ge _ _ (by omega)]
    have : w.bits ≤ 64 := by cases w <;> decide
    simp; omega

/-- A view lies inside its slot, and one of 32 bits or more lies at bit 0. -/
theorem shift_fits (p : Params) (d : Descriptor) : d.shift p + d.width.bits ≤ 64 ∧ (32 ≤ d.width.bits → d.shift p = 0) := by
  unfold Descriptor.shift
  by_cases h : d.isHighByte = true
  · have h8 : d.width.bits = 8 := by
      cases d with
      | legacy id w => cases w <;> simp_all [Descriptor.isHighByte, Descriptor.width, Width.bits]
      | rexLow i => simp [Descriptor.isHighByte] at h
      | ext id w => simp [Descriptor.isHighByte] at h
    rw [if_pos h]
    have : p.highByte.bits ≤ 8 := by cases p.highByte <;> decide
    omega
  · rw [if_neg h]
    have : d.width.bits ≤ 64 := by cases d.width <;> decide
    omega

/-- A merging write, bit by bit (41_register_file.md R187). -/
theorem slotAfterWrite_bit (m : Mode) (p : Params) (d : Descriptor) (old v : Word) (hn : ¬ (m = .long ∧ 32 ≤ d.width.bits)) (k : Nat) (hk : k < 64) :
   (slotAfterWrite m p d old v).getLsbD k = if d.shift p ≤ k ∧ k < d.shift p + d.width.bits then v.getLsbD (k - d.shift p) else old.getLsbD k := by
  have hm : ∀ k, d.mask.getLsbD k = decide (k < d.width.bits) := fun k => mask_bit d.width k
  unfold slotAfterWrite
  simp only [if_neg hn, BitVec.getLsbD_or, BitVec.getLsbD_and, BitVec.getLsbD_not, BitVec.getLsbD_shiftLeft, hm, hk, decide_true, Bool.true_and]
  by_cases h1 : k < d.shift p
  · have h2 : ¬ d.shift p ≤ k := by omega
    simp [h1, h2]
  · by_cases h2 : k - d.shift p < d.width.bits
    · have h3 : d.shift p ≤ k ∧ k < d.shift p + d.width.bits := by omega
      simp [h1, h2, h3]
    · have h3 : ¬ (d.shift p ≤ k ∧ k < d.shift p + d.width.bits) := by omega
      simp [h1, h2, h3]

/-- A view, bit by bit (41_register_file.md R186). -/
theorem view_bit (s : State) (d : Descriptor) (k : Nat) : (s.view d).getLsbD k = (decide (k < d.width.bits) && (s.slots.get d.slot).getLsbD (d.shift s.params + k)) := by
  have hm : ∀ k, d.mask.getLsbD k = decide (k < d.width.bits) := fun k => mask_bit d.width k
  simp only [State.view, BitVec.getLsbD_and, BitVec.getLsbD_ushiftRight, hm]
  rw [Bool.and_comm]

/-- A masked flag write, bit by bit (43_host_interface.md R251). -/
theorem setMasked_bit (f : BitVec 32) (i : Fin 32) (b : Bool) (k : Nat) (hk : k < 32) :
    (setMasked f (flagMask i) b).getLsbD k = if k = i.val then b else f.getLsbD k := by
  have hm : (flagMask i).getLsbD k = decide (k = i.val) := by
    simp only [flagMask, BitVec.getLsbD_ofNat, hk, decide_true, Bool.true_and, Nat.testBit_two_pow]
    simp [eq_comm]
  cases b <;> simp only [setMasked, if_true, if_false, Bool.false_eq_true, BitVec.getLsbD_or, BitVec.getLsbD_and, BitVec.getLsbD_not, hm, hk]
  · by_cases h : k = i.val <;> simp [h]
  · by_cases h : k = i.val <;> simp [h]

end Sys2Proof.Machine
end

