-- ==== Sys2Proof/Laws/Units.lean ====
section
/-! SUPPORT. What the operand fetches, the units and the dispatch chain can do, each said once. -/

namespace Sys2Proof.Machine

open Sys2Proof

/-! ## Operands -/

theorem readAddrReg_steps (f : RegId) (e : Bool) : Steps (readAddrReg f e) :=
  Steps.withState fun _ => regRead_steps _

theorem readDisp_steps (off : Nat) (mod : Fin 4) : Steps (readDisp off mod) :=
  Steps.ite (Steps.pure _) (codeRead_steps _ _)

theorem resolve_steps (mod : Fin 4) (reg rm : RegId) : Steps (resolve mod reg rm) := by
  refine Steps.withState fun s => Steps.ite (Steps.raise _) (Steps.ite ?_ (Steps.ite ?_ ?_))
  · exact (codeRead_steps _ _).bind fun _ => (readAddrReg_steps _ _).bind fun _ => (readAddrReg_steps _ _).bind
      fun _ => (readDisp_steps _ _).bind fun _ => Steps.pure _
  · exact (codeRead_steps _ _).bind fun _ => Steps.pure _
  · exact (readAddrReg_steps _ _).bind fun _ => (readDisp_steps _ _).bind fun _ => Steps.pure _

theorem evalMem_steps (m : MemOperand) : Steps (evalMem m) := by
  refine Steps.withState fun s => ?_
  cases m with
  | direct base d => exact (readAddrReg_steps _ _).bind fun _ => Steps.pure _
  | sib sc i b d => exact (readAddrReg_steps _ _).bind fun _ => (readAddrReg_steps _ _).bind fun _ => Steps.pure _
  | rip d => exact Steps.pure _

theorem fetchModRM_steps : Steps fetchModRM := by
  refine Steps.withState fun s => (codeRead_steps _ _).bind fun bs => (skip_steps 2).bind fun _ => Steps.ite ?_ ?_
  · exact Steps.pure _
  · exact (resolve_steps _ _ _).bind fun a => (skip_steps _).bind fun _ => Steps.pure _

theorem fetchOperand_steps (reg : RegId) (rm : RmOperand) : Steps (fetchOperand reg rm) := by
  refine (skip_steps 2).bind fun _ => ?_
  cases rm with
  | reg r => exact Steps.pure _
  | mem m => exact (evalMem_steps m).bind fun a => (skip_steps _).bind fun _ => Steps.pure _

theorem fetchImm_steps (n : Nat) : Steps (fetchImm n) :=
  Steps.withState fun _ => (codeRead_steps _ _).bind fun _ => Steps.pure _

theorem load_steps (ea : Int) (w : Width) : Steps (load ea w) :=
  (memRead_steps _ _).bind fun _ => Steps.ite (Steps.pure _) (Steps.refuse _)

theorem store_steps (ea : Int) (w : Width) (v : Word) : Steps (store ea w v) := memWrite_steps _ _

theorem readLoc_steps (l : Loc) (w : Width) : Steps (readLoc l w) := by
  refine Steps.withState fun s => ?_
  cases l with
  | reg r => exact regRead_steps _
  | mem ea => exact load_steps _ _

theorem writeLoc_steps (l : Loc) (w : Width) (v : Word) : Steps (writeLoc l w v) := by
  refine Steps.withState fun s => ?_
  cases l with
  | reg r => exact regWrite_steps _ _
  | mem ea => exact store_steps _ _ _

theorem readReg_steps (f : RegId) (w : Width) : Steps (readReg f w) := Steps.withState fun _ => regRead_steps _
theorem writeReg_steps (f : RegId) (w : Width) (v : Word) : Steps (writeReg f w v) :=
  Steps.withState fun _ => regWrite_steps _ _
theorem writeOpReg_steps (f : RegId) (w : Width) (v : Word) : Steps (writeOpReg f w v) :=
  Steps.withState fun _ => regWrite_steps _ _

/-! ## Reference units -/

theorem nopBody_steps : Steps nopBody := Steps.withState fun _ => Steps.ite (Steps.throw _) (skip_steps 1)

theorem xorRmRBody_steps {f : UnitM Fetched} (hf : Steps f) : Steps (xorRmRBody f) :=
  Steps.withState fun _ => hf.bind fun _ => (readReg_steps _ _).bind fun _ => (readLoc_steps _ _).bind fun _ =>
    (writeLoc_steps _ _ _).bind fun _ => setLogicFlags_steps _ _

theorem xorRRmBody_steps {f : UnitM Fetched} (hf : Steps f) : Steps (xorRRmBody f) :=
  Steps.withState fun _ => hf.bind fun _ => (readLoc_steps _ _).bind fun _ => (readReg_steps _ _).bind fun _ =>
    (writeReg_steps _ _ _).bind fun _ => setLogicFlags_steps _ _

theorem moveToRm_steps {f : UnitM Fetched} (hf : Steps f) (w : Width) : Steps (moveToRm w f) :=
  hf.bind fun _ => (readReg_steps _ _).bind fun _ => writeLoc_steps _ _ _

theorem moveToReg_steps {f : UnitM Fetched} (hf : Steps f) (w : Width) : Steps (moveToReg w f) :=
  hf.bind fun _ => (readLoc_steps _ _).bind fun _ => writeReg_steps _ _ _

theorem movRm8R8Body_steps {f : UnitM Fetched} (hf : Steps f) : Steps (movRm8R8Body f) := moveToRm_steps hf _
theorem movRmRBody_steps {f : UnitM Fetched} (hf : Steps f) : Steps (movRmRBody f) :=
  Steps.withState fun _ => moveToRm_steps hf _
theorem movR8Rm8Body_steps {f : UnitM Fetched} (hf : Steps f) : Steps (movR8Rm8Body f) := moveToReg_steps hf _
theorem movRRmBody_steps {f : UnitM Fetched} (hf : Steps f) : Steps (movRRmBody f) :=
  Steps.withState fun _ => moveToReg_steps hf _

theorem movR8Imm8Body_steps (r : RegId) {f : UnitM Word} (hf : Steps f) : Steps (movR8Imm8Body r f) :=
  hf.bind fun _ => (writeOpReg_steps _ _ _).bind fun _ => skip_steps 2

theorem movRImmBody_steps (r : RegId) {f : Nat → UnitM Word} (hf : ∀ n, Steps (f n)) : Steps (movRImmBody r f) :=
  Steps.withState fun _ => (hf _).bind fun _ => (writeOpReg_steps _ _ _).bind fun _ => skip_steps _

theorem leaBody_steps {f : UnitM Fetched} (hf : Steps f) : Steps (leaBody f) := by
  refine Steps.withState fun s => hf.bind fun o => ?_
  split
  · exact Steps.throw _
  · exact writeReg_steps _ _ _

theorem pushValue_steps (w : Width) (v : Word) : Steps (pushValue w v) :=
  Steps.withState fun _ => (regRead_steps _).bind fun _ => (store_steps _ _ _).bind fun _ => regWrite_steps _ _

theorem pushBody_steps (r : RegId) : Steps (pushBody r) :=
  Steps.withState fun _ => (regRead_steps _).bind fun _ => (pushValue_steps _ _).bind fun _ => skip_steps 1

theorem popBody_steps (r : RegId) : Steps (popBody r) :=
  Steps.withState fun _ => (regRead_steps _).bind fun _ => (load_steps _ _).bind fun _ =>
    (regWrite_steps _ _).bind fun _ => (writeOpReg_steps _ _ _).bind fun _ => skip_steps 1

theorem callBody_steps {f : UnitM Word} (hf : Steps f) : Steps (callBody f) :=
  Steps.withState fun _ => Steps.ite (Steps.throw _)
    (hf.bind fun _ => (pushValue_steps _ _).bind fun _ => setIp_steps _)

/-- REF's callback for any effective opcode. -/
theorem refCallback_steps (op : Nat) : Steps (refCallback op) := by
  unfold refCallback
  split
  · exact Steps.throw _
  · exact nopBody_steps
  · exact xorRmRBody_steps fetchModRM_steps
  · exact xorRRmBody_steps fetchModRM_steps
  · exact movRm8R8Body_steps fetchModRM_steps
  · exact movRmRBody_steps fetchModRM_steps
  · exact movR8Rm8Body_steps fetchModRM_steps
  · exact movRRmBody_steps fetchModRM_steps
  · exact movR8Imm8Body_steps _ (fetchImm_steps _)
  · exact movRImmBody_steps _ fetchImm_steps
  · exact pushBody_steps _
  · exact popBody_steps _
  · exact leaBody_steps fetchModRM_steps
  · exact callBody_steps (fetchImm_steps _)

/-! ## Units of the host -/

theorem runAction_steps (a : UnitAction) : Steps (runAction a) := by
  cases a with
  | setIp t => exact setIp_steps t
  | advanceIp n => exact Steps.withState fun _ => setIp_steps _
  | readRegister d => exact (regRead_steps d).bind fun _ => Steps.pure _
  | writeRegister d v => exact regWrite_steps _ _
  | getFlag m => exact (getFlag_steps m).bind fun _ => Steps.pure _
  | setFlag m b => exact setFlag_steps m b
  | readStack a n => exact (memRead_steps a n).bind fun _ => Steps.pure _
  | writeStack a bs => exact memWrite_steps a bs
  | clearStack a n => exact memClear_steps a n
  | readCode off n => exact (codeRead_steps off n).bind fun _ => Steps.pure _
  | resolve mod reg rm => exact (resolve_steps mod reg rm).bind fun _ => Steps.pure _

theorem runActions_steps (as : List UnitAction) : Steps (runActions as) := by
  induction as with
  | nil => exact Steps.pure _
  | cons a as ih => exact (runAction_steps a).bind fun _ => ih

theorem runVerdict_steps (v : Verdict) : Steps (runVerdict v) := by
  cases v with
  | accept => exact Steps.pure _
  | decline => exact Steps.throw _
  | fatal e => exact Steps.raise _
  | nonBoolean => exact Steps.raise _

/-- A callback of the host's, whatever its code answers. -/
theorem runCallback_steps (op : Nat) (c : Callback) : Steps (runCallback op c) := by
  cases c with
  | script as v => exact (runActions_steps as).bind fun _ => runVerdict_steps v
  | hostUnit id => exact Steps.withState fun s => (runActions_steps _).bind fun _ => runVerdict_steps _

theorem callbackOf_steps {op : Nat} {ref : UnitM Unit} (hr : Steps ref) {u : UnitRecord} {m : UnitM Unit}
    (h : callbackOf op ref u = some m) : Steps m := by
  cases u with
  | ref =>
    simp only [callbackOf] at h
    split at h
    · cases h; exact hr
    · cases h
  | host id map =>
    simp only [callbackOf, Option.map_eq_some_iff] at h
    obtain ⟨e, -, rfl⟩ := h
    exact runCallback_steps _ _

/-! ## The dispatch chain -/

/-- What a state after a dispatch can be: the latches and the fault record aside, the changes of a unit. -/
structure DispatchStep (s t : State) : Prop where
  configuration : SameConfiguration s t
  latches : t.latches = s.latches ∨ t.latches = .clear
  canonical : s.stack.canonical = true → t.stack.canonical = true
  fits : s.stack.canonical = true → s.stack.fits = true → t.stack.fits = true
  slots : slotsFit s.mode s.slots = true → slotsFit s.mode t.slots = true

theorem UnitStep.clearLatches {s t : State} (h : UnitStep s t) : DispatchStep s t.clearLatches :=
  ⟨h.configuration, Or.inr rfl, h.canonical, h.fits, h.slots⟩

theorem UnitStep.takeFatal {s t : State} (h : UnitStep s t) (e : FatalError) : DispatchStep s (t.takeFatal e) := by
  obtain ⟨⟨a1, a2, a3, a4, a5, a6, a7, a8, a9⟩, b, -, d, e', f⟩ := h
  exact ⟨⟨by simpa using a1, by simpa using a2, by simpa using a3, by simpa using a4, by simpa using a5,
    by simpa using a6, by simpa using a7, by simpa using a8, by simpa using a9⟩, Or.inl (by simpa using b),
    by simpa using d, by simpa using e', by simpa using f⟩

/-- What the answer of a computation comes from. -/
theorem answerOf_cases {m : UnitM Unit} (hm : Steps m) (s : State) :
    (∃ t, answerOf m s = .accept t ∧ UnitStep s t) ∨ answerOf m s = .decline ∨
      (∃ e t, answerOf m s = .fatal e t ∧ UnitStep s t) ∨ ∃ r, answerOf m s = .refused r := by
  have h := hm s
  unfold answerOf
  cases hms : m s with
  | ok a t => rw [hms] at h; exact Or.inl ⟨t, rfl, h⟩
  | error e t =>
    rw [hms] at h
    cases e with
    | fatal e => exact Or.inr (Or.inr (Or.inl ⟨e, t, rfl, h⟩))
    | decline => exact Or.inr (Or.inl rfl)
    | refuse r => exact Or.inr (Or.inr (Or.inr ⟨r, rfl⟩))

/-- A walk along the chain answers a next state or a refusal, and a next state makes only the changes of a dispatch. -/
theorem walk_cases {op : Nat} {ref : UnitM Unit} (hr : Steps ref) (s : State) (us : List UnitRecord) :
    (∃ t, walk op ref s us = .next t ∧ DispatchStep s t) ∨ ∃ r, walk op ref s us = .refused r := by
  induction us with
  | nil => exact Or.inl ⟨_, rfl, (UnitStep.refl s).takeFatal _⟩
  | cons u us ih =>
    rw [walk]
    cases hc : callbackOf op ref u with
    | none => exact ih
    | some m =>
      rcases answerOf_cases (callbackOf_steps hr hc) s with ⟨t, h, hs⟩ | h | ⟨e, t, h, hs⟩ | ⟨r, h⟩
      · simp only [h]; exact Or.inl ⟨_, rfl, hs.clearLatches⟩
      · simp only [h]; exact ih
      · simp only [h]; exact Or.inl ⟨_, rfl, hs.takeFatal e⟩
      · simp only [h]; exact Or.inr ⟨r, rfl⟩

/-- A record that lets an effective opcode pass hands it to the next one. -/
theorem walk_pass {op : Nat} {ref : UnitM Unit} {s : State} {u : UnitRecord} (h : Passes op s u)
    (us : List UnitRecord) : walk op ref s (u :: us) = walk op ref s us := by
  cases u with
  | ref => exact absurd h (by simp [Passes])
  | host id map =>
    simp only [Passes] at h
    rw [walk]
    simp only [callbackOf]
    cases hf : map.find? fun e => e.1 == op with
    | none => rfl
    | some e =>
      rw [hf] at h
      simp only [Option.map_some, h]

/-- Records that let an effective opcode pass hand it to the first one behind them. -/
theorem walk_front {op : Nat} {ref : UnitM Unit} {s : State} {front : List UnitRecord}
    (h : ∀ u ∈ front, Passes op s u) (us : List UnitRecord) : walk op ref s (front ++ us) = walk op ref s us := by
  induction front with
  | nil => rfl
  | cons u front ih =>
    rw [List.cons_append, walk_pass (h u (by simp))]
    exact ih fun v hv => h v (by simp [hv])

/-- Where REF is asked for a key of its map and accepts, the dispatch is its effect with the latches cleared. -/
theorem dispatch_accept {op : Nat} {ref : UnitM Unit} {s t : State} (hk : (refRow op).isSome = true)
    (ha : RefAsked op s) (h : ref s = .ok ⟨⟩ t) : dispatch op ref s = .next t.clearLatches := by
  obtain ⟨front, back, hu, hp⟩ := ha
  rw [dispatch, hu, walk_front hp, walk]
  simp only [callbackOf, hk, if_true, answerOf, h]

/-- Where REF is asked for a key of its map and raises, the dispatch takes the fatal error in the state it left. -/
theorem dispatch_fatal {op : Nat} {ref : UnitM Unit} {s t : State} {e : FatalError}
    (hk : (refRow op).isSome = true) (ha : RefAsked op s) (h : ref s = .error (.fatal e) t) :
    dispatch op ref s = .next (t.takeFatal e) := by
  obtain ⟨front, back, hu, hp⟩ := ha
  rw [dispatch, hu, walk_front hp, walk]
  simp only [callbackOf, hk, if_true, answerOf, h]

/-- Where REF is asked for a key of its map and refuses, the dispatch refuses. -/
theorem dispatch_refuse {op : Nat} {ref : UnitM Unit} {s t : State} {r : Refusal}
    (hk : (refRow op).isSome = true) (ha : RefAsked op s) (h : ref s = .error (.refuse r) t) :
    dispatch op ref s = .refused r := by
  obtain ⟨front, back, hu, hp⟩ := ha
  rw [dispatch, hu, walk_front hp, walk]
  simp only [callbackOf, hk, if_true, answerOf, h]

/-- Where REF declines and nothing behind it answers, the opcode is invalid. -/
theorem dispatch_decline {op : Nat} {ref : UnitM Unit} {s t : State} (ha : RefLast op s)
    (h : ref s = .error .decline t) :
    dispatch op ref s = .next (s.takeFatal (.invalidOpcode op (s.addressBase + s.ip))) := by
  obtain ⟨front, back, hu, hp, hb⟩ := ha
  have hd : answerOf ref s = .decline := by simp [answerOf, h]
  have hr : ∀ us, walk op ref s (.ref :: us) = walk op ref s us := by
    intro us
    rw [walk]
    by_cases hk : (refRow op).isSome = true
    · simp only [callbackOf, hk, if_true, hd]
    · simp only [callbackOf, hk, if_neg, Bool.false_eq_true, not_false_iff]
  rw [dispatch, hu, walk_front hp, hr]
  clear hu
  induction back with
  | nil => rfl
  | cons u back ih =>
    rcases hb u (by simp) with rfl | hu'
    · rw [hr]; exact ih fun v hv => hb v (by simp [hv])
    · rw [walk_pass hu']; exact ih fun v hv => hb v (by simp [hv])

end Sys2Proof.Machine
end

