-- ==== Sys2Proof/Laws/Eval.lean ====
section
/-! SUPPORT. What the operations that a unit's body is made of answer where the mode, the latches and the stack admit
them: each says the value and the state once. -/

namespace Sys2Proof.Machine

open Sys2Proof

/-! ## Registers -/

/-- A register operand is read where the latches are legal and the width fits (41_register_file.md R186). -/
theorem readReg_ok {s : State} (h : latchesLegal s.mode s.latches = true) {w : Width} (hw : w.bits ≤ s.mode.maxWidth) (f : RegId) :
    readReg f w s = .ok (s.view (s.regD f w)) s := by
  rw [readReg, bind_get, regRead_eq (regOp_exists h _ _ _) (regOp_fits s _ _ hw)]; rfl

/-- The `reg` operand is written (41_register_file.md R187). -/
theorem writeReg_ok {s : State} (h : latchesLegal s.mode s.latches = true) {w : Width} (hw : w.bits ≤ s.mode.maxWidth) (f : RegId) (v) :
    writeReg f w v s = .ok ⟨⟩ (s.putView (s.regD f w) v) := by
  rw [writeReg, bind_get, regWrite_eq (regOp_exists h _ _ _) (regOp_fits s _ _ hw)]; rfl

/-- The register in the opcode is written (41_register_file.md R187). -/
theorem writeOpReg_ok {s : State} (h : latchesLegal s.mode s.latches = true) {w : Width} (hw : w.bits ≤ s.mode.maxWidth) (f : RegId) (v) :
    writeOpReg f w v s = .ok ⟨⟩ (s.putView (s.rmD f w) v) := by
  rw [writeOpReg, bind_get, regWrite_eq (regOp_exists h _ _ _) (regOp_fits s _ _ hw)]; rfl

/-- A register-direct operand is read. -/
theorem readLoc_reg {s : State} (h : latchesLegal s.mode s.latches = true) {w : Width} (hw : w.bits ≤ s.mode.maxWidth) (f : RegId) :
    readLoc (.reg f) w s = .ok (s.view (s.rmD f w)) s := by
  rw [readLoc, bind_get]; exact regRead_eq (regOp_exists h _ _ _) (regOp_fits s _ _ hw)

/-- A register-direct operand is written. -/
theorem writeLoc_reg {s : State} (h : latchesLegal s.mode s.latches = true) {w : Width} (hw : w.bits ≤ s.mode.maxWidth) (f : RegId) (v) :
    writeLoc (.reg f) w v s = .ok ⟨⟩ (s.putView (s.rmD f w) v) := by
  rw [writeLoc, bind_get]; exact regWrite_eq (regOp_exists h _ _ _) (regOp_fits s _ _ hw) v

/-! ## Operands -/

/-- Fetching a register-direct operand moves ip past the ModRM byte (45_reference_units.md R289). -/
theorem fetch_reg (s : State) (reg r) : fetchOperand reg (.reg r) s = .ok ⟨reg, .reg r⟩ (s.withIp (s.ip + 2)) := by
  rw [fetchOperand, bind_of_ok (skip_apply 2 s)]; rfl

theorem w8_fits (s : State) : Width.bits .w8 ≤ s.mode.maxWidth := by cases s.mode <;> decide

theorem op_fits (s : State) : s.opSize.bits ≤ s.mode.maxWidth := opWidth_fits s.ctx

/-- A base or index register is read at the mode's width (42_address_resolver.md R219). -/
theorem addrReg_ok {s : State} (h : latchesLegal s.mode s.latches = true) (f e) :
   readAddrReg f e s = .ok (s.view (s.regOp f e s.mode.addrWidth)) s := by
  rw [readAddrReg, bind_get, regRead_eq (regOp_exists h _ _ _) (regOp_fits s _ _ (by rw [addrWidth_bits]))]

/-- Fetching a memory operand moves ip past its bytes and gives the effective address (45_reference_units.md R289). -/
theorem fetch_mem {s : State} (h : latchesLegal s.mode s.latches = true) (reg m) :
    fetchOperand reg (.mem m) s = .ok ⟨reg, .mem (s.effAddr m)⟩ (s.withIp (s.ip + 2 + memLen m)) := by
  rw [fetchOperand, bind_of_ok (skip_apply 2 s)]
  cases m with
  | direct b d => 
    have : evalMem (.direct b d) (s.withIp (s.ip+2)) = .ok (.direct (s.view (s.regOp b s.latches.rexB s.mode.addrWidth)) (dispValue d) (dispLen d)) (s.withIp (s.ip+2)) := by
      rw [evalMem, bind_get]; dsimp only
      rw [bind_of_ok (addrReg_ok (s := s.withIp (s.ip+2)) h _ _)]; rfl
    show (evalMem _ >>= _) (s.withIp (s.ip+2)) = _
    rw [bind_of_ok this, bind_of_ok (skip_apply _ _)]
    simp [AddrResult.address, AddrResult.consumed, State.effAddr, State.addrReg, memLen]
  | sib sc i b d => 
    have : evalMem (.sib sc i b d) (s.withIp (s.ip+2)) = .ok (.sib (2^sc.val) (s.view (s.regOp i s.latches.rexX s.mode.addrWidth)) (s.view (s.regOp b s.latches.rexB s.mode.addrWidth)) (dispValue d) (dispLen d)) (s.withIp (s.ip+2)) := by
      rw [evalMem, bind_get]; dsimp only
      rw [bind_of_ok (addrReg_ok (s := s.withIp (s.ip+2)) h _ _), bind_of_ok (addrReg_ok (s := s.withIp (s.ip+2)) h _ _)]; rfl
    show (evalMem _ >>= _) (s.withIp (s.ip+2)) = _
    rw [bind_of_ok this, bind_of_ok (skip_apply _ _)]
    simp [AddrResult.address, AddrResult.consumed, State.effAddr, State.addrReg, memLen]
  | rip d => 
    have : evalMem (.rip d) (s.withIp (s.ip+2)) = .ok (.rip (s.ip+2) d.toInt) (s.withIp (s.ip+2)) := rfl
    show (evalMem _ >>= _) (s.withIp (s.ip+2)) = _
    rw [bind_of_ok this, bind_of_ok (skip_apply _ _)]
    simp [AddrResult.address, AddrResult.consumed, State.effAddr, memLen]

/-! ## The stack -/

theorem bytes_pos (w : Width) : w.bytes ≠ 0 := by cases w <;> decide

/-- A read that can be served gives the bytes at rising addresses (20_memory.md R69, R70). -/
theorem read_ok {st : Stack} {a : Int} {n : Nat} (h : Readable st a n) :
    st.read a n = .ok ((List.range n).map fun (j : Nat) => loadedByte st (a + (j : Int))) := by
  by_cases hp : st.policy = .null
  · simp [Stack.read, hp, loadedByte, List.map_const']
  · have hr : st.strictRead a n = .ok ((List.range n).map fun (j : Nat) => loadedByte st (a + (j : Int))) := by
      rcases h with h | ⟨h1, h2⟩
      · exact absurd h hp
      · have : ¬ st.top < a + n - 1 := by omega
        have h3 : ¬ st.off a < 0 := by simp only [Stack.off]; omega
        simp only [Stack.strictRead, this, h3, if_false]
        congr 1
        apply List.map_congr_left
        intro j hj
        rw [List.mem_range] at hj
        have : st.top - st.len < a + j ∧ a + j ≤ st.top := by omega
        simp [loadedByte, hp, Stack.byteAt, this]
    cases hq : st.policy with
    | strict => simp [Stack.read, hq, hr]
    | forgiving => simp [Stack.read, hq, hr]
    | null => exact absurd hq hp

/-- A load that can be served gives the little-endian value (45_reference_units.md R287). -/
theorem load_ok {s : State} {a : Int} {w : Width} (h : Readable s.stack a w.bytes) :
    load a w s = .ok (loadedValue s.stack a w) s := by
  rw [load, bind_of_ok (memRead_eq (bytes_pos w) (read_ok h))]
  simp [loadedValue]

theorem bytesLe_length (v n : Nat) : (bytesLe v n).length = n := by
  induction n generalizing v with
  | zero => rfl
  | succ n ih => simp [bytesLe, ih]

/-- An occupied address holds a byte. -/
theorem byteAt_inside {st : Stack} {x : Int} (h1 : st.top - st.len < x) (h2 : x ≤ st.top) :
    st.byteAt x = some (Memory.get st.mem (st.depth x)) := if_pos ⟨h1, h2⟩

/-- An address outside the occupied interval holds none. -/
theorem byteAt_outside {st : Stack} {x : Int} (h : x ≤ st.top - st.len ∨ st.top < x) : st.byteAt x = none :=
  if_neg (by omega)

/-- A strict write that is done leaves what `Stored` says (20_memory.md R76, R77). -/
theorem stored_of_strict {st st' : Stack} {a : Int} {bs : List Byte} (hn : bs ≠ []) (hc : st.canonical = true)
    (hd : ¬ Dropped st a bs.length) (h : st.strictWrite a bs = .ok st') : Stored st a bs st' := by
  obtain ⟨h1, h2, h3, h4, h5, h6⟩ := Stack.strictWrite_ok h
  have hpos : 0 < bs.length := List.length_pos_iff.2 hn
  rw [Stack.canonical_iff] at hc
  have hlen : (st'.len : Int) = max (st.len : Int) (st.top - a + 1) := by
    rcases h6 with ⟨h6, h7⟩ | ⟨h6, h7, h8⟩ <;> simp only [Stack.off, Stack.depth] at * <;> omega
  refine ⟨h2, h3, h4, fun hd' => absurd hd' hd, fun _ => ⟨hlen, fun x => ?_⟩⟩
  have hdep : st'.depth x = st.depth x := by simp [Stack.depth, h2]
  have hgw := Memory.get_writeDown hc.1 (st.depth a) bs (by simp only [Stack.depth]; omega) (st.depth x)
  rw [← h5] at hgw
  have hda : (st.depth a : Int) = st.top - a := by simp only [Stack.depth]; omega
  have hoff : st.off a = a - (st.top - st.len) - 1 := rfl
  by_cases hx : x ≤ st.top
  · have hdx : (st.depth x : Int) = st.top - x := by simp only [Stack.depth]; omega
    by_cases hin : a ≤ x ∧ x < a + bs.length
    · rw [if_pos hin, byteAt_inside (by omega) (by omega), hdep, hgw, if_pos (by omega)]
      have he : st.depth a - st.depth x = (x - a).toNat := by omega
      have hl : (x - a).toNat < bs.length := by omega
      simp [he, hl]
    · rw [if_neg hin]
      by_cases hold : st.top - st.len < x
      · rw [byteAt_inside (st := st') (by omega) (by omega), byteAt_inside hold hx, hdep, hgw, if_neg (by omega)]
        simp
      · rw [byteAt_outside (st := st) (by omega)]
        by_cases hg : a < x
        · rw [byteAt_inside (st := st') (by omega) (by omega), hdep, hgw, if_neg (by omega),
            Memory.get_of_bound_le hc.1 (by omega)]
          simp [hg, hx]
        · rw [byteAt_outside (by omega)]
          simp [hg]
  · rw [if_neg (by omega), byteAt_outside (st := st) (by omega), byteAt_outside (by omega)]
    simp [hx]

/-- A write that raises nothing leaves what `Stored` says (20_memory.md R71). -/
theorem write_ok {st : Stack} {a : Int} {bs : List Byte} (hn : bs ≠ []) (hc : st.canonical = true) (h : Writable st a bs.length) :
    ∃ st', st.write a bs = .ok st' ∧ Stored st a bs st' := by
  by_cases hd : Dropped st a bs.length
  · refine ⟨st, ?_, rfl, rfl, rfl, fun _ => rfl, fun h => absurd hd h⟩
    rcases hd with hp | ⟨hp, hx⟩
    · simp [Stack.write, hp]
    · simp [Stack.write, hp, Stack.strictWrite, hx, absorbed]
  · obtain ⟨h1, h2⟩ := h.resolve_left hd
    have : ∃ st', st.strictWrite a bs = .ok st' := by
      have h3 : ¬ st.top < a + bs.length - 1 := by omega
      by_cases ho : 0 ≤ st.off a
      · simp only [Stack.strictWrite, h3, ho, if_true, if_false]; exact ⟨_, rfl⟩
      · have h4 : ¬ (st.max : Int) < st.top - a + 1 := by simp only [Stack.off] at ho; omega
        simp only [Stack.strictWrite, h3, ho, h4, if_false]; exact ⟨_, rfl⟩
    obtain ⟨st', hs⟩ := this
    refine ⟨st', ?_, stored_of_strict hn hc hd hs⟩
    cases hp : st.policy with
    | strict => simp [Stack.write, hp, hs]
    | forgiving => simp [Stack.write, hp, hs]
    | null => exact absurd (Or.inl hp) hd

/-- A store that raises nothing leaves what `Stored` says (45_reference_units.md R287). -/
theorem store_ok {s : State} {a : Int} {w : Width} {v : Word} (hc : s.stack.canonical = true) (h : Writable s.stack a w.bytes) :
    ∃ st', Stored s.stack a (bytesLe v.toNat w.bytes) st' ∧ store a w v s = .ok ⟨⟩ (s.withStack st') := by
  have hn : bytesLe v.toNat w.bytes ≠ [] := by
    intro h; have := bytesLe_length v.toNat w.bytes; rw [h] at this; exact bytes_pos w this.symm
  obtain ⟨st', h1, h2⟩ := write_ok hn hc (by rwa [bytesLe_length])
  exact ⟨st', h2, memWrite_eq hn h1⟩

/-- A memory operand is read. -/
theorem readLoc_mem {s : State} {a : Int} {w : Width} (h : Readable s.stack a w.bytes) :
    readLoc (.mem a) w s = .ok (loadedValue s.stack a w) s := load_ok h

/-- A memory operand is written. -/
theorem writeLoc_mem {s : State} {a : Int} {w : Width} {v : Word} (hc : s.stack.canonical = true) (h : Writable s.stack a w.bytes) :
    ∃ st', Stored s.stack a (bytesLe v.toNat w.bytes) st' ∧ writeLoc (.mem a) w v s = .ok ⟨⟩ (s.withStack st') := store_ok hc h

/-- What can be read can be written. -/
theorem writable_of_readable {st : Stack} {a : Int} {n : Nat} (h : Readable st a n) : Writable st a n := by
  rcases h with h | ⟨h1, h2⟩
  · exact Or.inl (Or.inl h)
  · exact Or.inr ⟨h2, Or.inl h1⟩

/-- The stack pointer is read in every mode. -/
theorem spReg_read (s : State) : regRead s.spReg s = .ok (s.view s.spReg) s := regRead_eq (spReg_exists s) (spReg_fits s)

/-- The stack pointer is written in every mode. -/
theorem spReg_write (s : State) (v) : regWrite s.spReg v s = .ok ⟨⟩ (s.putView s.spReg v) := regWrite_eq (spReg_exists s) (spReg_fits s) v

/-- A strict read that cannot be served: above the top first, else below the written bytes (20_memory.md R68). -/
theorem strictRead_stopped {st : Stack} {a : Int} {n : Nat} (h : ¬ Readable st a n) : st.strictRead a n =
    .error (if st.top < a + n - 1 then .stackUnderflow a n else .stackIndex a n) := by
  have hr : ¬ (st.top - st.len < a ∧ a + n - 1 ≤ st.top) := fun h' => h (Or.inr h')
  have : st.off a = a - (st.top - st.len) - 1 := rfl
  unfold Stack.strictRead
  split_ifs <;> first | rfl | omega

/-- Under Strict a load that cannot be served raises the read's error (45_reference_units.md R287). -/
theorem load_strict_stopped {s : State} {a : Int} {w : Width} (hp : s.stack.policy = .strict)
    (h : ¬ Readable s.stack a w.bytes) : load a w s = .error (.fatal
      (if s.stack.top < a + w.bytes - 1 then .stackUnderflow a w.bytes else .stackIndex a w.bytes)) s := by
  rw [load]
  exact bind_of_error (memRead_error (bytes_pos w) (by rw [Stack.read, hp]; exact strictRead_stopped h))

/-- Under Forgiving a load that cannot be served is refused (45_reference_units.md R287, D34). -/
theorem load_forgiving_stopped {s : State} {a : Int} {w : Width} (hp : s.stack.policy = .forgiving)
    (h : ¬ Readable s.stack a w.bytes) : load a w s = .error (.refuse .emptyLoad) s := by
  have hr : s.stack.read a w.bytes = .ok [] := by
    simp only [Stack.read, hp, strictRead_stopped h]
    split_ifs <;> simp_all [absorbed]
  have : ¬ ([] : List Byte).length = w.bytes := fun h => bytes_pos w h.symm
  rw [load, bind_of_ok (memRead_eq (bytes_pos w) hr), if_neg this]; rfl

/-- A store that is neither done nor dropped raises: above the top first, else beyond STACK_MAX (20_memory.md R71,
R77). -/
theorem store_stopped {s : State} {a : Int} {w : Width} (v : Word) (h : ¬ Writable s.stack a w.bytes) :
    store a w v s = .error (.fatal
      (if s.stack.top < a + w.bytes - 1 then .stackUnderflow a w.bytes else .stackOverflow a w.bytes)) s := by
  have hd : ¬ Dropped s.stack a w.bytes := fun h' => h (Or.inl h')
  have hw : ¬ (a + w.bytes - 1 ≤ s.stack.top ∧ (s.stack.top - s.stack.len < a ∨ s.stack.top - a + 1 ≤ s.stack.max)) :=
    fun h' => h (Or.inr h')
  have hl : (bytesLe v.toNat w.bytes).length = w.bytes := bytesLe_length _ _
  have hne : bytesLe v.toNat w.bytes ≠ [] := by
    intro h'; rw [h'] at hl; exact bytes_pos w hl.symm
  have hs : s.stack.strictWrite a (bytesLe v.toNat w.bytes) = .error
      (if s.stack.top < a + w.bytes - 1 then .stackUnderflow a w.bytes else .stackOverflow a w.bytes) := by
    have : s.stack.off a = a - (s.stack.top - s.stack.len) - 1 := rfl
    unfold Stack.strictWrite
    rw [hl]
    split_ifs <;> first | rfl | omega
  refine memWrite_error hne ?_
  cases hp : s.stack.policy with
  | null => exact absurd (Or.inl hp) hd
  | strict => simp only [Stack.write, hp, hs]
  | forgiving =>
    have : ¬ s.stack.top < a + w.bytes - 1 := fun h' => hd (Or.inr ⟨hp, h'⟩)
    simp only [Stack.write, hp, hs, if_neg this, absorbed]; rfl

/-- A push that the stack takes stores the value and then moves the stack pointer (45_reference_units.md R281). -/
theorem pushValue_ok {s : State} {w : Width} {v : Word} (hc : s.stack.canonical = true)
    (h : Writable s.stack (s.spAfterPush w.bytes) w.bytes) :
    ∃ st, Stored s.stack (s.spAfterPush w.bytes) (bytesLe v.toNat w.bytes) st ∧
      pushValue w v s = .ok ⟨⟩ ((s.withStack st).putView s.spReg (BitVec.ofInt 64 (s.spAfterPush w.bytes))) := by
  obtain ⟨st, h1, h2⟩ := store_ok (v := v) hc h
  refine ⟨st, h1, ?_⟩
  have : moveSp s.mode (s.view s.spReg) (-(w.bytes : Int)) = s.spAfterPush w.bytes := rfl
  rw [pushValue, bind_get, bind_of_ok (spReg_read s)]
  simp only [this]
  rw [bind_of_ok h2]
  exact spReg_write (s.withStack st) _

/-- A push that the stack does not take raises before the stack pointer is moved (45_reference_units.md R281). -/
theorem pushValue_stopped {s : State} {w : Width} (v : Word)
    (h : ¬ Writable s.stack (s.spAfterPush w.bytes) w.bytes) : pushValue w v s = .error (.fatal
      (if s.stack.top < s.spAfterPush w.bytes + w.bytes - 1 then .stackUnderflow (s.spAfterPush w.bytes) w.bytes
       else .stackOverflow (s.spAfterPush w.bytes) w.bytes)) s := by
  rw [pushValue, bind_get, bind_of_ok (spReg_read s)]
  exact bind_of_error (store_stopped v h)

/-! ## Keys of REF's map -/

theorem refRow_pushR : ∀ r : RegId, (refRow (0x050 + r.val)).isSome = true := by decide
theorem refRow_popR : ∀ r : RegId, (refRow (0x058 + r.val)).isSome = true := by decide
theorem refRow_movR8Imm8 : ∀ r : RegId, (refRow (0x0B0 + r.val)).isSome = true := by decide
theorem refRow_movRImm : ∀ r : RegId, (refRow (0x0B8 + r.val)).isSome = true := by decide

end Sys2Proof.Machine
end

