-- ==== Sys2Proof/Laws/Code.lean ====
section
/-! SUPPORT. Bytes and fields: the little-endian strings, the fields of a byte, and the code buffer read by a unit against
the same bytes read by the decoder. -/

namespace Sys2Proof.Machine

open Sys2Proof

/-! ## Byte strings and fields -/

/-- A byte is the packing of its three fields (30_encoding.md R106, R109). -/
theorem packByte_fields : ∀ b : Byte, packByte (byteHi b) (byteMid b) (byteLow b) = b := by decide

/-- The fields of a packed byte (30_encoding.md R106, R109). -/
theorem fields_packByte : ∀ (h : Fin 4) (m l : RegId), byteHi (packByte h m l) = h ∧ byteMid (packByte h m l) = m ∧
    byteLow (packByte h m l) = l := by decide

/-- The value of a little-endian string (20_memory.md R80). -/
theorem leNat_bytesLe (v n : Nat) : leNat (bytesLe v n) = v % 256 ^ n := by
  induction n generalizing v with
  | zero => simp [bytesLe, leNat, Nat.mod_one]
  | succ n ih =>
    simp only [bytesLe, leNat, ih, BitVec.toNat_ofNat]
    rw [show (2:Nat)^8 = 256 from rfl, Nat.pow_succ', ← Nat.mod_mul]

/-- A byte string's value is below 256 to its length. -/
theorem leNat_lt (bs : List Byte) : leNat bs < 256 ^ bs.length := by
  induction bs with
  | nil => simp [leNat]
  | cons b bs ih => simp only [leNat, List.length_cons, Nat.pow_succ]; have := b.isLt; omega

/-- One displacement byte, sign-extended (30_encoding.md R112). -/
theorem signedLe_8 {bs : List Byte} (h : bs.length = 1) : signedLe bs = (BitVec.ofNat 8 (leNat bs)).toInt := by
  have h3 := leNat_lt bs
  rw [h] at h3
  rw [signedLe, h, BitVec.toInt_eq_toNat_cond, BitVec.toNat_ofNat, Nat.mod_eq_of_lt (by simpa using h3)]
  split_ifs <;> omega

/-- Four displacement bytes, sign-extended (30_encoding.md R112). -/
theorem signedLe_32 {bs : List Byte} (h : bs.length = 4) : signedLe bs = (BitVec.ofNat 32 (leNat bs)).toInt := by
  have h3 := leNat_lt bs
  rw [h] at h3
  rw [signedLe, h, BitVec.toInt_eq_toNat_cond, BitVec.toNat_ofNat, Nat.mod_eq_of_lt (by simpa using h3)]
  split_ifs <;> omega

/-! ## The code buffer -/

/-- A first part that answers alike makes the whole answer alike. -/
theorem bind_same {α β : Type} {x y : UnitM α} {f : α → UnitM β} {s : State} (h : x s = y s) :
    (x >>= f) s = (y >>= f) s := by
  rw [bind_apply, bind_apply, h]

/-- A code window is the first bytes of what lies at its offset (20_memory.md R62). -/
theorem codeRead_take {s : State} {off n : Nat} {bs : List Byte} (hd : s.code.drop off = bs) (hn : n ≤ bs.length) (hn0 : n ≠ 0) :
    codeRead off n s = .ok (bs.take n) s := by
  subst hd
  rw [codeRead_eq]
  rw [List.length_drop] at hn; omega

/-- The resolver reads the displacement that the decoder read. -/
theorem decodeDisp_read {s : State} {off : Nat} {mod : Fin 4} {bs rest : List Byte} {d : Disp} (hd : s.code.drop off = bs)
    (h : decodeDisp mod bs = some (d, rest)) :
    ∃ x, readDisp off mod s = .ok x s ∧ signedLe x = dispValue d ∧ dispSizeOf mod = dispLen d := by
  match mod, h with
  | 0, h => simp only [decodeDisp, Option.some.injEq, Prod.mk.injEq] at h; obtain ⟨rfl, rfl⟩ := h; exact ⟨[], rfl, rfl, rfl⟩
  | 1, h =>
    simp only [decodeDisp, takeBytes, Option.map_eq_some_iff] at h
    obtain ⟨p, h1, h2⟩ := h
    split_ifs at h1 with hl
    cases h1; cases h2
    refine ⟨bs.take 1, ?_, ?_, rfl⟩
    · rw [readDisp, if_neg (by decide)]; exact codeRead_take hd hl (by decide)
    · exact signedLe_8 (by simp; omega)
  | 2, h =>
    simp only [decodeDisp, takeBytes, Option.map_eq_some_iff] at h
    obtain ⟨p, h1, h2⟩ := h
    split_ifs at h1 with hl
    cases h1; cases h2
    refine ⟨bs.take 4, ?_, ?_, rfl⟩
    · rw [readDisp, if_neg (by decide)]; exact codeRead_take hd hl (by decide)
    · exact signedLe_32 (by simp; omega)
  | 3, h => cases h

/-- The resolver on the code buffer does what it does with the operand the decoder read there (42_address_resolver.md R211). -/
theorem resolve_eval {s : State} {mod : Fin 4} {reg rm : RegId} {m : MemOperand} {rest : List Byte} (hm : mod ≠ 3)
    (h : decodeMem s.mode mod rm (s.code.drop s.ip) = some (m, rest)) : resolve mod reg rm s = evalMem m s := by
  rw [resolve, bind_get, if_neg hm]
  unfold decodeMem at h
  split_ifs at h ⊢ with h1 h2
  · cases hc : s.code.drop s.ip with
    | nil => rw [hc] at h; cases h
    | cons sib r =>
      rw [hc] at h
      simp only [Option.map_eq_some_iff] at h
      obtain ⟨⟨d, r'⟩, hd, he⟩ := h
      cases he
      have hb : BitVec.ofNat 8 (leNat [sib]) = sib := by simp [leNat]
      rw [bind_of_ok (codeRead_take hc (n := 1) (by simp) (by decide))]
      simp only [List.take_succ_cons, List.take_zero, hb]
      rw [evalMem, bind_get]
      dsimp only
      have hd1 : s.code.drop (s.ip+1) = r := by rw [← List.drop_drop, hc]; rfl
      obtain ⟨x, hx1, hx2, hx3⟩ := decodeDisp_read hd1 hd
      rw [bind_apply, bind_apply (readAddrReg (byteMid sib) s.latches.rexX)]
      cases hi : readAddrReg (byteMid sib) s.latches.rexX s with
      | error e t => rfl
      | ok i t =>
        have ht : t = s := by
          rw [readAddrReg, bind_get, regRead, bind_apply] at hi
          unfold checkRegister at hi
          rw [bind_get] at hi
          split_ifs at hi
          · cases hi
          · cases hi
          · cases hi; rfl
        subst ht
        dsimp only
        rw [bind_apply, bind_apply (readAddrReg (byteLow sib) t.latches.rexB)]
        cases hj : readAddrReg (byteLow sib) t.latches.rexB t with
        | error e u => rfl
        | ok j u =>
          have ht : u = t := by
            rw [readAddrReg, bind_get, regRead, bind_apply] at hj
            unfold checkRegister at hj
            rw [bind_get] at hj
            split_ifs at hj
            · cases hj
            · cases hj
            · cases hj; rfl
          subst ht
          dsimp only
          rw [bind_of_ok hx1, hx2, hx3]
  · simp only [takeBytes, Option.map_eq_some_iff] at h
    obtain ⟨p, h3, h4⟩ := h
    split_ifs at h3 with hl
    cases h3; cases h4
    rw [bind_of_ok (codeRead_take rfl hl (by decide))]
    rw [evalMem, bind_get]
    have h4 : ((s.code.drop s.ip).take 4).length = 4 := by rw [List.length_take]; omega
    have := signedLe_32 h4
    rw [this]
  · simp only [Option.map_eq_some_iff] at h
    obtain ⟨⟨d, r'⟩, hd, he⟩ := h
    cases he
    rw [evalMem, bind_get]
    dsimp only
    obtain ⟨x, hx1, hx2, hx3⟩ := decodeDisp_read rfl hd
    rw [bind_apply, bind_apply (readAddrReg rm s.latches.rexB)]
    cases hj : readAddrReg rm s.latches.rexB s with
    | error e u => rfl
    | ok j u =>
      have ht : u = s := by
        rw [readAddrReg, bind_get, regRead, bind_apply] at hj
        unfold checkRegister at hj
        rw [bind_get] at hj
        split_ifs at hj
        · cases hj
        · cases hj
        · cases hj; rfl
      subst ht
      dsimp only
      rw [bind_of_ok hx1, hx2, hx3]

/-- `FetchModRM()` on the code buffer does what it does with the operand the decoder read there (45_reference_units.md R289). -/
theorem fetchModRM_eq {s : State} {reg : RegId} {rm : RmOperand} {rest : List Byte} 
    (h : decodeModRM s.mode (s.code.drop (s.ip+1)) = some (reg, rm, rest)) : fetchModRM s = fetchOperand reg rm s := by
  cases hc : s.code.drop (s.ip+1) with
  | nil => rw [hc] at h; cases h
  | cons m r =>
    rw [hc] at h
    simp only [decodeModRM] at h
    have hb : BitVec.ofNat 8 (leNat [m]) = m := by simp [leNat]
    rw [fetchModRM, bind_get, bind_of_ok (codeRead_take hc (n := 1) (by simp) (by decide))]
    simp only [List.take_succ_cons, List.take_zero, hb]
    rw [bind_of_ok (skip_apply 2 s)]
    unfold fetchOperand
    rw [bind_of_ok (skip_apply 2 s)]
    have hd2 : s.code.drop (s.ip+2) = r := by rw [show s.ip+2 = (s.ip+1)+1 from rfl, ← List.drop_drop, hc]; rfl
    split_ifs at h ⊢ with h1
    · cases h; rfl
    · simp only [Option.map_eq_some_iff] at h
      obtain ⟨⟨mm, r'⟩, hd, he⟩ := h
      cases he
      dsimp only
      have := resolve_eval (s := s.withIp (s.ip+2)) (reg := byteMid m) h1 (by simpa [hd2] using hd)
      rw [bind_apply, bind_apply (evalMem mm), this]

/-- An immediate on the code buffer is the one the decoder read there (45_reference_units.md R271). -/
theorem fetchImm_eq {s : State} {n : Nat} {p : List Byte × List Byte} (hn : n ≠ 0) (h : takeBytes n (s.code.drop (s.ip+1)) = some p) :
    fetchImm n s = .ok (BitVec.ofNat 64 (leNat p.1)) s := by
  unfold takeBytes at h
  split_ifs at h with hl
  cases h
  rw [fetchImm, bind_get, bind_of_ok (codeRead_take rfl hl hn)]; rfl

/-- A walk along the chain depends on REF's callback at the current state alone. -/
theorem walk_congr {op : Nat} {r1 r2 : UnitM Unit} {s : State} (h : r1 s = r2 s) (us : List UnitRecord) : walk op r1 s us = walk op r2 s us := by
  induction us with
  | nil => rfl
  | cons u us ih =>
    rw [walk, walk]
    cases u with
    | ref => 
      simp only [callbackOf]
      split_ifs
      · simp only [answerOf, h, ih]
      · simp only [ih]
    | host n m =>
      simp only [callbackOf, ih]

/-- The register id in an effective opcode is the one in its byte. -/
theorem byteLow_opReg (esc : Bool) (b : Byte) : opReg (effOpcode esc b) = byteLow b := by
  revert esc b; decide

end Sys2Proof.Machine
end

