-- ==== Sys2Proof/Laws/Step.lean ====
section
/-! SUPPORT. What an instruction and a step can do, each said once. -/

namespace Sys2Proof.Machine

open Sys2Proof

/-- What `exec` can answer: a leading byte sets its latch and moves ip; a dispatch makes only the changes of
`DispatchStep`, or is refused. -/
theorem exec_cases (i : Instr) (s : State) :
    (∃ l : Latches, ∃ n, exec i s = .next ((s.withLatches l).withIp n) ∧
      (i = .esc2 ∧ l = { s.latches with esc := true } ∨ i = .opsize ∧ l = { s.latches with p66 := true } ∨
        i = .addrsize ∧ l = { s.latches with p67 := true } ∨
        ∃ r, i = .rex r ∧ l = { s.latches with rex := some r })) ∨
    (∃ t, exec i s = .next t ∧ DispatchStep s t) ∨ ∃ r, exec i s = .refused r := by
  cases i with
  | esc2 => exact Or.inl ⟨_, _, rfl, by simp⟩
  | opsize => exact Or.inl ⟨_, _, rfl, by simp⟩
  | addrsize => exact Or.inl ⟨_, _, rfl, by simp⟩
  | rex r => exact Or.inl ⟨_, _, rfl, by simp⟩
  | opcode b => exact Or.inr (walk_cases (refCallback_steps _) s _)
  | nop => exact Or.inr (walk_cases nopBody_steps s _)
  | xorRmR a b => exact Or.inr (walk_cases (xorRmRBody_steps (fetchOperand_steps _ _)) s _)
  | xorRRm a b => exact Or.inr (walk_cases (xorRRmBody_steps (fetchOperand_steps _ _)) s _)
  | movRm8R8 a b => exact Or.inr (walk_cases (movRm8R8Body_steps (fetchOperand_steps _ _)) s _)
  | movRmR a b => exact Or.inr (walk_cases (movRmRBody_steps (fetchOperand_steps _ _)) s _)
  | movR8Rm8 a b => exact Or.inr (walk_cases (movR8Rm8Body_steps (fetchOperand_steps _ _)) s _)
  | movRRm a b => exact Or.inr (walk_cases (movRRmBody_steps (fetchOperand_steps _ _)) s _)
  | movR8Imm8 r v => exact Or.inr (walk_cases (movR8Imm8Body_steps _ (Steps.pure _)) s _)
  | movRImm r v => exact Or.inr (walk_cases (movRImmBody_steps _ (fun _ => Steps.pure _)) s _)
  | pushR r => exact Or.inr (walk_cases (pushBody_steps _) s _)
  | popR r => exact Or.inr (walk_cases (popBody_steps _) s _)
  | leaRM a b => exact Or.inr (walk_cases (leaBody_steps (fetchOperand_steps _ _)) s _)
  | callRel32 r => exact Or.inr (walk_cases (callBody_steps (Steps.pure _)) s _)

/-- Where a next state of `step` comes from: nothing is left to run, the decoded instruction, or the dispatch of an opcode
byte whose operands are not all there. -/
theorem step_cases {s t : State} (h : step s = .next t) :
    t = s ∨ (s.running = true ∧
      ((∃ i rest, fetch s = .ok (i, rest) ∧ exec i s = .next t) ∨ ∃ b, execOpcode b s = .next t)) := by
  unfold step at h
  by_cases h1 : s.tainted = true
  · simp [h1] at h
  rw [if_neg h1] at h
  cases hf : s.faulted with
  | some e => simp [hf] at h
  | none =>
    simp only [hf] at h
    by_cases h2 : s.code.length ≤ s.ip <;> simp only [h2, if_true, if_false] at h
    · cases h; exact Or.inl rfl
    · have hr : s.running = true := by simp [State.running, h1, hf]; omega
      cases hd : fetch s with
      | ok p => simp only [hd] at h; exact Or.inr ⟨hr, Or.inl ⟨p.1, p.2, rfl, h⟩⟩
      | error r =>
        simp only [hd] at h
        cases r with
        | endOfBuffer => simp only [execRejected] at h; cases h; exact Or.inl rfl
        | truncated b => exact Or.inr ⟨hr, Or.inr ⟨b, h⟩⟩

end Sys2Proof.Machine
end

