-- ==== Sys2Proof/Certificates/Slice0/Obligations.lean ====
section
/-! DEFINITION. The statements for the provers. -/

open Sys2Proof Sys2Proof.Machine

/-! ## Encoding and decoding -/

/-- Words written out from spec/opcode_table.json and 30_encoding.md R106, R109, R110, R112, one or more for each family,
decode to the instruction they stand for (the bit positions of ModRM, SIB and REX are the family's: log entry 13). -/
def Obligations.TableWordsDecode : Prop :=
  decode ⟨.prot, .clear⟩ [0x0F, 0x90] = .ok (.esc2, [0x90]) ∧
  decode ⟨.prot, .clear⟩ [0x66, 0x90] = .ok (.opsize, [0x90]) ∧
  decode ⟨.long, .clear⟩ [0x67] = .ok (.addrsize, []) ∧
  decode ⟨.long, .clear⟩ [0x45, 0x31, 0xC9] = .ok (.rex ⟨false, true, false, true⟩, [0x31, 0xC9]) ∧
  decode ⟨.prot, .clear⟩ [0x45] = .ok (.opcode 0x45, []) ∧
  decode ⟨.prot, ⟨true, false, false, none⟩⟩ [0x90] = .ok (.opcode 0x90, []) ∧
  decode ⟨.long, .clear⟩ [0x33, 0b11000011] = .ok (.xorRRm 0 (.reg 3), []) ∧
  decode ⟨.long, .clear⟩ [0x89, 0b01000011, 0xF8] = .ok (.movRmR 0 (.mem (.direct 3 (.disp8 0xF8))), []) ∧
  decode ⟨.long, .clear⟩ [0x8D, 0b01001100, 0b01011011, 0x10] = .ok (.leaRM 1 (.mem (.sib 1 3 3 (.disp8 0x10))), []) ∧
  decode ⟨.long, .clear⟩ [0x8D, 0b00000101, 0xF9, 0xFF, 0xFF, 0xFF] = .ok (.leaRM 0 (.mem (.rip 0xFFFFFFF9)), []) ∧
  decode ⟨.prot, .clear⟩ [0x8D, 0b00000101] = .ok (.leaRM 0 (.mem (.direct 5 .none)), []) ∧
  decode ⟨.long, ⟨false, true, false, none⟩⟩ [0xB8, 0x34, 0x12] = .ok (.movRImm 0 (.imm16 0x1234), []) ∧
  decode ⟨.long, .clear⟩ [0x54, 0x5B] = .ok (.pushR 4, [0x5B]) ∧
  decode ⟨.long, .clear⟩ [0xE8, 0x01, 0x00, 0x00, 0x00] = .ok (.callRel32 1, [])

/-- Decoding the encoding of a well-formed instruction gives it back, whatever bytes follow, with every operand at every
value the encoding admits (the layouts: log entry 13; the reference map: log entry 14). -/
def Obligations.DecodeOfEncode : Prop :=
  ∀ (c : DecodeCtx) (i : Instr) (rest : List Byte), wellFormed c i = true →
    decode c (encode i ++ rest) = .ok (i, rest)

/-- Whatever the decoder accepts is a well-formed instruction, and the bytes it took are that instruction's encoding: no
byte string stands for two instructions, and no bit of one is dropped (log entries 13, 14). -/
def Obligations.EncodeOfDecode : Prop :=
  ∀ (c : DecodeCtx) (bs rest : List Byte) (i : Instr), decode c bs = .ok (i, rest) →
    wellFormed c i = true ∧ bs = encode i ++ rest

/-! ## The step -/

/-- Where the bytes at ip decode to an instruction, the step is that instruction's meaning (the step adds nothing around
it: the meaning itself moves ip). -/
def Obligations.StepRunsDecodedInstruction : Prop :=
  ∀ (s : State) (i : Instr) (rest : List Byte), s.running = true → decode s.ctx (s.code.drop s.ip) = .ok (i, rest) →
    step s = exec i s

/-- The step agrees with the scan step of the spec's loop: the byte at ip is classed, a leading byte is latched, an opcode
byte is dispatched, and the reference unit reads its operands from the code buffer in the order of its pseudocode (that
a truncated instruction is dispatched all the same: log entry 16). -/
def Obligations.StepIsScanStep : Prop :=
  ∀ (s : State) (b : Byte), s.running = true → s.code[s.ip]? = some b → step s = scanStep s b

/-- Every step keeps the invariant: the stack's cells stay canonical and within the length, the length within STACK_MAX, a
Null stack empty, the latches those of the mode, the slots what the mode can have written. -/
def Obligations.StepKeepsInvariant : Prop :=
  ∀ s t : State, s.inv = true → step s = .next t → t.inv = true

/-- The invariant holds after power-on, whatever the construction's arguments (State.reset is one of them). -/
def Obligations.PowerOnMeetsInvariant : Prop :=
  (∀ (p : Params) (m : Mode) (k : StackPolicy) (top : Int) (max : Nat), (State.powerOn p m k top max).inv = true) ∧
    State.reset.inv = true

/-- Every command of the host keeps the invariant, however it ends: a reconfiguration behind the taint, `reset()` by
emptying what would no longer fit, a run of any length by its steps. -/
def Obligations.CommandsKeepInvariant : Prop :=
  ∀ (c : Command) (s t : State), s.inv = true →
    ((∃ r, command c s = .done t r) ∨ (∃ e, command c s = .error e t) ∨ command c s = .didNotEnd t) → t.inv = true

/-- No step, whatever units are registered and whatever they answer, writes the parameters, MODE, ADDRESS_BASE, the taint,
the code buffer, UNITS or the stack's configuration (the spec's inference at the end of R151). -/
def Obligations.StepNeverWritesConfiguration : Prop :=
  ∀ s t : State, step s = .next t → SameConfiguration s t

/-- While the engine is tainted a run fails at once with TaintedEnvironment. -/
def Obligations.TaintedRunFails : Prop :=
  ∀ s : State, s.tainted = true → step s = .fault .taintedEnvironment ∧
    ∀ bound, command (.simulate bound) s = .error .taintedEnvironment s

/-- While `faulted` is set no scan step is enabled, and `reset()` clears it (the record is the spec's decision D28). -/
def Obligations.FaultedMachineTakesNoStep : Prop :=
  ∀ (s : State) (e : FatalError), s.tainted = false → s.faulted = some e →
    step s = .fault (.halted e) ∧ (∀ bound, command (.simulate bound) s = .stuck e) ∧
      ∃ t, command .reset s = .done t .nothing ∧ t.faulted = none

/-- With ip at or past the end of the buffer a run returns at once and nothing changes (the step that leaves the state as
it is is the model's choice, log entry 3). -/
def Obligations.RunReturnsAtBufferEnd : Prop :=
  ∀ s : State, s.tainted = false → s.faulted = none → s.code.length ≤ s.ip →
    step s = .next s ∧ ∀ bound, command (.simulate bound) s = .done s .nothing

/-- With only the reference unit registered, no flag steers anything: two states that differ in `eflags` alone step alike,
to states that differ in `eflags` alone. -/
def Obligations.FlagsDoNotSteer : Prop :=
  ∀ (s : State) (f : BitVec 32), (∀ u ∈ s.units, u = .ref) →
    (∀ t, step s = .next t → ∃ g, step (s.withFlags f) = .next (t.withFlags g)) ∧
      (∀ e, step s = .fault e → step (s.withFlags f) = .fault e) ∧
        ∀ r, step s = .refused r → step (s.withFlags f) = .refused r

/-- With only the reference unit registered, a step that raises nothing moves ip forward unless it runs a CALL. -/
def Obligations.ProgressWithoutCall : Prop :=
  ∀ s t : State, (∀ u ∈ s.units, u = .ref) → s.running = true → step s = .next t → t.faulted = none →
    (∃ rel rest, fetch s = .ok (.callRel32 rel, rest)) ∨ s.ip < t.ip

/-- With only the reference unit registered and no byte E8 in the code buffer, a run is over within as many scan steps as
bytes are left: it ends normally, with an error, or refused, and never at the step bound. -/
def Obligations.RunWithoutCallEnds : Prop :=
  ∀ s : State, (∀ u ∈ s.units, u = .ref) → (0xE8 : Byte) ∉ s.code →
    ∀ (bound : Nat) (t : State), s.code.length - s.ip ≤ bound → command (.simulate bound) s ≠ .didNotEnd t

/-! ## Leading bytes -/

/-- ESC2, OPSIZE, ADDRSIZE and REX: the latch is set, ip advances by 1, nothing else changes (that a later REX replaces an
earlier one, and the two prefix latches, are the spec's decision D15). -/
def Obligations.LeadingBytesLatch : Prop :=
  ∀ (s : State) (r : Rex),
    exec .esc2 s = .next ((s.withLatches { s.latches with esc := true }).withIp (s.ip + 1)) ∧
    exec .opsize s = .next ((s.withLatches { s.latches with p66 := true }).withIp (s.ip + 1)) ∧
    exec .addrsize s = .next ((s.withLatches { s.latches with p67 := true }).withIp (s.ip + 1)) ∧
    exec (.rex r) s = .next ((s.withLatches { s.latches with rex := some r }).withIp (s.ip + 1))

/-- Which byte is a leading byte, in which mode and with which latches, what its step does, and which byte is
dispatched (the place of W, R, X, B in a REX byte: log entry 13; the two prefix latches and the later REX that
replaces an earlier one are the spec's decision D15: log entry 25). -/
def Obligations.ByteClassesByMode : Prop :=
  ∀ (s : State) (b : Byte), s.running = true → s.code[s.ip]? = some b →
    (b = 0x0F ∧ s.mode ≠ .real →
      step s = .next ((s.withLatches { s.latches with esc := true }).withIp (s.ip + 1))) ∧
    (b = 0x66 ∧ s.mode ≠ .real ∧ s.latches.esc = false →
      step s = .next ((s.withLatches { s.latches with p66 := true }).withIp (s.ip + 1))) ∧
    (b = 0x67 ∧ s.mode ≠ .real ∧ s.latches.esc = false →
      step s = .next ((s.withLatches { s.latches with p67 := true }).withIp (s.ip + 1))) ∧
    (0x40 ≤ b.toNat ∧ b.toNat ≤ 0x4F ∧ s.mode = .long ∧ s.latches.esc = false →
      step s = .next ((s.withLatches { s.latches with
        rex := some ⟨b.getLsbD 3, b.getLsbD 2, b.getLsbD 1, b.getLsbD 0⟩ }).withIp (s.ip + 1))) ∧
    ((¬ (b = 0x0F ∧ s.mode ≠ .real) ∧ ¬ ((b = 0x66 ∨ b = 0x67) ∧ s.mode ≠ .real ∧ s.latches.esc = false) ∧
      ¬ (0x40 ≤ b.toNat ∧ b.toNat ≤ 0x4F ∧ s.mode = .long ∧ s.latches.esc = false)) → step s = execOpcode b s)

/-! ## Dispatch -/

/-- Where no record of the chain accepts the effective opcode (its map lacks it, or its callback declines, the reference
unit's too), the dispatch raises InvalidOpcode with the effective opcode and ADDRESS_BASE + ip; ip and the latches stay,
as does everything else. That a record which declines after its operations leaves no trace is log entry 24 (the spec's
decision D16); that an error already recorded stays recorded is log entry 2 (D28). -/
def Obligations.NoUnitAcceptsRaisesInvalidOpcode : Prop :=
  ∀ (s : State) (b : Byte),
    (∀ u ∈ s.units, Passes (effOpcode s.latches.esc b) s u ∨
      (u = .ref ∧ (refRow (effOpcode s.latches.esc b) = none ∨
        answerOf (refCallback (effOpcode s.latches.esc b)) s = .decline))) →
    exec (.opcode b) s =
      .next (s.takeFatal (.invalidOpcode (if s.latches.esc then 0xF00 ||| b.toNat else b.toNat) (s.addressBase + s.ip)))

/-- The first record of the chain that holds the effective opcode and does not decline answers; the records in front of
it, REF among them, lack the opcode or decline. Where its callback accepts, the state it left, with the latches
cleared, is the next state (the escape latch too: the spec's decision D15, log entry 25). Where it answers Fatal, or
one of its operations raises, that error is taken in the state as it then stands; where an operation is refused, so is
the dispatch (that an operation's error comes before the answer: log entry 24). -/
def Obligations.AcceptingUnitEndsDispatch : Prop :=
  ∀ (s t : State) (b : Byte) (front back : List UnitRecord) (name : String) (map : List (Nat × Callback))
    (e : Nat × Callback),
    s.units = front ++ .host name map :: back →
    (∀ u ∈ front, Passes (effOpcode s.latches.esc b) s u ∨
      (u = .ref ∧ (refRow (effOpcode s.latches.esc b) = none ∨
        answerOf (refCallback (effOpcode s.latches.esc b)) s = .decline))) →
    map.find? (fun e => e.1 == effOpcode s.latches.esc b) = some e →
    (runCallback (effOpcode s.latches.esc b) e.2 s = .ok ⟨⟩ t → exec (.opcode b) s = .next (t.withLatches .clear)) ∧
    (∀ k, runCallback (effOpcode s.latches.esc b) e.2 s = .error (.fatal k) t →
      exec (.opcode b) s = .next (t.takeFatal k)) ∧
    (∀ r, runCallback (effOpcode s.latches.esc b) e.2 s = .error (.refuse r) t → exec (.opcode b) s = .refused r) ∧
    (∀ k, (callbackAnswer (effOpcode s.latches.esc b) s e.2).2 = .fatal k →
      runActions (callbackAnswer (effOpcode s.latches.esc b) s e.2).1 s = .ok ⟨⟩ t →
      exec (.opcode b) s = .next (t.takeFatal k)) ∧
    (∀ k, runActions (callbackAnswer (effOpcode s.latches.esc b) s e.2).1 s = .error (.fatal k) t →
      exec (.opcode b) s = .next (t.takeFatal k))

/-- A record registered later stands at the front and is asked first: a fixed callback of it that accepts decides the
opcode, whatever was registered before. -/
def Obligations.LatestRegistrationAskedFirst : Prop :=
  ∀ (s : State) (b : Byte) (name : String) (c : Callback) (t : State),
    runCallback (effOpcode s.latches.esc b) c
      (s.withUnits (.host name [(effOpcode s.latches.esc b, c)] :: s.units)) = .ok ⟨⟩ t →
    ∃ u, command (.registerInstructions (.host name [(effOpcode s.latches.esc b, c)])) s = .done u .nothing ∧
      u = s.withUnits (.host name [(effOpcode s.latches.esc b, c)] :: s.units) ∧
        exec (.opcode b) u = .next (t.withLatches .clear)

/-- Two-byte isolation on a chain of one record: a unit registered only for 0xF90 is not invoked by the bare byte 0x90,
and one registered only for 0x090 is not invoked by 0x90 behind the escape: whatever its callback would do, the dispatch
raises InvalidOpcode (longer chains: NoUnitAcceptsRaisesInvalidOpcode, AcceptingUnitEndsDispatch). That the error is a
next state with the record set, if none was, is log entry 2 (the spec's decision D28). -/
def Obligations.TwoByteIsolation : Prop :=
  ∀ (s : State) (name : String) (c : Callback),
    (s.latches.esc = false → s.units = [.host name [(0xF90, c)]] →
      exec (.opcode 0x90) s = .next (s.takeFatal (.invalidOpcode 0x090 (s.addressBase + s.ip)))) ∧
    (s.latches.esc = true → s.units = [.host name [(0x090, c)]] →
      exec (.opcode 0x90) s = .next (s.takeFatal (.invalidOpcode 0xF90 (s.addressBase + s.ip))))

/-- A callback of the host's, a script or a unit of unknown code, that answers with no boolean is
HandlerContractViolation, with whatever state the unit left, wherever in the chain its record is the first that does
not pass (an untyped answer is kept beside the spec's typed one: log entry 24). -/
def Obligations.AnswerThatIsNoBoolean : Prop :=
  ∀ (s t : State) (b : Byte) (front back : List UnitRecord) (name : String) (map : List (Nat × Callback))
    (e : Nat × Callback),
    s.units = front ++ .host name map :: back →
    (∀ u ∈ front, Passes (effOpcode s.latches.esc b) s u ∨
      (u = .ref ∧ (refRow (effOpcode s.latches.esc b) = none ∨
        answerOf (refCallback (effOpcode s.latches.esc b)) s = .decline))) →
    map.find? (fun e => e.1 == effOpcode s.latches.esc b) = some e →
    (callbackAnswer (effOpcode s.latches.esc b) s e.2).2 = .nonBoolean →
    runActions (callbackAnswer (effOpcode s.latches.esc b) s e.2).1 s = .ok ⟨⟩ t →
    exec (.opcode b) s = .next (t.takeFatal .handlerContractViolation)

/-! ## Register file -/

/-- Writing a descriptor and reading it gives the value back, in any mode that admits it. -/
def Obligations.RegisterRoundTrip : Prop :=
  ∀ (s : State) (d : Descriptor) (v : Word), slotExists s.mode d = true → d.width.bits ≤ 8 <<< (match s.mode with
      | .real => 1
      | .prot => 2
      | .long => 3) →
    v.toNat < 2 ^ d.width.bits → ∃ t, regWrite d v s = .ok ⟨⟩ t ∧ regRead d t = .ok v t

/-- `RegWrite`: too wide a descriptor raises RegisterWidthExceedsMode; in Long mode a write of width 32 or 64 replaces the
whole slot by the value modulo 2^width, zero-extended; every other write merges: bit by bit, the view takes the value's
bits and every bit outside it is kept. No other slot and nothing else changes. That the value is reduced modulo 2^width
is the spec's decision D6 (log entry 23). -/
def Obligations.RegisterWriteRule : Prop :=
  ∀ (s : State) (d : Descriptor) (v : Word), slotExists s.mode d = true →
    (s.mode.maxWidth < d.width.bits → regWrite d v s = .error (.fatal (.registerWidthExceedsMode d)) s) ∧
    (d.width.bits ≤ s.mode.maxWidth →
      ∃ t, regWrite d v s = .ok ⟨⟩ t ∧ t = s.withSlots t.slots ∧ (∀ j, j ≠ d.slot → t.slots.get j = s.slots.get j) ∧
        (s.mode = .long ∧ 32 ≤ d.width.bits → (t.slots.get d.slot).toNat = v.toNat % 2 ^ d.width.bits) ∧
        (¬ (s.mode = .long ∧ 32 ≤ d.width.bits) → ∀ k < 64, (t.slots.get d.slot).getLsbD k =
          if d.shift s.params ≤ k ∧ k < d.shift s.params + d.width.bits then v.getLsbD (k - d.shift s.params)
          else (s.slots.get d.slot).getLsbD k))

/-- A descriptor wider than MAXW(MODE) raises RegisterWidthExceedsMode on a read and on a write, before anything changes; a
descriptor whose slot the mode does not have is refused (that the refusal comes first is the model's choice, log entry
11). -/
def Obligations.WidthAndSlotChecks : Prop :=
  ∀ (s : State) (d : Descriptor) (v : Word),
    (slotExists s.mode d = true → s.mode.maxWidth < d.width.bits →
      regRead d s = .error (.fatal (.registerWidthExceedsMode d)) s ∧
        regWrite d v s = .error (.fatal (.registerWidthExceedsMode d)) s) ∧
    (s.mode ≠ .long → 8 ≤ d.slot.val →
      regRead d s = .error (.refuse .absentSlot) s ∧ regWrite d v s = .error (.refuse .absentSlot) s)

/-- The three tables of GetByCode: the slot, the width and the place of the view, for every id, width and REX input (the
tables are the family's, the spec's decision D7: log entry 13; the place of AH to BH: log entry 6). -/
def Obligations.GetByCodeTables : Prop :=
  ∀ (id : RegId) (w : Width) (p e : Bool) (par : Params),
    (getByCode id w p e).width = w ∧
    (getByCode id w p e).code = id ∧
    (getByCode id w p e).slot.val =
      (if p = true ∧ e = true then id.val + 8
       else if w = .w8 ∧ p = false ∧ 4 ≤ id.val then id.val - 4
       else id.val) ∧
    (getByCode id w p e).shift par =
      (if w = .w8 ∧ p = false ∧ 4 ≤ id.val then par.highByte.bits else 0)

/-- `RegRead`: too wide a descriptor raises RegisterWidthExceedsMode; else the value is the view, bit k being bit sh + k of
the slot below the width and 0 above it, and nothing changes. -/
def Obligations.RegisterReadRule : Prop :=
  ∀ (s : State) (d : Descriptor), slotExists s.mode d = true →
    (s.mode.maxWidth < d.width.bits → regRead d s = .error (.fatal (.registerWidthExceedsMode d)) s) ∧
    (d.width.bits ≤ s.mode.maxWidth → ∃ v, regRead d s = .ok v s ∧
      ∀ k < 64, v.getLsbD k =
        (decide (k < d.width.bits) && (s.slots.get d.slot).getLsbD (d.shift s.params + k)))

/-! ## Sizes and register operands of the reference units (decision D30, log entry 14) -/

/-- OPSIZE(), STKSIZE(), SPREG and RegOp by the mode and the latches: 64 bits with REX.W in Long mode, else 16 under 0x66
or in Real mode, else 32; the stack operand 16 bits under 0x66, else the mode's width; the stack pointer is the mode's
width of slot 4; a register operand is looked up with REX present or not and the extension bit R (`reg`) or B (`r/m`
and the register in the opcode). -/
def Obligations.OperandSizes : Prop :=
  ∀ (s : State) (f : RegId) (w : Width),
    let wide := s.mode = .long ∧ ∃ r, s.latches.rex = some r ∧ r.w = true
    (wide → s.opSize = .w64) ∧
    (¬ wide → s.latches.p66 = true ∨ s.mode = .real → s.opSize = .w16) ∧
    (¬ wide → s.latches.p66 = false → s.mode ≠ .real → s.opSize = .w32) ∧
    (s.latches.p66 = true → s.stkSize = .w16) ∧
    (s.latches.p66 = false → s.stkSize = (match s.mode with
      | .real => .w16
      | .prot => .w32
      | .long => .w64)) ∧
    (s.spReg.slot = 4 ∧ (s.view s.spReg).toNat = (s.slots.get 4).toNat % 2 ^ (match s.mode with
      | .real => 16
      | .prot => 32
      | .long => 64)) ∧
    (s.latches.rex = none → s.regD f w = getByCode f w false false ∧ s.rmD f w = getByCode f w false false) ∧
    (∀ r, s.latches.rex = some r → s.regD f w = getByCode f w true r.r ∧ s.rmD f w = getByCode f w true r.b)

/-! ## Reference units: results (the reference set is the spec's own decision D30, from general knowledge: log entry 14) -/

/-- NOP without REX.B advances ip by 1 and changes nothing else (an accepted instruction clears the latches). -/
def Obligations.NopResult : Prop :=
  ∀ s : State, RefAsked 0x090 s → s.latches.rexB = false →
    exec .nop s = .next ((s.withIp (s.ip + 1)).withLatches .clear)

/-- Both XOR forms between registers. -/
def Obligations.XorRegisterResult : Prop :=
  ∀ (s : State) (reg r : RegId), latchesLegal s.mode s.latches = true →
    let w := s.opSize
    let v := s.view (s.rmD r w) ^^^ s.view (s.regD reg w)
    (RefAsked 0x031 s → exec (.xorRmR reg (.reg r)) s =
      .next ((((s.putView (s.rmD r w) v).setLogicFlags v w).withIp (s.ip + 2)).withLatches .clear)) ∧
    (RefAsked 0x033 s → exec (.xorRRm reg (.reg r)) s =
      .next ((((s.putView (s.regD reg w) v).setLogicFlags v w).withIp (s.ip + 2)).withLatches .clear))

/-- Both XOR forms with a memory operand. -/
def Obligations.XorMemoryResult : Prop :=
  ∀ (s : State) (reg : RegId) (m : MemOperand), latchesLegal s.mode s.latches = true → s.stack.canonical = true →
    Readable s.stack (s.effAddr m) s.opSize.bytes →
    let w := s.opSize
    let v := loadedValue s.stack (s.effAddr m) w ^^^ s.view (s.regD reg w)
    (RefAsked 0x031 s → ∃ st, Stored s.stack (s.effAddr m) (bytesLe v.toNat w.bytes) st ∧
      exec (.xorRmR reg (.mem m)) s =
        .next ((((s.withStack st).setLogicFlags v w).withIp (s.ip + 2 + memLen m)).withLatches .clear)) ∧
    (RefAsked 0x033 s → exec (.xorRRm reg (.mem m)) s =
      .next ((((s.putView (s.regD reg w) v).setLogicFlags v w).withIp (s.ip + 2 + memLen m)).withLatches .clear))

/-- LogicFlags: CF and OF are cleared, SF is the result's top bit, ZF says whether it is zero, PF whether its low byte has
an even number of 1 bits, and every other bit of eflags is kept (SF, PF of a non-zero result and the untouched AF are
from general knowledge, as 45_reference_units.md R288 says). -/
def Obligations.LogicFlagsRule : Prop :=
  ∀ (p : FlagBits) (r : Word) (w : Width) (f : BitVec 32), p.Distinct →
    let g := logicFlags p r w f
    g.getLsbD p.cf.val = false ∧ g.getLsbD p.of.val = false ∧
    g.getLsbD p.sf.val = r.getLsbD (w.bits - 1) ∧
    g.getLsbD p.zf.val = decide (r = 0) ∧
    g.getLsbD p.pf.val = decide (Even ((Finset.range 8).filter fun k => r.getLsbD k = true).card) ∧
    ∀ k : Fin 32, k ∉ [p.cf, p.of, p.sf, p.zf, p.pf] → g.getLsbD k.val = f.getLsbD k.val

/-- The four MOV forms between registers. -/
def Obligations.MovRegisterResult : Prop :=
  ∀ (s : State) (reg r : RegId), latchesLegal s.mode s.latches = true →
    (RefAsked 0x088 s → exec (.movRm8R8 reg (.reg r)) s =
      .next (((s.putView (s.rmD r .w8) (s.view (s.regD reg .w8))).withIp (s.ip + 2)).withLatches .clear)) ∧
    (RefAsked 0x089 s → exec (.movRmR reg (.reg r)) s =
      .next (((s.putView (s.rmD r s.opSize) (s.view (s.regD reg s.opSize))).withIp (s.ip + 2)).withLatches .clear)) ∧
    (RefAsked 0x08A s → exec (.movR8Rm8 reg (.reg r)) s =
      .next (((s.putView (s.regD reg .w8) (s.view (s.rmD r .w8))).withIp (s.ip + 2)).withLatches .clear)) ∧
    (RefAsked 0x08B s → exec (.movRRm reg (.reg r)) s =
      .next (((s.putView (s.regD reg s.opSize) (s.view (s.rmD r s.opSize))).withIp (s.ip + 2)).withLatches .clear))

/-- The two MOV forms that load from memory. -/
def Obligations.MovLoadResult : Prop :=
  ∀ (s : State) (reg : RegId) (m : MemOperand), latchesLegal s.mode s.latches = true →
    (RefAsked 0x08A s → Readable s.stack (s.effAddr m) 1 → exec (.movR8Rm8 reg (.mem m)) s =
      .next (((s.putView (s.regD reg .w8) (loadedValue s.stack (s.effAddr m) .w8)).withIp
        (s.ip + 2 + memLen m)).withLatches .clear)) ∧
    (RefAsked 0x08B s → Readable s.stack (s.effAddr m) s.opSize.bytes → exec (.movRRm reg (.mem m)) s =
      .next (((s.putView (s.regD reg s.opSize) (loadedValue s.stack (s.effAddr m) s.opSize)).withIp
        (s.ip + 2 + memLen m)).withLatches .clear))

/-- The two MOV forms that store to memory. -/
def Obligations.MovStoreResult : Prop :=
  ∀ (s : State) (reg : RegId) (m : MemOperand), latchesLegal s.mode s.latches = true → s.stack.canonical = true →
    (RefAsked 0x088 s → Writable s.stack (s.effAddr m) 1 →
      ∃ st, Stored s.stack (s.effAddr m) (bytesLe (s.view (s.regD reg .w8)).toNat 1) st ∧
        exec (.movRm8R8 reg (.mem m)) s =
          .next (((s.withStack st).withIp (s.ip + 2 + memLen m)).withLatches .clear)) ∧
    (RefAsked 0x089 s → Writable s.stack (s.effAddr m) s.opSize.bytes →
      ∃ st, Stored s.stack (s.effAddr m) (bytesLe (s.view (s.regD reg s.opSize)).toNat s.opSize.bytes) st ∧
        exec (.movRmR reg (.mem m)) s =
          .next (((s.withStack st).withIp (s.ip + 2 + memLen m)).withLatches .clear))

/-- The two MOV forms with an immediate; the immediate has the bytes that the operand size asks for. -/
def Obligations.MovImmediateResult : Prop :=
  ∀ (s : State) (r : RegId) (b : Byte) (v : Imm), latchesLegal s.mode s.latches = true → v.wf s.opSize = true →
    (RefAsked (0x0B0 + r.val) s → exec (.movR8Imm8 r b) s =
      .next (((s.putView (s.rmD r .w8) (b.setWidth 64)).withIp (s.ip + 2)).withLatches .clear)) ∧
    (RefAsked (0x0B8 + r.val) s → exec (.movRImm r v) s =
      .next (((s.putView (s.rmD r s.opSize) (BitVec.ofNat 64 (leNat v.bytes))).withIp
        (s.ip + 1 + s.opSize.bytes)).withLatches .clear))

/-- PUSH stores the register's value below the stack pointer and moves the stack pointer. -/
def Obligations.PushResult : Prop :=
  ∀ (s : State) (r : RegId), latchesLegal s.mode s.latches = true → s.stack.canonical = true →
    RefAsked (0x050 + r.val) s → Writable s.stack (s.spAfterPush s.stkSize.bytes) s.stkSize.bytes →
    ∃ st, Stored s.stack (s.spAfterPush s.stkSize.bytes)
        (bytesLe (s.view (s.rmD r s.stkSize)).toNat s.stkSize.bytes) st ∧
      exec (.pushR r) s =
        .next ((((s.withStack st).putView s.spReg (BitVec.ofInt 64 (s.spAfterPush s.stkSize.bytes))).withIp
          (s.ip + 1)).withLatches .clear)

/-- POP loads from the stack pointer, moves it, and writes the destination last; the stack keeps its bytes. -/
def Obligations.PopResult : Prop :=
  ∀ (s : State) (r : RegId), latchesLegal s.mode s.latches = true → RefAsked (0x058 + r.val) s →
    Readable s.stack (s.view s.spReg).toNat s.stkSize.bytes →
    exec (.popR r) s =
      .next ((((s.putView s.spReg (BitVec.ofInt 64
          (((s.view s.spReg).toNat + s.stkSize.bytes : Int) % 2 ^ s.mode.maxWidth))).putView (s.rmD r s.stkSize)
        (loadedValue s.stack (s.view s.spReg).toNat s.stkSize)).withIp (s.ip + 1)).withLatches .clear)

/-- LEA writes the effective address modulo the operand size and touches no memory. -/
def Obligations.LeaResult : Prop :=
  ∀ (s : State) (reg : RegId) (m : MemOperand), latchesLegal s.mode s.latches = true → RefAsked 0x08D s →
    exec (.leaRM reg (.mem m)) s =
      .next (((s.putView (s.regD reg s.opSize) (BitVec.ofInt 64 (s.effAddr m))).withIp
        (s.ip + 2 + memLen m)).withLatches .clear)

/-- CALL pushes the absolute return address and moves ip to the target; a negative target is refused (the spec's decision
D10). -/
def Obligations.CallResult : Prop :=
  ∀ (s : State) (rel : BitVec 32), s.mode ≠ .real → s.latches.p66 = false → s.stack.canonical = true →
    RefAsked 0x0E8 s → Writable s.stack (s.spAfterPush s.mode.addrWidth.bytes) s.mode.addrWidth.bytes →
    (0 ≤ (s.ip : Int) + 5 + rel.toInt →
      ∃ st, Stored s.stack (s.spAfterPush s.mode.addrWidth.bytes)
          (bytesLe ((s.addressBase + s.ip + 5) % 2 ^ s.mode.maxWidth).toNat s.mode.addrWidth.bytes) st ∧
        exec (.callRel32 rel) s =
          .next ((((s.withStack st).putView s.spReg
            (BitVec.ofInt 64 (s.spAfterPush s.mode.addrWidth.bytes))).withIp
              ((s.ip : Int) + 5 + rel.toInt).toNat).withLatches .clear)) ∧
    ((s.ip : Int) + 5 + rel.toInt < 0 → exec (.callRel32 rel) s = .refused .negativeInstructionPointer)

/-- NOP with REX.B, LEA with a register operand, CALL in Real mode or under 0x66: REF declines with nothing changed, and
where no record behind it answers the opcode is invalid. Said of the step that scans the bytes, of the dispatch of the
opcode byte, and of the instruction by its name (which the decoder gives for LEA alone: log entries 15, 28). -/
def Obligations.ReferenceUnitsDecline : Prop :=
  ∀ (s : State) (reg r : RegId) (rel : BitVec 32),
    let bad := fun op => Host.Outcome.next (s.takeFatal (.invalidOpcode op (s.addressBase + s.ip)))
    (RefLast 0x090 s → s.latches.rexB = true →
      exec .nop s = bad 0x090 ∧
      (s.latches.esc = false → exec (.opcode 0x90) s = bad 0x090 ∧
        (s.running = true → s.code[s.ip]? = some 0x90 → step s = bad 0x090))) ∧
    (RefLast 0x08D s →
      exec (.leaRM reg (.reg r)) s = bad 0x08D ∧
      (s.latches.esc = false → s.running = true → s.code[s.ip]? = some 0x8D →
        s.code[s.ip + 1]? = some (packByte 3 reg r) → step s = bad 0x08D)) ∧
    (RefLast 0x0E8 s → s.mode = .real ∨ s.latches.p66 = true →
      exec (.callRel32 rel) s = bad 0x0E8 ∧
      (s.latches.esc = false → exec (.opcode 0xE8) s = bad 0x0E8 ∧
        (s.running = true → s.code[s.ip]? = some 0xE8 → step s = bad 0x0E8)))

/-! ## Reference units: errors (decision D30, log entry 14) -/

/-- An access that the stack cannot serve. A load (XOR and MOV from memory, POP): under Strict it raises StackUnderflow
above the top, else StackIndex, and leaves ip where the access found it, behind the memory operand (POP: at the opcode
byte), and everything else as it was; under Forgiving the run is refused (the spec's decision D34: log entry 18). A MOV
that stores: it raises StackUnderflow above the top, else StackOverflow (XOR r/m, r meets the load's error first). That
the region's last byte is the one tested against the top is the spec's decision D24 (log entry 30). -/
def Obligations.StackErrorKeepsMovedIp : Prop :=
  ∀ (s : State) (i : Instr) (op : Nat) (a : Int) (n : Nat), latchesLegal s.mode s.latches = true →
    opcodeOf i = some op → RefAsked op s →
    (s.loadOf i = some (a, n) → ¬ Readable s.stack a n →
      (s.stack.policy = .strict → exec i s = .next ((s.withIp (s.ipAtAccess i)).takeFatal
        (if s.stack.top < a + n - 1 then .stackUnderflow a n else .stackIndex a n))) ∧
      (s.stack.policy = .forgiving → exec i s = .refused .emptyLoad)) ∧
    (s.storeOf i = some (a, n) → writesLogicFlags i = false → ¬ Writable s.stack a n →
      exec i s = .next ((s.withIp (s.ipAtAccess i)).takeFatal
        (if s.stack.top < a + n - 1 then .stackUnderflow a n else .stackOverflow a n)))

/-- A PUSH or a CALL that the stack cannot take raises StackUnderflow above the top, else StackOverflow, and changes
nothing: the stack pointer and ip are not moved. -/
def Obligations.PushErrorKeepsStackPointer : Prop :=
  ∀ (s : State),
    let stops := fun (a : Int) (n : Nat) => Host.Outcome.next (s.takeFatal
      (if s.stack.top < a + n - 1 then .stackUnderflow a n else .stackOverflow a n))
    (∀ r : RegId, latchesLegal s.mode s.latches = true → RefAsked (0x050 + r.val) s →
      ¬ Writable s.stack (s.spAfterPush s.stkSize.bytes) s.stkSize.bytes →
      exec (.pushR r) s = stops (s.spAfterPush s.stkSize.bytes) s.stkSize.bytes) ∧
    (∀ rel : BitVec 32, s.mode ≠ .real → s.latches.p66 = false → RefAsked 0x0E8 s →
      ¬ Writable s.stack (s.spAfterPush s.mode.addrWidth.bytes) s.mode.addrWidth.bytes →
      exec (.callRel32 rel) s = stops (s.spAfterPush s.mode.addrWidth.bytes) s.mode.addrWidth.bytes)

/-- `CodeRead` answers the bytes of a window inside the buffer and raises CodeWindowOutOfRange for any other, one at a
negative offset among them; and every truncated instruction raises it with the window it misses: an immediate, CALL's
displacement, the ModRM byte (ip at the opcode byte), the SIB byte, the displacement of a Direct, SIB or RIP operand
(ip behind the ModRM byte). The error kind is the spec's decision D17 (log entry 16). -/
def Obligations.TruncatedOperandRaises : Prop :=
  ∀ s : State,
    (∀ (off : Int) (n : Nat),
      (0 ≤ off → off + n ≤ s.code.length → ∃ bs, codeRead off n s = .ok bs s ∧ bs.length = n ∧
        ∀ j < n, bs[j]? = s.code[off.toNat + j]?) ∧
      (off < 0 ∨ s.code.length < off + n →
        codeRead off n s = .error (.fatal (.codeWindowOutOfRange off n)) s)) ∧
    (s.running = true → s.latches.esc = false → latchesLegal s.mode s.latches = true →
      (∀ r : RegId, RefAsked (0x0B8 + r.val) s → s.code[s.ip]? = some (opcodeWithReg 0xB8 r) →
        s.code.length < s.ip + 1 + s.opSize.bytes →
        step s = .next (s.takeFatal (.codeWindowOutOfRange (s.ip + 1) s.opSize.bytes))) ∧
      (∀ r : RegId, RefAsked (0x0B0 + r.val) s → s.code[s.ip]? = some (opcodeWithReg 0xB0 r) →
        s.code.length = s.ip + 1 → step s = .next (s.takeFatal (.codeWindowOutOfRange (s.ip + 1) 1))) ∧
      (RefAsked 0x0E8 s → s.mode ≠ .real → s.latches.p66 = false → s.code[s.ip]? = some 0xE8 →
        s.code.length < s.ip + 5 → step s = .next (s.takeFatal (.codeWindowOutOfRange (s.ip + 1) 4))) ∧
      ∀ b ∈ ([0x31, 0x33, 0x88, 0x89, 0x8A, 0x8B, 0x8D] : List Byte), RefAsked b.toNat s → s.code[s.ip]? = some b →
        (s.code.length = s.ip + 1 → step s = .next (s.takeFatal (.codeWindowOutOfRange (s.ip + 1) 1))) ∧
        ∀ (mod : Fin 4) (reg rm : RegId), mod ≠ 3 → s.code[s.ip + 1]? = some (packByte mod reg rm) →
          let misses := fun (off : Int) (n : Nat) =>
            Host.Outcome.next ((s.withIp (s.ip + 2)).takeFatal (.codeWindowOutOfRange off n))
          (rm = 4 → s.code.length = s.ip + 2 → step s = misses (s.ip + 2) 1) ∧
          (rm = 4 → ∀ n, mod = 1 ∧ n = 1 ∨ mod = 2 ∧ n = 4 → s.ip + 2 < s.code.length →
            s.code.length < s.ip + 3 + n → step s = misses (s.ip + 3) n) ∧
          (rm = 5 → mod = 0 → s.mode = .long → s.code.length < s.ip + 6 → step s = misses (s.ip + 2) 4) ∧
          (rm ≠ 4 → ∀ n, mod = 1 ∧ n = 1 ∨ mod = 2 ∧ n = 4 → s.code.length < s.ip + 2 + n →
            step s = misses (s.ip + 2) n))

/-! ## Frames -/

/-- The forms with one destination register and no store: every other slot, the bits of the destination's slot outside its
view (unless Long mode replaces the slot), every flag an XOR does not name, all of the stack and the configuration are
as they were; ip and the latches move as dispatch says. -/
def Obligations.RegisterFormFrame : Prop :=
  ∀ (s t : State) (i : Instr) (op : Nat) (d : Descriptor), opcodeOf i = some op → s.destOf i = some d →
    RefAsked op s → exec i s = .next t →
    SameConfiguration s t ∧ t.stack = s.stack ∧ SameFlags i s t ∧ AcceptedOrFaulted s t ∧
      (∀ j, j ≠ d.slot → t.slots.get j = s.slots.get j) ∧
      (¬ (s.mode = .long ∧ 32 ≤ d.width.bits) →
        ∀ k, k < d.shift s.params ∨ d.shift s.params + d.width.bits ≤ k →
          (t.slots.get d.slot).getLsbD k = (s.slots.get d.slot).getLsbD k)

/-- The forms with a memory destination: every register, every flag an XOR does not name and the configuration are as they
were, and so is every byte of the stack outside the bytes stored at the effective address; an address that held no byte
holds none, or a zero in the gap above a growth. -/
def Obligations.StoreFormFrame : Prop :=
  ∀ (s t : State) (i : Instr) (op : Nat) (a : Int) (n : Nat), opcodeOf i = some op → s.storeOf i = some (a, n) →
    s.stack.canonical = true → RefAsked op s → exec i s = .next t →
    SameConfiguration s t ∧ t.slots = s.slots ∧ SameFlags i s t ∧ AcceptedOrFaulted s t ∧
      ∀ x : Int, ¬ (a ≤ x ∧ x < a + n) →
        (∀ b, s.stack.byteAt x = some b → t.stack.byteAt x = some b) ∧
        (s.stack.byteAt x = none → t.stack.byteAt x = none ∨ (t.stack.byteAt x = some 0 ∧ a < x))

/-- PUSH and CALL: every slot but the stack pointer's, every flag and the configuration are as they were, and so is every
byte outside the bytes stored at the new stack pointer. POP: every slot but the stack pointer's and the destination's,
every flag, the whole stack and the configuration. -/
def Obligations.StackUnitFrame : Prop :=
  ∀ (s t : State),
    (∀ (i : Instr) (op n : Nat), opcodeOf i = some op → RefAsked op s → s.stack.canonical = true →
      ((∃ r, i = .pushR r) ∧ n = s.stkSize.bytes ∨
        (∃ rel, i = .callRel32 rel) ∧ n = s.mode.addrWidth.bytes ∧ s.mode ≠ .real ∧ s.latches.p66 = false) →
      exec i s = .next t →
      SameConfiguration s t ∧ t.eflags = s.eflags ∧ AcceptedOrFaulted s t ∧
        (∀ j, j ≠ s.spReg.slot → t.slots.get j = s.slots.get j) ∧
        ∀ x : Int, ¬ (s.spAfterPush n ≤ x ∧ x < s.spAfterPush n + n) →
          (∀ b, s.stack.byteAt x = some b → t.stack.byteAt x = some b) ∧
          (s.stack.byteAt x = none →
            t.stack.byteAt x = none ∨ (t.stack.byteAt x = some 0 ∧ s.spAfterPush n < x))) ∧
    (∀ r : RegId, RefAsked (0x058 + r.val) s → exec (.popR r) s = .next t →
      SameConfiguration s t ∧ t.eflags = s.eflags ∧ AcceptedOrFaulted s t ∧ t.stack = s.stack ∧
        ∀ j, j ≠ s.spReg.slot → j ≠ (s.rmD r s.stkSize).slot → t.slots.get j = s.slots.get j)

/-! ## The stack -/

/-- A strict read: StackUnderflow where the region reaches above the top, else StackIndex where it begins below the lowest
written byte, else the bytes, lowest address first (that the whole region is tested is the spec's decision D24). -/
def Obligations.StrictReadRule : Prop :=
  ∀ (st : Stack) (a : Int) (n : Nat), n ≠ 0 →
    (st.top < a + n - 1 → st.strictRead a n = .error (.stackUnderflow a n)) ∧
    (a + n - 1 ≤ st.top → a - (st.top - st.len) - 1 < 0 → st.strictRead a n = .error (.stackIndex a n)) ∧
    (a + n - 1 ≤ st.top → 0 ≤ a - (st.top - st.len) - 1 →
      ∃ bs, st.strictRead a n = .ok bs ∧ bs.length = n ∧ ∀ j < n, st.byteAt (a + j) = bs[j]?)

/-- Growth: the new bytes stand at the front, a gap is zero-padded, an overlap overwrites the first old bytes, and a length
beyond STACK_MAX is StackOverflow (the overlap is the spec's inference from R65). -/
def Obligations.GrowthEquation : Prop :=
  ∀ (st : Stack) (a : Int) (bytes : List Byte), st.canonical = true → bytes ≠ [] →
    a + bytes.length - 1 ≤ st.top → st.off a < 0 →
    (st.max < st.top - a + 1 → st.strictWrite a bytes = .error (.stackOverflow a bytes.length)) ∧
    (st.top - a + 1 ≤ st.max → ∃ st', st.strictWrite a bytes = .ok st' ∧ (st'.len : Int) = st.top - a + 1 ∧
      st'.bytes =
        if (bytes.length : Int) ≤ -st.off a then
          bytes ++ List.replicate (-st.off a - bytes.length).toNat 0 ++ st.bytes
        else bytes ++ st.bytes.drop (bytes.length + st.off a).toNat)

/-- An in-place write: the addressed bytes of the buffer are replaced, its length is unchanged. -/
def Obligations.InPlaceWriteEquation : Prop :=
  ∀ (st : Stack) (a : Int) (bytes : List Byte), st.canonical = true → bytes ≠ [] →
    a + bytes.length - 1 ≤ st.top → 0 ≤ st.off a →
    ∃ st', st.strictWrite a bytes = .ok st' ∧ st'.len = st.len ∧
      st'.bytes = st.bytes.take (st.off a).toNat ++ bytes ++ st.bytes.drop ((st.off a).toNat + bytes.length)

/-- A clear zero-fills its region and then trims every leading zero byte of the buffer (every one: the spec's decision
D36). -/
def Obligations.ClearTrimsLeadingZeros : Prop :=
  ∀ (st : Stack) (a : Int) (n : Nat), st.canonical = true → n ≠ 0 → a + n - 1 ≤ st.top → 0 ≤ st.off a →
    ∃ st', st.strictClear a n = .ok st' ∧ st'.len = st'.bytes.length ∧
      st'.bytes =
        (st.bytes.take (st.off a).toNat ++ List.replicate n 0 ++ st.bytes.drop ((st.off a).toNat + n)).dropWhile
          (fun b => b == 0)

/-- The Forgiving and Null columns of the policy table against the Strict one: Forgiving turns StackUnderflow and
StackIndex into an empty result or nothing at all and keeps StackOverflow and every success; Null reads zeros and
writes and clears nothing. That a region counts as above the top where its last byte is, so that Forgiving drops such a
write whole, is the spec's decision D24 (log entry 30). -/
def Obligations.PolicyTable : Prop :=
  ∀ (st : Stack) (a : Int) (n : Nat) (bytes : List Byte), n ≠ 0 → bytes ≠ [] →
    (st.policy = .strict → st.read a n = st.strictRead a n ∧ st.write a bytes = st.strictWrite a bytes ∧
      st.clear a n = st.strictClear a n) ∧
    (st.policy = .forgiving →
      (∀ bs, st.strictRead a n = .ok bs → st.read a n = .ok bs) ∧
      (∀ e, st.strictRead a n = .error e → st.read a n = .ok []) ∧
      (∀ st', st.strictWrite a bytes = .ok st' → st.write a bytes = .ok st') ∧
      (st.top < a + bytes.length - 1 → st.write a bytes = .ok st) ∧
      (a + bytes.length - 1 ≤ st.top → st.off a < 0 → st.max < st.top - a + 1 →
        st.write a bytes = .error (.stackOverflow a bytes.length)) ∧
      (∀ st', st.strictClear a n = .ok st' → st.clear a n = .ok st') ∧
      (∀ e, st.strictClear a n = .error e → st.clear a n = .ok st)) ∧
    (st.policy = .null → st.read a n = .ok (List.replicate n 0) ∧ st.write a bytes = .ok st ∧ st.clear a n = .ok st)

/-! ## The resolver -/

/-- A register-direct ModRM handed to the resolver is InvalidAddressingMode: no byte is read, nothing changes. -/
def Obligations.ResolverGuard : Prop :=
  ∀ (s : State) (reg rm : RegId), resolve 3 reg rm s = .error (.fatal (.invalidAddressingMode 3 reg rm)) s

/-- The resolver on the code buffer agrees with the decoded operand: its address is the exact sum of the operand's terms
and the extra offset, it consumes the operand's bytes, and it changes nothing (the spec's decisions D18 to D22; the
layouts: log entry 13). -/
def Obligations.ResolverComputesEffectiveAddress : Prop :=
  ∀ (s : State) (mod : Fin 4) (reg rm : RegId) (m : MemOperand) (rest : List Byte),
    latchesLegal s.mode s.latches = true → mod ≠ 3 → 2 ≤ s.ip →
    decodeMem s.mode mod rm (s.code.drop s.ip) = some (m, rest) →
    ∃ A, resolve mod reg rm s = .ok A s ∧ A.consumed = memLen m ∧
      ∀ e, A.address e = (s.withIp (s.ip - 2)).effAddr m + e

/-! ## Flags -/

/-- Flag access by a one-bit mask: `getFlag` answers that bit, `setFlag` writes that bit and no other; any other mask is
refused (the spec's decision D9). -/
def Obligations.FlagAccess : Prop :=
  ∀ (s : State) (m : Nat) (b : Bool),
    (∀ k : Fin 32, m = 2 ^ k.val →
      getFlag m s = .ok (s.eflags.getLsbD k.val) s ∧
        ∃ f, setFlag m b s = .ok ⟨⟩ (s.withFlags f) ∧
          ∀ j < 32, f.getLsbD j = if j = k.val then b else s.eflags.getLsbD j) ∧
    ((¬ ∃ k : Fin 32, m = 2 ^ k.val) →
      getFlag m s = .error (.refuse .badFlagMask) s ∧ setFlag m b s = .error (.refuse .badFlagMask) s)

/-! ## The host -/

/-- `reset()`: zeroes the slots, the flags, ip and the latches, empties the stack, clears the taint and the fault record,
and keeps the mode, the stack's configuration, ADDRESS_BASE, UNITS and the code buffer; it is never refused (ip and what
is kept are the spec's decision D12, the fault record its D28). -/
def Obligations.ResetCommand : Prop :=
  ∀ s : State, ∃ t, command .reset s = .done t .nothing ∧
    (∀ j, t.slots.get j = 0) ∧ t.eflags = 0 ∧ t.ip = 0 ∧
    t.latches.esc = false ∧ t.latches.p66 = false ∧ t.latches.p67 = false ∧ t.latches.rex = none ∧
    t.stack.len = 0 ∧ t.stack.bytes = [] ∧ t.tainted = false ∧ t.faulted = none ∧
    t.mode = s.mode ∧ t.stack.top = s.stack.top ∧ t.stack.max = s.stack.max ∧ t.stack.policy = s.stack.policy ∧
    t.addressBase = s.addressBase ∧ t.units = s.units ∧ t.code = s.code ∧ t.params = s.params

/-- The four reconfigurations write their register and the taint and nothing else. -/
def Obligations.ReconfigurationTaints : Prop :=
  ∀ (s : State) (m : Mode) (a b : Int) (n : Nat),
    command (.setMode m) s = .done ((s.withMode m).withTaint true) .nothing ∧
    command (.setStackAddress a) s = .done ((s.withStack { s.stack with top := a }).withTaint true) .nothing ∧
    command (.setStackSize n) s = .done ((s.withStack { s.stack with max := n }).withTaint true) .nothing ∧
    command (.setAddressBase b) s = .done ((s.withBase b).withTaint true) .nothing

/-- While tainted, each checked command fails with TaintedEnvironment and changes nothing, and each unchecked command is
done (which commands check is the spec's decision D13). -/
def Obligations.TaintShutsCommandsOut : Prop :=
  ∀ (s : State) (c : Command), s.tainted = true →
    ((c = .reset ∨ (∃ m, c = .setMode m) ∨ (∃ a, c = .setStackAddress a) ∨ (∃ n, c = .setStackSize n) ∨
        (∃ b, c = .setAddressBase b) ∨ (∃ u, c = .registerInstructions u) ∨ ∃ bs, c = .setCodeBuffer bs) →
      ∃ t, command c s = .done t .nothing) ∧
    (¬ (c = .reset ∨ (∃ m, c = .setMode m) ∨ (∃ a, c = .setStackAddress a) ∨ (∃ n, c = .setStackSize n) ∨
        (∃ b, c = .setAddressBase b) ∨ (∃ u, c = .registerInstructions u) ∨ ∃ bs, c = .setCodeBuffer bs) →
      command c s = .error .taintedEnvironment s)

/-- The host's pointer and buffer commands: `setCodeBuffer` replaces the buffer and keeps ip and the latches; the pointer
is read, set and advanced as an integer, and a negative result is refused (the spec's decisions D38 and D10). -/
def Obligations.PointerCommands : Prop :=
  ∀ (s : State) (bs : List Byte) (n : Int), s.tainted = false →
    command (.setCodeBuffer bs) s = .done (s.withCode bs) .nothing ∧
    command .getInstructionPointer s = .done s (.int s.ip) ∧
    (0 ≤ n → command (.setInstructionPointer n) s = .done (s.withIp n.toNat) .nothing) ∧
    (n < 0 → command (.setInstructionPointer n) s = .refused .negativeInstructionPointer) ∧
    (0 ≤ s.ip + n → command (.advanceInstructionPointer n) s = .done (s.withIp (s.ip + n).toNat) .nothing) ∧
    (s.ip + n < 0 → command (.advanceInstructionPointer n) s = .refused .negativeInstructionPointer)

/-- The host's register, flag and stack commands are the engine's operations behind the taint check: the value is answered,
the write is made, and a fatal error ends the command and is recorded (that a command's error is recorded is the
model's reading, log entry 12). -/
def Obligations.HostAccessCommands : Prop :=
  ∀ (s : State) (d : Descriptor) (v a : Int) (n : Nat) (bytes : List Byte), s.tainted = false → n ≠ 0 → bytes ≠ [] →
    (slotExists s.mode d = true → widthFits s.mode d = true →
      command (.readRegister d) s = .done s (.int (s.view d).toNat) ∧
      command (.writeRegister d v) s = .done (s.putView d (BitVec.ofInt 64 v)) .nothing) ∧
    (slotExists s.mode d = true → widthFits s.mode d = false →
      command (.readRegister d) s = .error (.registerWidthExceedsMode d) (s.takeFatal (.registerWidthExceedsMode d)) ∧
      command (.writeRegister d v) s =
        .error (.registerWidthExceedsMode d) (s.takeFatal (.registerWidthExceedsMode d))) ∧
    (∀ m b, getFlag m s = .ok b s → command (.getFlag m) s = .done s (.flag b)) ∧
    (∀ m b t, setFlag m b s = .ok ⟨⟩ t → command (.setFlag m b) s = .done t .nothing) ∧
    command .getFlags s = .done s (.int s.eflags.toNat) ∧
    command .getStack s = .done s (.bytes s.stack.bytes) ∧
    (∀ bs, s.stack.read a n = .ok bs → command (.readStackAt a n) s = .done s (.bytes bs)) ∧
    (∀ e, s.stack.read a n = .error e → command (.readStackAt a n) s = .error e (s.takeFatal e)) ∧
    (∀ st, s.stack.write a bytes = .ok st → command (.writeStackAt a bytes) s = .done (s.withStack st) .nothing) ∧
    (∀ e, s.stack.write a bytes = .error e → command (.writeStackAt a bytes) s = .error e (s.takeFatal e)) ∧
    (∀ st, s.stack.clear a n = .ok st → command (.clearStackAt a n) s = .done (s.withStack st) .nothing) ∧
    (∀ e, s.stack.clear a n = .error e → command (.clearStackAt a n) s = .error e (s.takeFatal e))
end

