-- ==== Sys2Proof/Laws/PerInstr.lean ====
section
/-! SUPPORT. A family of statements about every instruction as syntax, one lemma for each constructor. -/

namespace Sys2Proof.Laws.EncodeLength

open Sys2Proof Sys2Proof.Machine

/-- An encoding has at least the opcode byte and at most nine bytes (30_encoding.md R100, R101: the leading bytes are
instructions of their own here). -/
def Statement (i : Instr) : Prop := 1 ≤ (encode i).length ∧ (encode i).length ≤ 9

theorem disp_length (d : Disp) : d.bytes.length = dispLen d := by
  cases d with
  | none => rfl
  | disp8 v => rfl
  | disp32 v => exact bytesLe_length _ _

theorem dispLen_le (d : Disp) : dispLen d ≤ 4 := by cases d <;> simp [dispLen]

/-- A ModRM byte with what follows it has one byte, or one and the memory operand's (42_address_resolver.md R221). -/
theorem modRM_length (reg : RegId) (rm : RmOperand) :
    1 ≤ (encodeModRM reg rm).length ∧ (encodeModRM reg rm).length ≤ 6 := by
  cases rm with
  | reg r => simp [encodeModRM]
  | mem m =>
    cases m with
    | direct b d =>
      have := dispLen_le d
      simp [encodeModRM, disp_length]
      omega
    | sib s i b d =>
      have := dispLen_le d
      simp [encodeModRM, disp_length]
      omega
    | rip d => simp [encodeModRM, bytesLe_length]

/-- An opcode byte with a ModRM operand. -/
theorem of_modRM (b : Byte) (reg : RegId) (rm : RmOperand) :
    1 ≤ (b :: encodeModRM reg rm).length ∧ (b :: encodeModRM reg rm).length ≤ 9 := by
  have := modRM_length reg rm
  simp only [List.length_cons]
  omega

theorem esc2 : Statement .esc2 := by simp [Statement, encode]
theorem opsize : Statement .opsize := by simp [Statement, encode]
theorem addrsize : Statement .addrsize := by simp [Statement, encode]
theorem rex (r : Rex) : Statement (.rex r) := by simp [Statement, encode]
theorem opcode (b : Byte) : Statement (.opcode b) := by simp [Statement, encode]
theorem nop : Statement .nop := by simp [Statement, encode]
theorem xorRmR (reg : RegId) (rm : RmOperand) : Statement (.xorRmR reg rm) := of_modRM _ _ _
theorem xorRRm (reg : RegId) (rm : RmOperand) : Statement (.xorRRm reg rm) := of_modRM _ _ _
theorem movRm8R8 (reg : RegId) (rm : RmOperand) : Statement (.movRm8R8 reg rm) := of_modRM _ _ _
theorem movRmR (reg : RegId) (rm : RmOperand) : Statement (.movRmR reg rm) := of_modRM _ _ _
theorem movR8Rm8 (reg : RegId) (rm : RmOperand) : Statement (.movR8Rm8 reg rm) := of_modRM _ _ _
theorem movRRm (reg : RegId) (rm : RmOperand) : Statement (.movRRm reg rm) := of_modRM _ _ _
theorem movR8Imm8 (r : RegId) (imm : Byte) : Statement (.movR8Imm8 r imm) := by simp [Statement, encode]
theorem movRImm (r : RegId) (imm : Imm) : Statement (.movRImm r imm) := by
  cases imm <;> simp [Statement, encode, Imm.bytes, bytesLe_length]
theorem pushR (r : RegId) : Statement (.pushR r) := by simp [Statement, encode]
theorem popR (r : RegId) : Statement (.popR r) := by simp [Statement, encode]
theorem leaRM (reg : RegId) (rm : RmOperand) : Statement (.leaRM reg rm) := of_modRM _ _ _
theorem callRel32 (rel : BitVec 32) : Statement (.callRel32 rel) := by
  simp [Statement, encode, bytesLe_length]

end Sys2Proof.Laws.EncodeLength
end

