-- ==== Sys2Proof/Tests/Slice0.lean ====
section
/-! SUPPORT. Tests: ill-formed terms that the check refuses, words written out from the spec's encodings, single steps
with the results of spec/95_test_vectors.md (cited as S, D, A, K, U, Program), and a witness for the hypotheses of every
statement that has some. -/

namespace Sys2Proof.Tests

open Sys2Proof Sys2Proof.Machine

/-! ## Small states -/

/-- An engine of 95_test_vectors.md 2.7: REF registered, Strict, top 7FFF, size 1000. -/
def base (m : Mode) (h : HighByteShift) : State :=
  (State.powerOn ⟨h, .x86⟩ m .strict 0x7FFF 0x1000).withUnits [.ref]

/-- With a code buffer and some slots set. -/
def setup (s : State) (code : List Byte) (slots : List (Fin 16 × Word)) : State :=
  (s.withCode code).withSlots (slots.foldl (fun v p => v.set p.1 p.2) s.slots)

/-- In Long mode, with the leading bytes of the instruction already scanned. -/
def long (l : Latches) (ip : Nat) (code : List Byte) (slots : List (Fin 16 × Word)) : State :=
  ((setup (base .long .shift0) code slots).withLatches l).withIp ip

def noLatch : Latches := .clear
def withRex (w r x b : Bool) : Latches := ⟨false, false, false, some ⟨w, r, x, b⟩⟩

/-- The next state of an outcome. -/
def nextOf : Host.Outcome State Fault Refusal → Option State
  | .next t => some t
  | .fault _ => none
  | .refused _ => none

/-- ip, one slot and the flags after one step. -/
def after (s : State) (i : Fin 16) : Option (Nat × Word × BitVec 32) :=
  (nextOf (step s)).map fun t => (t.ip, t.slots.get i, t.eflags)

/-- ip and the fatal error recorded after one step. -/
def errorAfter (s : State) : Option (Nat × Option FatalError) :=
  (nextOf (step s)).map fun t => (t.ip, t.faulted)

/-- ip, the stack pointer's slot and the stack's bytes after one step. -/
def stackAfter (s : State) : Option (Nat × Word × List Byte) :=
  (nextOf (step s)).map fun t => (t.ip, t.slots.get 4, t.stack.bytes)

/-- ip and the latches after one step. -/
def latchesAfter (s : State) : Option (Nat × Latches) :=
  (nextOf (step s)).map fun t => (t.ip, t.latches)

/-! ## WellFormed refuses -/

theorem test_wf_escape_in_real : wellFormed ⟨.real, .clear⟩ .esc2 = false := by decide
theorem test_wf_opsize_in_real : wellFormed ⟨.real, .clear⟩ .opsize = false := by decide
theorem test_wf_addrsize_after_escape :
    wellFormed ⟨.long, ⟨true, false, false, none⟩⟩ .addrsize = false := by decide
theorem test_wf_rex_outside_long : wellFormed ⟨.prot, .clear⟩ (.rex ⟨true, false, false, false⟩) = false := by decide
theorem test_wf_opcode_of_leading_byte : wellFormed ⟨.long, .clear⟩ (.opcode 0x48) = false := by decide
theorem test_wf_opcode_of_reference_row : wellFormed ⟨.long, .clear⟩ (.opcode 0x90) = false := by decide
theorem test_wf_reference_row_after_escape :
    wellFormed ⟨.long, ⟨true, false, false, none⟩⟩ (.pushR 0) = false := by decide
theorem test_wf_nop_with_rexB : wellFormed ⟨.long, withRex false false false true⟩ .nop = false := by decide
theorem test_wf_call_in_real : wellFormed ⟨.real, .clear⟩ (.callRel32 0) = false := by decide
theorem test_wf_call_under_opsize :
    wellFormed ⟨.long, ⟨false, true, false, none⟩⟩ (.callRel32 0) = false := by decide
theorem test_wf_direct_base_four :
    wellFormed ⟨.long, .clear⟩ (.xorRmR 0 (.mem (.direct 4 .none))) = false := by decide
theorem test_wf_direct_base_five_in_long :
    wellFormed ⟨.long, .clear⟩ (.movRRm 0 (.mem (.direct 5 .none))) = false := by decide
theorem test_wf_rip_outside_long :
    wellFormed ⟨.prot, .clear⟩ (.leaRM 0 (.mem (.rip 0))) = false := by decide
theorem test_wf_immediate_of_another_size :
    wellFormed ⟨.long, .clear⟩ (.movRImm 0 (.imm16 0)) = false := by decide

/-! ## Decoding: words written out from 30_encoding.md and 45_reference_units.md -/

/-- The decoder's answer as an Option. -/
def read (c : DecodeCtx) (bs : List Byte) : Option (Instr × List Byte) := (decode c bs).toOption

theorem test_decode_esc2 : read ⟨.prot, .clear⟩ [0b00001111, 0x90] = some (.esc2, [0x90]) := by decide
theorem test_decode_opsize : read ⟨.prot, .clear⟩ [0b01100110] = some (.opsize, []) := by decide
theorem test_decode_addrsize : read ⟨.long, .clear⟩ [0b01100111] = some (.addrsize, []) := by decide
theorem test_decode_rex : read ⟨.long, .clear⟩ [0b01000101] = some (.rex ⟨false, true, false, true⟩, []) := by decide
theorem test_decode_rex_wx : read ⟨.long, .clear⟩ [0b01001010] = some (.rex ⟨true, false, true, false⟩, []) := by decide
theorem test_decode_opcode : read ⟨.real, .clear⟩ [0x0F] = some (.opcode 0x0F, []) := by decide
theorem test_decode_nop : read ⟨.real, .clear⟩ [0b10010000] = some (.nop, []) := by decide
theorem test_decode_xorRmR : read ⟨.long, .clear⟩ [0x31, 0b11001010] = some (.xorRmR 1 (.reg 2), []) := by decide
theorem test_decode_xorRRm : read ⟨.prot, .clear⟩ [0x33, 0b10000011, 0x00, 0x01, 0x00, 0x00] =
    some (.xorRRm 0 (.mem (.direct 3 (.disp32 0x100))), []) := by decide
theorem test_decode_movRm8R8 : read ⟨.long, .clear⟩ [0x88, 0b11100000] = some (.movRm8R8 4 (.reg 0), []) := by decide
theorem test_decode_movRmR : read ⟨.long, .clear⟩ [0x89, 0b01000011, 0xF8] =
    some (.movRmR 0 (.mem (.direct 3 (.disp8 0xF8))), []) := by decide
theorem test_decode_movR8Rm8 : read ⟨.long, .clear⟩ [0x8A, 0b01100011, 0xFA] =
    some (.movR8Rm8 4 (.mem (.direct 3 (.disp8 0xFA))), []) := by decide
theorem test_decode_movRRm : read ⟨.long, .clear⟩ [0x8B, 0b00000100, 0b10000101] =
    some (.movRRm 0 (.mem (.sib 2 0 5 .none)), []) := by decide
theorem test_decode_movR8Imm8 : read ⟨.long, .clear⟩ [0b10110100, 0x12] = some (.movR8Imm8 4 0x12, []) := by decide
theorem test_decode_movRImm : read ⟨.prot, .clear⟩ [0b10111000, 0x78, 0x56, 0x34, 0x12] =
    some (.movRImm 0 (.imm32 0x12345678), []) := by decide
theorem test_decode_movRImm_rexW : read ⟨.long, withRex true false false false⟩
    [0b10111011, 0xFF, 0xFF, 0xFF, 0xFF, 0xFF, 0xFF, 0xFF, 0x7F] =
    some (.movRImm 3 (.imm64 0x7FFFFFFFFFFFFFFF), []) := by decide
theorem test_decode_pushR : read ⟨.real, .clear⟩ [0b01010111] = some (.pushR 7, []) := by decide
theorem test_decode_popR : read ⟨.long, .clear⟩ [0b01011001] = some (.popR 1, []) := by decide
theorem test_decode_leaRM : read ⟨.long, .clear⟩ [0x8D, 0b00000101, 0xF9, 0xFF, 0xFF, 0xFF] =
    some (.leaRM 0 (.mem (.rip 0xFFFFFFF9)), []) := by decide
theorem test_decode_callRel32 : read ⟨.long, .clear⟩ [0b11101000, 0x01, 0x00, 0x00, 0x00] =
    some (.callRel32 1, []) := by decide
/-- D13: the ModRM byte is missing; the decoder names the opcode byte. -/
theorem test_decode_truncated : (match decode ⟨.long, .clear⟩ [0x31] with
    | .error r => some r
    | .ok _ => none) = some (.truncated 0x31) := by decide
/-- No two rows of the reference map share an effective opcode (30_encoding.md R116). -/
theorem test_reference_rows_disjoint :
    refTable.Pairwise fun a b => (a.2.1 ^^^ b.2.1) &&& a.1 &&& b.1 ≠ 0 := by decide

/-! ## Leading bytes and dispatch -/

theorem test_step_rex_D1 : latchesAfter (long noLatch 0 [0x45, 0x31, 0xC9] []) =
    some (1, withRex false true false true) := by decide
theorem test_step_rex_replaced_D10 : latchesAfter (long (withRex true false false false) 1 [0x48, 0x41, 0x90] []) =
    some (2, withRex false false false true) := by decide
theorem test_step_opsize_D4 : latchesAfter (setup (base .prot .shift0) [0x66] []) =
    some (1, ⟨false, true, false, none⟩) := by decide
theorem test_step_addrsize : latchesAfter (setup (base .prot .shift0) [0x67, 0x90] []) =
    some (1, ⟨false, false, true, none⟩) := by decide
theorem test_step_esc2_D5 : latchesAfter (setup (base .prot .shift0) [0x0F, 0x90] []) =
    some (1, ⟨true, false, false, none⟩) := by decide
theorem test_step_opcode_D2 : errorAfter (setup (base .prot .shift0) [0x45, 0x31, 0xC9] []) =
    some (0, some (.invalidOpcode 0x045 0)) := by decide
theorem test_step_escaped_opcode_D5 : errorAfter (long ⟨true, false, false, none⟩ 1 [0x0F, 0x90] []) =
    some (1, some (.invalidOpcode 0xF90 1)) := by decide
/-- S4, with B registered before A: A declines, B accepts. -/
theorem test_dispatch_fallthrough_S4 : errorAfter ((long noLatch 0 [0x01] []).withUnits
    [.host "A" [(0x01, .script [] .decline)], .host "B" [(0x01, .script [.advanceIp 1] .accept)]]) =
    some (1, none) := by decide
/-- S4, with A alone. -/
theorem test_dispatch_declined_S4 : errorAfter ((long noLatch 0 [0x01] []).withUnits
    [.host "A" [(0x01, .script [.advanceIp 1] .decline)]]) =
    some (0, some (.invalidOpcode 0x001 0)) := by decide
theorem test_dispatch_nop_declines_D10 : errorAfter (long (withRex false false false true) 2 [0x48, 0x41, 0x90] []) =
    some (2, some (.invalidOpcode 0x090 2)) := by decide

/-- 20_memory.md R62: a unit of the host that reads code at a negative offset; the operations before it stand. -/
theorem test_unit_readCode_negative : errorAfter ((long noLatch 0 [0x01] []).withUnits
    [.host "A" [(0x01, .script [.advanceIp 1, .readCode (-7) 4] .accept)]]) =
    some (1, some (.codeWindowOutOfRange (-7) 4)) := by decide
/-- 40_decode_dispatch.md R146: a unit that answers Fatal. -/
theorem test_unit_fatal : errorAfter ((long noLatch 0 [0x01] []).withUnits
    [.host "A" [(0x01, .script [] (.fatal (.stackIndex 5 1)))]]) = some (0, some (.stackIndex 5 1)) := by decide

/-! ## Reference units -/

theorem test_step_nop_U1 : after (long noLatch 0 [0x90] []) 0 = some (1, 0, 0) := by decide
/-- S7, U2: flags and the zero-extension. -/
theorem test_step_xorRmR_U2 : after (long (withRex false true false true) 1 [0x45, 0x31, 0xC9]
    [(9, 0xDEADBEEFCAFEF00D)]) 9 = some (3, 0, 0x44) := by decide
/-- R273: a memory destination gets the result. -/
theorem test_step_xorRmR_memory : stackAfter ((long noLatch 0 [0x31, 0x03] [(3, 0x7FFC), (0, 0x0F0F0F0F)]).withStack
    ⟨0x7FFF, 0x1000, .strict, 4, [(0, 0xFF), (1, 0xFF), (2, 0xFF), (3, 0xFF)]⟩) =
    some (2, 0, [0xF0, 0xF0, 0xF0, 0xF0]) := by decide
theorem test_step_xorRRm_U3 : after (long noLatch 0 [0x33, 0xC3] [(0, 0xFFFFFFFFF0F0F0F0), (3, 0x0FF0F00F)]) 0 =
    some (2, 0xFF0000FF, 0x84) := by decide
/-- R275's example: `40 88 E0` is `mov al, spl`. -/
theorem test_step_movRm8R8 : after (long (withRex false false false false) 1 [0x40, 0x88, 0xE0]
    [(0, 0x1122), (4, 0x3344)]) 0 = some (3, 0x1144, 0) := by decide
/-- Program 3, offset 0. -/
theorem test_step_movRmR_P3 : stackAfter (long (withRex true false false false) 1 [0x48, 0x89, 0x43, 0xF8]
    [(3, 0x8000), (0, 0x1122334455667788)]) =
    some (4, 0, [0x88, 0x77, 0x66, 0x55, 0x44, 0x33, 0x22, 0x11]) := by decide
/-- The eight bytes that Program 3 stores. -/
def stored8 : Stack :=
  ⟨0x7FFF, 0x1000, .strict, 8,
    [(0, 0x11), (1, 0x22), (2, 0x33), (3, 0x44), (4, 0x55), (5, 0x66), (6, 0x77), (7, 0x88)]⟩
/-- Program 3, offset 8, HBS = 8. -/
theorem test_step_movR8Rm8_P3 : after (((setup (base .long .shift8) [0x8A, 0x63, 0xFA]
    [(3, 0x8000), (0, 0x1122334455667788)]).withStack stored8)) 0 =
    some (3, 0x1122334455666688, 0) := by decide
/-- Program 3, offset 4. -/
theorem test_step_movRRm_P3 : after ((long (withRex true false false false) 1 [0x48, 0x8B, 0x53, 0xF8]
    [(3, 0x8000)]).withStack stored8) 2 = some (4, 0x1122334455667788, 0) := by decide
theorem test_step_movR8Imm8_U6_shift0 : after (long noLatch 0 [0xB4, 0x12] [(0, 0x7FFFFFFFFFFF0000)]) 0 =
    some (2, 0x7FFFFFFFFFFF0012, 0) := by decide
theorem test_step_movR8Imm8_U6_shift8 : after (setup (base .long .shift8) [0xB4, 0x12] [(0, 0x7FFFFFFFFFFF0000)]) 0 =
    some (2, 0x7FFFFFFFFFFF1200, 0) := by decide
theorem test_step_movRImm_U5 : after (long ⟨false, true, false, none⟩ 1 [0x66, 0xB8, 0x00, 0x00]
    [(0, 0x7FFFFFFFFFFFFFFF)]) 0 = some (4, 0x7FFFFFFFFFFF0000, 0) := by decide
theorem test_step_movRImm_truncated_D11 : errorAfter (long ⟨false, true, false, some ⟨true, false, false, false⟩⟩ 2
    [0x48, 0x66, 0xB8, 0x34, 0x12] []) = some (2, some (.codeWindowOutOfRange 3 8)) := by decide
theorem test_step_pushR_U9 : stackAfter (long noLatch 0 [0x50] [(4, 0x8000), (0, 0x1122334455667788)]) =
    some (1, 0x7FF8, [0x88, 0x77, 0x66, 0x55, 0x44, 0x33, 0x22, 0x11]) := by decide
theorem test_step_pushR_U10 : errorAfter (long noLatch 0 [0x50] []) =
    some (0, some (.stackUnderflow 0xFFFFFFFFFFFFFFF8 8)) := by decide
theorem test_step_popR_U11 : (nextOf (step ((long noLatch 0 [0x58] [(4, 0x7FF8)]).withStack stored8))).map
    (fun t => (t.ip, t.slots.get 0, t.slots.get 4, t.stack)) =
    some (1, 0x1122334455667788, 0x8000, stored8) := by decide
/-- R282: `pop rsp` ends with the loaded value in the stack pointer. -/
theorem test_step_popR_rsp : stackAfter ((long noLatch 0 [0x5C] [(4, 0x7FF8)]).withStack stored8) =
    some (1, 0x1122334455667788, stored8.bytes) := by decide
theorem test_step_leaRM_U12 : after (long (withRex true false false false) 1 [0x48, 0x8D, 0x4C, 0x5B, 0x10]
    [(3, 0x8000)]) 1 = some (5, 0x18010, 0) := by decide
theorem test_step_leaRM_rip_U14 : after (long (withRex true false false false) 2
    [0x90, 0x48, 0x8D, 0x05, 0xF9, 0xFF, 0xFF, 0xFF] []) 0 = some (8, 1, 0) := by decide
theorem test_step_callRel32_U16 : stackAfter ((long noLatch 0 [0xE8, 0x01, 0x00, 0x00, 0x00] [(4, 0x8000)]).withBase
    0x400000) = some (6, 0x7FF8, [0x05, 0x00, 0x40, 0x00, 0x00, 0x00, 0x00, 0x00]) := by decide
theorem test_step_real_U19 : after (setup (base .real .shift0) [0xB8, 0x34, 0x12] []) 0 =
    some (3, 0x1234, 0) := by decide

/-! ## The register file (95_test_vectors.md 2.2) -/

theorem test_getByCode_S3 : [getByCode 4 .w8 false false, getByCode 4 .w8 true false, getByCode 4 .w8 true true].map
    Descriptor.name = ["AH", "SPL", "R12B"] := by decide
theorem test_getByCode_extension_without_rex : getByCode 4 .w8 false true = .legacy 4 .w8 := by decide
/-- The writes of 2.2: EAX, AX, AL, AH (HBS = 0 and 8), each on 1122334455667788. -/
theorem test_slot_writes :
    [slotAfterWrite .long ⟨.shift0, .x86⟩ (.legacy 0 .w32) 0x1122334455667788 0xDEADBEEF,
     slotAfterWrite .long ⟨.shift0, .x86⟩ (.legacy 0 .w16) 0x1122334455667788 0,
     slotAfterWrite .long ⟨.shift0, .x86⟩ (.legacy 0 .w8) 0x1122334455667788 0x1FF,
     slotAfterWrite .long ⟨.shift0, .x86⟩ (.legacy 4 .w8) 0x1122334455667788 0xFF,
     slotAfterWrite .long ⟨.shift8, .x86⟩ (.legacy 4 .w8) 0x1122334455667788 0xFF,
     slotAfterWrite .prot ⟨.shift0, .x86⟩ (.legacy 0 .w32) 0 0x12345678] =
    [0xDEADBEEF, 0x1122334455660000, 0x11223344556677FF, 0x11223344556677FF, 0x112233445566FF88, 0x12345678] := by
  decide

/-! ## The stack (95_test_vectors.md 2.5) -/

/-- The stack of 2.5. -/
def stack25 (len : Nat) (mem : Memory) : Stack := ⟨0x10, 127, .strict, len, mem⟩

/-- The bytes after a strict write or clear. -/
def bytesAfter (r : Except FatalError Stack) : Except FatalError (List Byte) := r.map Stack.bytes

/-- An answer as a pair of options. -/
def split {α : Type} (r : Except FatalError α) : Option FatalError × Option α :=
  match r with
  | .ok a => (none, some a)
  | .error e => (some e, none)

theorem test_stack_read_K1 : split ((stack25 0 []).read 0x11 1) = (some (.stackUnderflow 0x11 1), none) := by decide
theorem test_stack_read_K2 : split ((stack25 0 []).read 0x10 1) = (some (.stackIndex 0x10 1), none) := by decide
theorem test_stack_growth_K4 : split (bytesAfter ((stack25 1 [(0, 0xAA)]).write 0x0C [0x11, 0x22])) =
    (none, some [0x11, 0x22, 0x00, 0x00, 0xAA]) := by decide
theorem test_stack_growth_K5 : split (bytesAfter ((stack25 5 [(0, 0xAA), (3, 0x22), (4, 0x11)]).write 0x0A
    [0x01, 0x02, 0x03, 0x04])) = (none, some [0x01, 0x02, 0x03, 0x04, 0x00, 0x00, 0xAA]) := by decide
/-- The stack after K5. -/
def stackK5 : Stack := stack25 7 [(0, 0xAA), (3, 0x04), (4, 0x03), (5, 0x02), (6, 0x01)]
theorem test_stack_read_K6 : split (stackK5.read 0x0C 3) = (none, some [0x03, 0x04, 0x00]) := by decide
theorem test_stack_read_K8 : split (stackK5.read 0x10 2) = (some (.stackUnderflow 0x10 2), none) := by decide
theorem test_stack_clear_K9 : split (bytesAfter (stackK5.clear 0x0C 2)) =
    (none, some [0x01, 0x02, 0x00, 0x00, 0x00, 0x00, 0xAA]) := by decide
theorem test_stack_clear_K10 : split (bytesAfter ((stack25 7 [(0, 0xAA), (5, 0x02), (6, 0x01)]).clear 0x0A 2)) =
    (none, some [0xAA]) := by decide
theorem test_stack_overflow_K11 : split ((stack25 1 [(0, 0xAA)]).write (0x10 - 127) [0]) =
    (some (.stackOverflow (0x10 - 127) 1), none) := by decide
theorem test_stack_maximum_K12 : ((stack25 1 [(0, 0xAA)]).write (0x10 - 126) [7]).toOption.map Stack.len =
    some 127 := by decide
/-- S8, and K1 under the other policies. -/
theorem test_stack_policies_S8 : split (Stack.read ⟨0x10, 127, .forgiving, 0, []⟩ 0x11 1) = (none, some []) ∧
    split (Stack.read ⟨0x10, 127, .null, 0, []⟩ 0x11 1) = (none, some [0]) := by decide

/-! ## Flags and the host -/

theorem test_flags_26 : setMasked (setMasked 0 0x40 true) 0x04 true = 0x44 ∧ getMasked 0x44 0x40 = true ∧
    getMasked 0x44 0x01 = false ∧ oneBitMask 0x44 = false := by decide
/-- S6, R267: the taint shuts a run out, and `reset()` lets it run. -/
theorem test_taint_S6 : ∃ t u, command (.setStackAddress 0) (base .real .shift0) = .done t .nothing ∧
    command (.simulate 1) t = .error .taintedEnvironment t ∧ command .reset t = .done u .nothing ∧
      command (.simulate 1) u = .done u .nothing := ⟨_, _, rfl, rfl, rfl, rfl⟩

/-! ## Witnesses: a state and operands that meet all hypotheses of a statement -/

/-- REF alone in Long mode at the byte `b`. -/
def one (b : Byte) : State := long noLatch 0 [b, 0x03, 0, 0, 0, 0, 0, 0, 0] [(3, 0x7FF8), (4, 0x7FF8)]

/-- The same above eight stored bytes. -/
def oneStored (b : Byte) : State := (one b).withStack stored8

/-- A host's record that declines the key 90. -/
def decliner : UnitRecord := .host "d" [(0x90, .script [] .decline)]

theorem asked (op : Nat) (b : Byte) : RefAsked op (one b) := ⟨[], [], rfl, by simp⟩
theorem asked_stored (op : Nat) (b : Byte) : RefAsked op (oneStored b) := ⟨[], [], rfl, by simp⟩
theorem last (op : Nat) (b : Byte) : RefLast op (one b) := ⟨[], [], rfl, by simp, by simp⟩

/-- REF is asked behind a record that declines. -/
theorem witness_RefAsked_behind_decliner : RefAsked 0x90 ((one 0x90).withUnits [decliner, .ref]) := by
  refine ⟨[decliner], [], rfl, ?_⟩
  intro u hu
  rw [List.mem_singleton.1 hu]
  exact (rfl : answerOf (runCallback 0x90 (.script [] .decline)) _ = .decline)

theorem witness_DecodeOfEncode :
    wellFormed ⟨.long, .clear⟩ (.movRmR 0 (.mem (.direct 5 (.disp8 0x80)))) = true := by decide
theorem witness_EncodeOfDecode : decode ⟨.long, .clear⟩ [0x89, 0x45, 0x80, 0x90] =
    .ok (.movRmR 0 (.mem (.direct 5 (.disp8 0x80))), [0x90]) := rfl
theorem witness_StepRunsDecodedInstruction : (one 0x33).running = true ∧
    decode (one 0x33).ctx ((one 0x33).code.drop (one 0x33).ip) =
      .ok (.xorRRm 0 (.mem (.direct 3 .none)), [0, 0, 0, 0, 0, 0, 0]) := ⟨by decide, rfl⟩
theorem witness_StepIsScanStep : (one 0x33).running = true ∧ (one 0x33).code[(one 0x33).ip]? = some 0x33 := by decide
theorem witness_StepKeepsInvariant : ∃ t, (oneStored 0x33).inv = true ∧ step (oneStored 0x33) = .next t :=
  ⟨_, by decide, rfl⟩
theorem witness_StepNeverWritesConfiguration : ∃ t, step (oneStored 0x33) = .next t := ⟨_, rfl⟩
theorem witness_CommandsKeepInvariant : ∃ t u v, (one 0x90).inv = true ∧
    command (.setMode .real) (one 0x90) = .done t .nothing ∧
    command (.readStackAt 0 1) (one 0x90) = .error (.stackIndex 0 1) u ∧
    command (.simulate 0) (one 0x90) = .didNotEnd v := ⟨_, _, _, by decide, rfl, rfl, rfl⟩
theorem witness_TaintedRunFails : ((one 0x90).withTaint true).tainted = true := rfl
theorem witness_FaultedMachineTakesNoStep : ((one 0x90).withFault (some .handlerContractViolation)).tainted = false ∧
    ((one 0x90).withFault (some .handlerContractViolation)).faulted = some .handlerContractViolation := ⟨rfl, rfl⟩
theorem witness_RunReturnsAtBufferEnd : ((one 0x90).withIp 9).tainted = false ∧ ((one 0x90).withIp 9).faulted = none ∧
    ((one 0x90).withIp 9).code.length ≤ ((one 0x90).withIp 9).ip := by decide
/-- A next state, a fault, and a refusal (a CALL to before the buffer's start). -/
theorem witness_FlagsDoNotSteer : ∃ t, (∀ u ∈ (oneStored 0x33).units, u = .ref) ∧ step (oneStored 0x33) = .next t ∧
    step ((oneStored 0x33).withTaint true) = .fault .taintedEnvironment ∧
    step ((oneStored 0xE8).withCode [0xE8, 0, 0, 0, 0x80]) = .refused .negativeInstructionPointer :=
  ⟨_, by decide, rfl, rfl, rfl⟩
theorem witness_ProgressWithoutCall : ∃ t, (∀ u ∈ (oneStored 0x33).units, u = .ref) ∧
    (oneStored 0x33).running = true ∧ step (oneStored 0x33) = .next t ∧ t.faulted = none :=
  ⟨_, by decide, by decide, rfl, rfl⟩
theorem witness_RunWithoutCallEnds : (∀ u ∈ (one 0x90).units, u = .ref) ∧ (0xE8 : Byte) ∉ (one 0x90).code ∧
    (one 0x90).code.length - (one 0x90).ip ≤ 9 := by decide
theorem witness_ByteClassesByMode_escape : ((one 0x0F).running = true ∧ (one 0x0F).code[(one 0x0F).ip]? = some 0x0F) ∧
    (one 0x0F).mode ≠ .real := by decide
theorem witness_ByteClassesByMode_operandPrefixes : ((one 0x66).running = true ∧
    (one 0x66).code[(one 0x66).ip]? = some 0x66) ∧ ((one 0x67).running = true ∧
    (one 0x67).code[(one 0x67).ip]? = some 0x67) ∧ (one 0x67).mode ≠ .real ∧ (one 0x67).latches.esc = false := by
  decide
theorem witness_ByteClassesByMode_rex : ((one 0x40).running = true ∧ (one 0x40).code[(one 0x40).ip]? = some 0x40) ∧
    ((one 0x4F).running = true ∧ (one 0x4F).code[(one 0x4F).ip]? = some 0x4F) ∧ (one 0x4F).mode = .long ∧
    (one 0x4F).latches.esc = false := by decide
theorem witness_ByteClassesByMode_opcode : ((one 0x50).running = true ∧ (one 0x50).code[(one 0x50).ip]? = some 0x50) ∧
    ¬ ((0x50 : Byte) = 0x0F ∧ (one 0x50).mode ≠ .real) ∧
    ¬ (((0x50 : Byte) = 0x66 ∨ (0x50 : Byte) = 0x67) ∧ (one 0x50).mode ≠ .real ∧ (one 0x50).latches.esc = false) ∧
    ¬ (0x40 ≤ (0x50 : Byte).toNat ∧ (0x50 : Byte).toNat ≤ 0x4F ∧ (one 0x50).mode = .long ∧
      (one 0x50).latches.esc = false) := by decide
/-- REF without the key, and a record without it. -/
theorem witness_NoUnitAcceptsRaisesInvalidOpcode :
    ∀ u ∈ ((one 0x91).withUnits [.ref, .host "a" [(0x90, .script [] .accept)]]).units,
      Passes (effOpcode false 0x91) ((one 0x91).withUnits [.ref, .host "a" [(0x90, .script [] .accept)]]) u ∨
        (u = .ref ∧ (refRow (effOpcode false 0x91) = none ∨ answerOf (refCallback (effOpcode false 0x91))
          ((one 0x91).withUnits [.ref, .host "a" [(0x90, .script [] .accept)]]) = .decline)) := by
  intro u hu
  have hu' : u = .ref ∨ u = .host "a" [(0x90, .script [] .accept)] := by
    simpa only [State.withUnits, List.mem_cons, List.not_mem_nil, or_false] using hu
  rcases hu' with rfl | rfl
  · exact Or.inr ⟨rfl, Or.inl (by decide)⟩
  · exact Or.inl trivial
/-- REF with the key declines: LEA with a register operand. -/
theorem witness_NoUnitAccepts_declined : answerOf (refCallback (effOpcode false 0x8D))
    (long noLatch 0 [0x8D, 0xC0] []) = .decline := by decide
/-- A host's record for the key 8D, behind a REF that declines it (LEA with a register operand). -/
def behindRef (acts : List UnitAction) (v : Verdict) : State :=
  (long noLatch 0 [0x8D, 0xC0] []).withUnits [.ref, .host "a" [(0x8D, .script acts v)]]

theorem witness_AcceptingUnitEndsDispatch : ∃ t u v w,
    (behindRef [.advanceIp 1] .accept).units = [.ref] ++ .host "a" [(0x8D, .script [.advanceIp 1] .accept)] :: [] ∧
    answerOf (refCallback (effOpcode false 0x8D)) (behindRef [.advanceIp 1] .accept) = .decline ∧
    ([(0x8D, Callback.script [.advanceIp 1] .accept)] : List (Nat × Callback)).find?
      (fun e => e.1 == effOpcode false 0x8D) = some (0x8D, .script [.advanceIp 1] .accept) ∧
    runCallback 0x8D (.script [.advanceIp 1] .accept) (behindRef [.advanceIp 1] .accept) = .ok ⟨⟩ t ∧
    (callbackAnswer 0x8D (behindRef [] .decline) (.script [.advanceIp 1] (.fatal .handlerContractViolation))).2 =
      .fatal .handlerContractViolation ∧
    runActions [.advanceIp 1] (behindRef [] .decline) = .ok ⟨⟩ u ∧
    runActions [.advanceIp 1, .readCode (-1) 1] (behindRef [] .decline) =
      .error (.fatal (.codeWindowOutOfRange (-1) 1)) v ∧
    runCallback 0x8D (.script [.setIp (-1)] .accept) (behindRef [] .decline) =
      .error (.refuse .negativeInstructionPointer) w :=
  ⟨_, _, _, _, rfl, by decide, by decide, rfl, rfl, rfl, rfl, rfl⟩
/-- REF in front without the key. -/
theorem witness_AcceptingUnitEndsDispatch_lacking : UnitRecord.ref = .ref ∧ refRow (effOpcode false 0x01) = none :=
  ⟨rfl, by decide⟩
theorem witness_LatestRegistrationAskedFirst : ∃ t, runCallback (effOpcode (one 0x90).latches.esc 0x90)
    (.script [.advanceIp 1] .accept) ((one 0x90).withUnits
      (.host "a" [(effOpcode (one 0x90).latches.esc 0x90, .script [.advanceIp 1] .accept)] :: (one 0x90).units)) =
    .ok ⟨⟩ t := ⟨_, rfl⟩
theorem witness_TwoByteIsolation : (one 0x90).latches.esc = false ∧
    ((one 0x90).withUnits [.host "a" [(0xF90, .script [] .accept)]]).units = [.host "a" [(0xF90, .script [] .accept)]] ∧
    ((one 0x90).withLatches ⟨true, false, false, none⟩).latches.esc = true := ⟨rfl, rfl, rfl⟩
theorem witness_AnswerThatIsNoBoolean : ∃ t,
    (behindRef [.advanceIp 1] .nonBoolean).units =
      [.ref] ++ .host "a" [(0x8D, .script [.advanceIp 1] .nonBoolean)] :: [] ∧
    answerOf (refCallback (effOpcode false 0x8D)) (behindRef [.advanceIp 1] .nonBoolean) = .decline ∧
    (callbackAnswer 0x8D (behindRef [.advanceIp 1] .nonBoolean) (.script [.advanceIp 1] .nonBoolean)).2 = .nonBoolean ∧
    runActions [.advanceIp 1] (behindRef [.advanceIp 1] .nonBoolean) = .ok ⟨⟩ t :=
  ⟨_, rfl, by decide, rfl, rfl⟩

/-- The high-byte view in Real mode and the widest view in Long mode, at their greatest values. -/
theorem witness_RegisterRoundTrip :
    (slotExists .real (.legacy 4 .w8) = true ∧ (Descriptor.legacy 4 .w8).width.bits ≤ 8 <<< 1 ∧
      (0xFF : Word).toNat < 2 ^ (Descriptor.legacy 4 .w8).width.bits) ∧
    (slotExists .long (.ext 7 .w64) = true ∧ (Descriptor.ext 7 .w64).width.bits ≤ 8 <<< 3 ∧
      (0xFFFFFFFFFFFFFFFF : Word).toNat < 2 ^ (Descriptor.ext 7 .w64).width.bits) := by decide
theorem witness_RegisterWriteRule :
    (slotExists .long (.ext 1 .w32) = true ∧ 32 ≤ (Descriptor.ext 1 .w32).width.bits ∧
      (Descriptor.ext 7 .w64).width.bits ≤ Mode.long.maxWidth) ∧
    (slotExists .long (.legacy 7 .w8) = true ∧ ¬ (Mode.long = .long ∧ 32 ≤ (Descriptor.legacy 7 .w16).width.bits)) ∧
    (slotExists .prot (.legacy 7 .w32) = true ∧ (Descriptor.legacy 7 .w32).width.bits ≤ Mode.prot.maxWidth ∧
      ¬ (Mode.prot = .long ∧ 32 ≤ (Descriptor.legacy 7 .w32).width.bits)) ∧
    (slotExists .prot (.legacy 7 .w64) = true ∧ Mode.prot.maxWidth < (Descriptor.legacy 7 .w64).width.bits) := by
  decide
theorem witness_WidthAndSlotChecks : (slotExists .real (.legacy 0 .w32) = true ∧
    Mode.real.maxWidth < (Descriptor.legacy 0 .w32).width.bits) ∧
    (Mode.prot ≠ .long ∧ 8 ≤ (Descriptor.ext 0 .w8).slot.val) := by decide
theorem witness_RegisterReadRule : (slotExists .long (.rexLow 3) = true ∧
    (Descriptor.rexLow 3).width.bits ≤ Mode.long.maxWidth) ∧
    (slotExists .real (.legacy 7 .w32) = true ∧ Mode.real.maxWidth < (Descriptor.legacy 7 .w32).width.bits) := by decide

/-- Every case of OPSIZE(), STKSIZE() and RegOp, REX.W over 66 among them. -/
theorem witness_OperandSizes :
    ((long ⟨false, true, false, some ⟨true, false, false, false⟩⟩ 0 [] []).mode = .long ∧
      ∃ r, (long ⟨false, true, false, some ⟨true, false, false, false⟩⟩ 0 [] []).latches.rex = some r ∧ r.w = true) ∧
    (base .real .shift0).mode = .real ∧ (base .real .shift0).latches.rex = none ∧
    ((base .prot .shift0).mode ≠ .real ∧ (base .prot .shift0).latches.p66 = false) ∧
    (long ⟨false, true, false, none⟩ 0 [] []).latches.p66 = true :=
  ⟨⟨rfl, _, rfl, rfl⟩, rfl, rfl, ⟨by decide, rfl⟩, rfl⟩

theorem witness_NopResult : RefAsked 0x090 (one 0x90) ∧ (one 0x90).latches.rexB = false := ⟨asked _ _, rfl⟩
theorem witness_XorRegisterResult : latchesLegal (one 0x31).mode (one 0x31).latches = true ∧
    RefAsked 0x031 (one 0x31) ∧ RefAsked 0x033 (one 0x33) := ⟨by decide, asked _ _, asked _ _⟩
/-- The eight stored bytes reach from 7FF8 to the top. -/
theorem witness_readable : Readable (oneStored 0x31).stack ((oneStored 0x31).effAddr (.direct 3 .none))
    (oneStored 0x31).opSize.bytes := Or.inr (by decide)
/-- An eight-byte store that ends at the top of an empty stack. -/
theorem witness_writable : Writable (one 0x88).stack ((one 0x88).effAddr (.direct 3 .none)) 8 := Or.inr (by decide)
theorem witness_XorMemoryResult : latchesLegal (oneStored 0x31).mode (oneStored 0x31).latches = true ∧
    (oneStored 0x31).stack.canonical = true ∧
    Readable (oneStored 0x31).stack ((oneStored 0x31).effAddr (.direct 3 .none)) (oneStored 0x31).opSize.bytes ∧
    RefAsked 0x031 (oneStored 0x31) ∧ RefAsked 0x033 (oneStored 0x31) :=
  ⟨by decide, by decide, witness_readable, asked_stored _ _, asked_stored _ _⟩
theorem witness_LogicFlagsRule : FlagBits.x86.Distinct := by decide
theorem witness_MovRegisterResult : latchesLegal (one 0x88).mode (one 0x88).latches = true ∧
    RefAsked 0x088 (one 0x88) ∧ RefAsked 0x089 (one 0x88) ∧ RefAsked 0x08A (one 0x88) ∧ RefAsked 0x08B (one 0x88) :=
  ⟨by decide, asked _ _, asked _ _, asked _ _, asked _ _⟩
theorem witness_MovLoadResult : latchesLegal (oneStored 0x31).mode (oneStored 0x31).latches = true ∧
    (RefAsked 0x08A (oneStored 0x31) ∧
      Readable (oneStored 0x31).stack ((oneStored 0x31).effAddr (.direct 3 .none)) 1) ∧
    RefAsked 0x08B (oneStored 0x31) ∧
      Readable (oneStored 0x31).stack ((oneStored 0x31).effAddr (.direct 3 .none)) (oneStored 0x31).opSize.bytes :=
  ⟨by decide, ⟨asked_stored _ _, Or.inr (by decide)⟩, asked_stored _ _, witness_readable⟩
theorem witness_MovStoreResult : latchesLegal (one 0x88).mode (one 0x88).latches = true ∧
    (one 0x88).stack.canonical = true ∧
    (RefAsked 0x088 (one 0x88) ∧ Writable (one 0x88).stack ((one 0x88).effAddr (.direct 3 .none)) 1) ∧
    RefAsked 0x089 (one 0x88) ∧
      Writable (one 0x88).stack ((one 0x88).effAddr (.direct 3 .none)) (one 0x88).opSize.bytes :=
  ⟨by decide, by decide, ⟨asked _ _, Or.inr (by decide)⟩, asked _ _, Or.inr (by decide)⟩
theorem witness_MovImmediateResult : latchesLegal (one 0xB0).mode (one 0xB0).latches = true ∧
    (Imm.imm32 0xFFFFFFFF).wf (one 0xB0).opSize = true ∧ RefAsked (0x0B0 + (7 : RegId).val) (one 0xB0) ∧
    RefAsked (0x0B8 + (7 : RegId).val) (one 0xB0) := ⟨by decide, by decide, asked _ _, asked _ _⟩
theorem witness_PushResult : latchesLegal (one 0x50).mode (one 0x50).latches = true ∧
    (one 0x50).stack.canonical = true ∧ RefAsked (0x050 + (0 : RegId).val) (one 0x50) ∧
    Writable (one 0x50).stack ((one 0x50).spAfterPush (one 0x50).stkSize.bytes) (one 0x50).stkSize.bytes :=
  ⟨by decide, by decide, asked _ _, Or.inr (by decide)⟩
theorem witness_PopResult : latchesLegal (oneStored 0x58).mode (oneStored 0x58).latches = true ∧
    RefAsked (0x058 + (4 : RegId).val) (oneStored 0x58) ∧
    Readable (oneStored 0x58).stack ((oneStored 0x58).view (oneStored 0x58).spReg).toNat
      (oneStored 0x58).stkSize.bytes := ⟨by decide, asked_stored _ _, Or.inr (by decide)⟩
theorem witness_LeaResult : latchesLegal (one 0x8D).mode (one 0x8D).latches = true ∧ RefAsked 0x08D (one 0x8D) :=
  ⟨by decide, asked _ _⟩
/-- A target at 0 and one below it. -/
theorem witness_CallResult : (one 0xE8).mode ≠ .real ∧ (one 0xE8).latches.p66 = false ∧
    (one 0xE8).stack.canonical = true ∧ RefAsked 0x0E8 (one 0xE8) ∧
    Writable (one 0xE8).stack ((one 0xE8).spAfterPush (one 0xE8).mode.addrWidth.bytes)
      (one 0xE8).mode.addrWidth.bytes ∧
    0 ≤ ((one 0xE8).ip : Int) + 5 + (0xFFFFFFFB : BitVec 32).toInt ∧
    ((one 0xE8).ip : Int) + 5 + (0xFFFFFFFA : BitVec 32).toInt < 0 :=
  ⟨by decide, by decide, by decide, asked _ _, Or.inr (by decide), by decide, by decide⟩
theorem witness_ReferenceUnitsDecline :
    (RefLast 0x090 ((one 0x90).withLatches (withRex false false false true)) ∧
      ((one 0x90).withLatches (withRex false false false true)).latches.rexB = true ∧
      ((one 0x90).withLatches (withRex false false false true)).latches.esc = false ∧
      ((one 0x90).withLatches (withRex false false false true)).running = true ∧
      ((one 0x90).withLatches (withRex false false false true)).code[0]? = some 0x90) ∧
    (RefLast 0x08D (long noLatch 0 [0x8D, 0xFF] []) ∧ (long noLatch 0 [0x8D, 0xFF] []).running = true ∧
      (long noLatch 0 [0x8D, 0xFF] []).code[0]? = some 0x8D ∧
      (long noLatch 0 [0x8D, 0xFF] []).code[0 + 1]? = some (packByte 3 7 7)) ∧
    (RefLast 0x0E8 ((one 0xE8).withLatches ⟨false, true, false, none⟩) ∧
      ((one 0xE8).withLatches ⟨false, true, false, none⟩).latches.p66 = true ∧
      ((one 0xE8).withLatches ⟨false, true, false, none⟩).running = true ∧ (one 0xE8).code[0]? = some 0xE8) ∧
    RefLast 0x0E8 ((one 0xE8).withMode .real) ∧ ((one 0xE8).withMode .real).mode = .real :=
  ⟨⟨⟨[], [], rfl, by simp, by simp⟩, by decide⟩, ⟨⟨[], [], rfl, by simp, by simp⟩, by decide⟩,
    ⟨⟨[], [], rfl, by simp, by simp⟩, by decide⟩, ⟨[], [], rfl, by simp, by simp⟩, rfl⟩

/-- Nothing is stored, so a load below the top has no byte, and one byte further it is above the top; POP; under
Forgiving. -/
theorem witness_StackErrorKeepsMovedIp : latchesLegal (one 0x8B).mode (one 0x8B).latches = true ∧
    opcodeOf (.movRRm 0 (.mem (.direct 3 .none))) = some 0x08B ∧ RefAsked 0x08B (one 0x8B) ∧
    ((one 0x8B).loadOf (.movRRm 0 (.mem (.direct 3 (.disp8 4)))) = some (0x7FFC, 4) ∧
      ¬ Readable (one 0x8B).stack 0x7FFC 4 ∧ ¬ (one 0x8B).stack.top < 0x7FFC + (4 : Nat) - 1) ∧
    ((one 0x8B).loadOf (.xorRRm 0 (.mem (.direct 3 (.disp8 5)))) = some (0x7FFD, 4) ∧
      ¬ Readable (one 0x8B).stack 0x7FFD 4 ∧ (one 0x8B).stack.top < 0x7FFD + (4 : Nat) - 1) ∧
    ((one 0x8B).loadOf (.popR 7) = some (0x7FF8, 8) ∧ ¬ Readable (one 0x8B).stack 0x7FF8 8) ∧
    (one 0x8B).stack.policy = .strict ∧
    (((one 0x8B).withStack ⟨0x7FFF, 0x1000, .forgiving, 0, []⟩).stack.policy = .forgiving ∧
      ¬ Readable ⟨0x7FFF, 0x1000, .forgiving, 0, []⟩ 0x7FFC 4) :=
  ⟨by decide, rfl, asked _ _, ⟨by decide, by unfold Readable; decide, by decide⟩,
    ⟨by decide, by unfold Readable; decide, by decide⟩, ⟨by decide, by unfold Readable; decide⟩, rfl,
    rfl, by unfold Readable; decide⟩
/-- A store one byte above the top, and one that would grow the stack by one byte too many. -/
theorem witness_StackErrorKeepsMovedIp_store : (one 0x89).storeOf (.movRmR 0 (.mem (.direct 3 (.disp8 5)))) =
    some (0x7FFD, 4) ∧ writesLogicFlags (.movRmR 0 (.mem (.direct 3 (.disp8 5)))) = false ∧
    ¬ Writable (one 0x89).stack 0x7FFD 4 ∧
    (one 0x89).storeOf (.movRm8R8 0 (.mem (.direct 3 (.disp32 0xFFFFF007)))) = some (0x6FFF, 1) ∧
    ¬ Writable (one 0x89).stack 0x6FFF 1 :=
  ⟨by decide, rfl, by unfold Writable Dropped; decide, by decide, by unfold Writable Dropped; decide⟩
/-- The stack pointer as `reset()` leaves it: the address is above the top; and one below the stack's room. -/
theorem witness_PushErrorKeepsStackPointer : latchesLegal (long noLatch 0 [0x50] []).mode
    (long noLatch 0 [0x50] []).latches = true ∧ RefAsked (0x050 + (0 : RegId).val) (long noLatch 0 [0x50] []) ∧
    ¬ Writable (long noLatch 0 [0x50] []).stack ((long noLatch 0 [0x50] []).spAfterPush 8) 8 ∧
    (long noLatch 0 [0x50] []).stkSize.bytes = 8 ∧
    ¬ Writable (long noLatch 0 [0x50] [(4, 0x7007)]).stack ((long noLatch 0 [0x50] [(4, 0x7007)]).spAfterPush 8) 8 ∧
    ((long noLatch 0 [0xE8] []).mode ≠ .real ∧ (long noLatch 0 [0xE8] []).latches.p66 = false ∧
      RefAsked 0x0E8 (long noLatch 0 [0xE8] []) ∧ (long noLatch 0 [0xE8] []).mode.addrWidth.bytes = 8) :=
  ⟨by decide, ⟨[], [], rfl, by simp⟩, by unfold Writable Dropped; decide, by decide, by unfold Writable Dropped; decide,
    by decide, by decide, ⟨[], [], rfl, by simp⟩, by decide⟩
/-- A buffer of Long mode at its first byte. -/
def cutOff (code : List Byte) : State := long noLatch 0 code []

theorem asked_cutOff (op : Nat) (code : List Byte) : RefAsked op (cutOff code) := ⟨[], [], rfl, by simp⟩

/-- The last byte of a buffer is missing, in each of the ways: an immediate, CALL's displacement, ModRM, SIB, the
displacement behind a SIB, of the RIP form and of the Direct form. -/
theorem witness_TruncatedOperandRaises :
    (∀ code ∈ ([[0xB8, 0, 0, 0], [0xB0], [0xE8, 0, 0, 0], [0x8D], [0x8D, 0x44], [0x8D, 0x84, 0, 0, 0, 0],
        [0x8D, 0x05, 0, 0, 0], [0x8D, 0x40], [0x8D, 0x85, 0, 0, 0]] : List (List Byte)),
      (cutOff code).running = true ∧ (cutOff code).latches.esc = false ∧
        latchesLegal (cutOff code).mode (cutOff code).latches = true ∧ RefAsked code.head!.toNat (cutOff code)) ∧
    ((cutOff [0xB8, 0, 0, 0]).code[0]? = some (opcodeWithReg 0xB8 0) ∧ (cutOff [0xB8, 0, 0, 0]).opSize.bytes = 4) ∧
    ((cutOff [0xB0]).code[0]? = some (opcodeWithReg 0xB0 0) ∧ (cutOff [0xE8, 0, 0, 0]).mode ≠ .real ∧
      (cutOff [0xE8, 0, 0, 0]).latches.p66 = false) ∧
    (0x8D : Byte) ∈ ([0x31, 0x33, 0x88, 0x89, 0x8A, 0x8B, 0x8D] : List Byte) ∧
    ([packByte 1 0 4, packByte 2 0 4, packByte 0 0 5, packByte 1 0 0, packByte 2 0 5] : List Byte) =
      [0x44, 0x84, 0x05, 0x40, 0x85] ∧
    ((2 : Fin 4) = 1 ∧ 4 = 1 ∨ (2 : Fin 4) = 2 ∧ 4 = 4) := by
  refine ⟨?_, by decide, by decide, by decide, by decide, by decide⟩
  intro code h
  refine ⟨?_, rfl, rfl, asked_cutOff _ _⟩
  revert h
  exact (by decide : ∀ code ∈ ([[0xB8, 0, 0, 0], [0xB0], [0xE8, 0, 0, 0], [0x8D], [0x8D, 0x44],
    [0x8D, 0x84, 0, 0, 0, 0], [0x8D, 0x05, 0, 0, 0], [0x8D, 0x40], [0x8D, 0x85, 0, 0, 0]] : List (List Byte)),
      (cutOff code).running = true) code
/-- Windows at the two ends of a buffer of three bytes. -/
theorem witness_TruncatedOperandRaises_codeRead : ((0 : Int) ≤ 2 ∧ (2 : Int) + (1 : Nat) ≤ (cutOff [1, 2, 3]).code.length) ∧
    ((cutOff [1, 2, 3]).code.length : Int) < 3 + (1 : Nat) ∧ (-1 : Int) < 0 := by decide

theorem witness_RegisterFormFrame : ∃ d t, opcodeOf (.xorRRm 0 (.mem (.direct 3 .none))) = some 0x033 ∧
    (oneStored 0x33).destOf (.xorRRm 0 (.mem (.direct 3 .none))) = some d ∧ RefAsked 0x033 (oneStored 0x33) ∧
    exec (.xorRRm 0 (.mem (.direct 3 .none))) (oneStored 0x33) = .next t :=
  ⟨_, _, rfl, rfl, asked_stored _ _, rfl⟩
theorem witness_StoreFormFrame : ∃ t, opcodeOf (.movRmR 0 (.mem (.direct 3 .none))) = some 0x089 ∧
    (one 0x89).storeOf (.movRmR 0 (.mem (.direct 3 .none))) = some (0x7FF8, 4) ∧
    (one 0x89).stack.canonical = true ∧ RefAsked 0x089 (one 0x89) ∧
    exec (.movRmR 0 (.mem (.direct 3 .none))) (one 0x89) = .next t :=
  ⟨_, rfl, by decide, by decide, asked _ _, rfl⟩
theorem witness_StackUnitFrame : ∃ t u v, (opcodeOf (.pushR 0) = some 0x050 ∧ RefAsked 0x050 (one 0x50) ∧
      (one 0x50).stack.canonical = true ∧ exec (.pushR 0) (one 0x50) = .next t) ∧
    (opcodeOf (.callRel32 0) = some 0x0E8 ∧ RefAsked 0x0E8 (one 0x50) ∧ (one 0x50).mode ≠ .real ∧
      (one 0x50).latches.p66 = false ∧ exec (.callRel32 0) (one 0x50) = .next u) ∧
    RefAsked (0x058 + (0 : RegId).val) (oneStored 0x58) ∧ exec (.popR 0) (oneStored 0x58) = .next v :=
  ⟨_, _, _, ⟨rfl, asked _ _, by decide, rfl⟩, ⟨rfl, asked _ _, by decide, by decide, rfl⟩, asked_stored _ _, rfl⟩

/-- Above the top by one byte; at the lowest address that is not written; at the lowest that is. -/
theorem witness_StrictReadRule : stackK5.top < 0x10 + (2 : Nat) - 1 ∧
    ((0x09 : Int) + (2 : Nat) - 1 ≤ stackK5.top ∧ (0x09 : Int) - (stackK5.top - stackK5.len) - 1 < 0) ∧
    ((0x0A : Int) + (7 : Nat) - 1 ≤ stackK5.top ∧ 0 ≤ (0x0A : Int) - (stackK5.top - stackK5.len) - 1) := by decide
/-- K4 (a gap), K5 (an overlap), K11 (too long). -/
theorem witness_GrowthEquation : (stackK5.canonical = true ∧ (0x0C : Int) + (2 : Nat) - 1 ≤ 0x10) ∧
    ((stack25 1 [(0, 0xAA)]).off 0x0C < 0 ∧ (2 : Int) ≤ -(stack25 1 [(0, 0xAA)]).off 0x0C) ∧
    ((stack25 5 [(0, 0xAA)]).off 0x0A < 0 ∧ ¬ (4 : Int) ≤ -(stack25 5 [(0, 0xAA)]).off 0x0A ∧
      (stack25 5 [(0, 0xAA)]).top - 0x0A + 1 ≤ (stack25 5 [(0, 0xAA)]).max) ∧
    ((stack25 1 [(0, 0xAA)]).off (0x10 - 127) < 0 ∧
      ((stack25 1 [(0, 0xAA)]).max : Int) < (stack25 1 [(0, 0xAA)]).top - (0x10 - 127) + 1) := by decide
theorem witness_InPlaceWriteEquation : stackK5.canonical = true ∧ (0x0A : Int) + (7 : Nat) - 1 ≤ stackK5.top ∧
    0 ≤ stackK5.off 0x0A := by decide
theorem witness_ClearTrimsLeadingZeros : stackK5.canonical = true ∧ (0x0F : Int) + (2 : Nat) - 1 ≤ stackK5.top ∧
    0 ≤ stackK5.off 0x0F := by decide
theorem witness_PolicyTable : stackK5.policy = .strict ∧ (Stack.policy ⟨0x10, 127, .forgiving, 0, []⟩) = .forgiving ∧
    (Stack.policy ⟨0x10, 127, .null, 0, []⟩) = .null ∧
    (Stack.top ⟨0x10, 127, .forgiving, 0, []⟩ < 0x11 + (1 : Nat) - 1) ∧
    (Stack.off ⟨0x10, 127, .forgiving, 0, []⟩ (0x10 - 127) < 0 ∧
      (127 : Int) < Stack.top ⟨0x10, 127, .forgiving, 0, []⟩ - (0x10 - 127) + 1) := by decide
theorem witness_ResolverComputesEffectiveAddress : latchesLegal ((one 0x8D).withIp 2).mode
    ((one 0x8D).withIp 2).latches = true ∧ (0 : Fin 4) ≠ 3 ∧ 2 ≤ ((one 0x8D).withIp 2).ip ∧
    decodeMem ((one 0x8D).withIp 2).mode 0 5 (((one 0x8D).withIp 2).code.drop ((one 0x8D).withIp 2).ip) =
      some (.rip 0, [0, 0, 0]) := by decide
/-- The lowest and the highest one-bit mask, a mask of two bits, one above FLAGS_WIDTH, and none. -/
theorem witness_FlagAccess : (1 = 2 ^ (0 : Fin 32).val ∧ 0x80000000 = 2 ^ (31 : Fin 32).val) ∧
    (¬ ∃ k : Fin 32, 0x44 = 2 ^ k.val) ∧ (¬ ∃ k : Fin 32, 2 ^ 32 = 2 ^ k.val) ∧ ¬ ∃ k : Fin 32, 0 = 2 ^ k.val := by
  decide
theorem witness_TaintShutsCommandsOut : ((one 0x90).withTaint true).tainted = true ∧
    (∃ n, Command.setStackSize 5 = .setStackSize n) ∧
    ¬ (Command.getFlags = .reset ∨ (∃ m, Command.getFlags = .setMode m) ∨
      (∃ a, Command.getFlags = .setStackAddress a) ∨ (∃ n, Command.getFlags = .setStackSize n) ∨
      (∃ b, Command.getFlags = .setAddressBase b) ∨ (∃ u, Command.getFlags = .registerInstructions u) ∨
      ∃ bs, Command.getFlags = .setCodeBuffer bs) := ⟨rfl, ⟨_, rfl⟩, by simp⟩
/-- ip is 1: an advance by -1 is the last that is taken, one by -2 is refused. -/
theorem witness_PointerCommands : ((one 0x90).withIp 1).tainted = false ∧ 0 ≤ (((one 0x90).withIp 1).ip : Int) + -1 ∧
    (((one 0x90).withIp 1).ip : Int) + -2 < 0 ∧ (0 : Int) ≤ 0 ∧ (-1 : Int) < 0 := by decide
theorem witness_HostAccessCommands : (one 0x90).tainted = false ∧
    (slotExists (one 0x90).mode (.ext 7 .w64) = true ∧ widthFits (one 0x90).mode (.ext 7 .w64) = true) ∧
    (slotExists .real (.legacy 0 .w32) = true ∧ widthFits .real (.legacy 0 .w32) = false) ∧
    split (stackK5.read 0x0C 3) = (none, some [0x03, 0x04, 0x00]) ∧
    split (stackK5.read 0x10 2) = (some (.stackUnderflow 0x10 2), none) ∧
    split (bytesAfter (stackK5.write 0x10 [0xBB])) = (none, some [0x01, 0x02, 0x03, 0x04, 0x00, 0x00, 0xBB]) ∧
    split (bytesAfter (stackK5.write 0x10 [1, 2])) = (some (.stackUnderflow 0x10 2), none) ∧
    split (bytesAfter (stackK5.clear 0x0A 7)) = (none, some []) ∧
    split (bytesAfter (stackK5.clear 0x09 1)) = (some (.stackIndex 0x09 1), none) := by decide

/-- The flag clauses of the same statement: a mask of one bit is answered and written (43_host_interface.md R250, R251). -/
theorem witness_HostAccessCommands_flags :
    (∃ b, getFlag 0x40 (one 0x90) = .ok b (one 0x90)) ∧ ∃ t, setFlag 0x40 true (one 0x90) = .ok ⟨⟩ t :=
  ⟨⟨_, rfl⟩, ⟨_, rfl⟩⟩

end Sys2Proof.Tests
end

section
/-! The stack's accesses by policy (20_memory.md R70 to R72): what each operation is under Strict, Forgiving and Null,
in terms of the strict operation's answer. -/

namespace Sys2Proof.Machine.Stack

open Sys2Proof Sys2Proof.Machine

/-! ### The errors of the strict operations -/

/-- A strict read fails with an error that Forgiving absorbs (R68, R70). -/
theorem absorbed_of_strictRead_error {st : Stack} {a : Int} {n : Nat} {e : FatalError}
    (h : st.strictRead a n = .error e) : absorbed e = true := by
  unfold strictRead at h
  split_ifs at h <;> cases h <;> rfl

/-- A strict clear fails with an error that Forgiving absorbs (R68, R72). -/
theorem absorbed_of_strictClear_error {st : Stack} {a : Int} {n : Nat} {e : FatalError}
    (h : st.strictClear a n = .error e) : absorbed e = true := by
  unfold strictClear at h
  split_ifs at h <;> cases h <;> rfl

/-- A write whose last byte lies above the top is StackUnderflow, whatever its first byte (R68, D24). -/
theorem strictWrite_of_above_top {st : Stack} {a : Int} {bs : List Byte} (h : st.top < a + bs.length - 1) :
    st.strictWrite a bs = .error (.stackUnderflow a bs.length) :=
  if_pos h

/-- Growth beyond STACK_MAX is StackOverflow (R77). -/
theorem strictWrite_of_growth_beyond_max {st : Stack} {a : Int} {bs : List Byte} (ht : a + bs.length - 1 ≤ st.top)
    (ho : st.off a < 0) (hm : st.max < st.top - a + 1) :
    st.strictWrite a bs = .error (.stackOverflow a bs.length) := by
  rw [strictWrite, if_neg ht.not_gt, if_neg ho.not_ge, if_pos hm]

/-! ### Strict -/

section Strict
variable {st : Stack} (hp : st.policy = .strict)
include hp

theorem read_of_strict (a : Int) (n : Nat) : st.read a n = st.strictRead a n := by simp only [read, hp]

theorem write_of_strict (a : Int) (bs : List Byte) : st.write a bs = st.strictWrite a bs := by simp only [write, hp]

theorem clear_of_strict (a : Int) (n : Nat) : st.clear a n = st.strictClear a n := by simp only [clear, hp]

end Strict

/-! ### Forgiving: a success and an error that is not absorbed pass through, an absorbed error does nothing -/

section Forgiving
variable {st : Stack} (hp : st.policy = .forgiving) {a : Int} {n : Nat} {bs : List Byte}
include hp

theorem read_of_forgiving_ok {r : List Byte} (h : st.strictRead a n = .ok r) : st.read a n = .ok r := by
  simp only [read, hp, h]

theorem read_of_forgiving_error {e : FatalError} (h : st.strictRead a n = .error e) : st.read a n = .ok [] := by
  simp only [read, hp, h, absorbed_of_strictRead_error h, if_true]

theorem write_of_forgiving_ok {st' : Stack} (h : st.strictWrite a bs = .ok st') : st.write a bs = .ok st' := by
  simp only [write, hp, h]

theorem write_of_forgiving_error {e : FatalError} (h : st.strictWrite a bs = .error e) :
    st.write a bs = if absorbed e then .ok st else .error e := by
  simp only [write, hp, h]

theorem clear_of_forgiving_ok {st' : Stack} (h : st.strictClear a n = .ok st') : st.clear a n = .ok st' := by
  simp only [clear, hp, h]

theorem clear_of_forgiving_error {e : FatalError} (h : st.strictClear a n = .error e) : st.clear a n = .ok st := by
  simp only [clear, hp, h, absorbed_of_strictClear_error h, if_true]

end Forgiving

/-! ### Null -/

section Null
variable {st : Stack} (hp : st.policy = .null)
include hp

theorem read_of_null (a : Int) (n : Nat) : st.read a n = .ok (List.replicate n 0) := by simp only [read, hp]

theorem write_of_null (a : Int) (bs : List Byte) : st.write a bs = .ok st := by simp only [write, hp]

theorem clear_of_null (a : Int) (n : Nat) : st.clear a n = .ok st := by simp only [clear, hp]

end Null

/-- Settles O51, by the policy: a strict read's or clear's errors are all absorbed by Forgiving, and a write's
StackOverflow is the one error that is not. -/
theorem policyTable : Obligations.PolicyTable := by
  intro st a n bytes _ _
  refine ⟨fun hp => ?strict, fun hp => ?forgiving, fun hp => ?null⟩
  case strict => exact ⟨read_of_strict hp a n, write_of_strict hp a bytes, clear_of_strict hp a n⟩
  case forgiving =>
    refine ⟨fun _ => read_of_forgiving_ok hp, fun _ => read_of_forgiving_error hp, fun _ => write_of_forgiving_ok hp,
      fun habove => ?_, fun ht ho hm => ?_, fun _ => clear_of_forgiving_ok hp, fun _ => clear_of_forgiving_error hp⟩
    · exact write_of_forgiving_error hp (strictWrite_of_above_top habove)
    · exact write_of_forgiving_error hp (strictWrite_of_growth_beyond_max ht ho hm)
  case null => exact ⟨read_of_null hp a n, write_of_null hp a bytes, clear_of_null hp a n⟩

end Sys2Proof.Machine.Stack
end

section
/-! The scan step (40_decode_dispatch.md R141 to R146): where the decoder reads an instruction's operands ahead, the
dispatch of the opcode byte, which reads them from the code buffer itself, does the same. So every step of a running
state is the scan step of the spec's loop, whatever the class of the byte at ip. -/

namespace Sys2Proof.Machine

open Sys2Proof

/-! ### The step of a running state -/

theorem running_iff (s : State) :
    s.running = true ↔ s.tainted = false ∧ s.faulted = none ∧ s.ip < s.code.length := by
  simp [State.running, and_assoc]

theorem step_of_fetch_ok {s : State} (hr : s.running = true) {p : Instr × List Byte} (h : fetch s = .ok p) :
    step s = exec p.1 s := by
  obtain ⟨ht, hf, hip⟩ := (running_iff s).mp hr
  simp [step, ht, hf, hip.not_ge, h]

theorem step_of_fetch_error {s : State} (hr : s.running = true) {r : Reject} (h : fetch s = .error r) :
    step s = execRejected r s := by
  obtain ⟨ht, hf, hip⟩ := (running_iff s).mp hr
  simp [step, ht, hf, hip.not_ge, h]

/-- The decoder sees the byte at ip and the bytes behind it. -/
theorem fetch_of_byte {s : State} {b : Byte} (h : s.code[s.ip]? = some b) :
    fetch s = decode s.ctx (b :: s.code.drop (s.ip + 1)) := by
  obtain ⟨hlt, rfl⟩ := List.getElem?_eq_some_iff.mp h
  rw [fetch, List.drop_eq_getElem_cons hlt]

/-! ### A body depends on the fetch of its operands at the current state alone -/

section
variable {f g : UnitM Fetched} {s : State} (h : f s = g s)
include h

theorem xorRmRBody_congr : xorRmRBody f s = xorRmRBody g s := by
  simp only [xorRmRBody, bind_get]; exact bind_same h

theorem xorRRmBody_congr : xorRRmBody f s = xorRRmBody g s := by
  simp only [xorRRmBody, bind_get]; exact bind_same h

theorem moveToRm_congr (w : Width) : moveToRm w f s = moveToRm w g s := bind_same h

theorem moveToReg_congr (w : Width) : moveToReg w f s = moveToReg w g s := bind_same h

theorem leaBody_congr : leaBody f s = leaBody g s := by
  simp only [leaBody, bind_get]; exact bind_same h

end

theorem callBody_congr {f g : UnitM Word} {s : State} (h : f s = g s) : callBody f s = callBody g s := by
  simp only [callBody, bind_get]
  split_ifs
  · rfl
  · exact bind_same h

theorem movR8Imm8Body_congr (r : RegId) {f g : UnitM Word} {s : State} (h : f s = g s) :
    movR8Imm8Body r f s = movR8Imm8Body r g s := bind_same h

theorem movRImmBody_congr (r : RegId) {f g : Nat → UnitM Word} {s : State}
    (h : f s.opSize.bytes s = g s.opSize.bytes s) : movRImmBody r f s = movRImmBody r g s := by
  simp only [movRImmBody, bind_get]; exact bind_same h

/-! ### Operands read ahead -/

/-- A ModRM operand read ahead is fetched as it is from the code buffer (45_reference_units.md R289). -/
theorem fetchOperand_of_decoded {s : State} {f : RegId → RmOperand → Instr} {i : Instr} {rest : List Byte}
    (h : ((decodeModRM s.mode (s.code.drop (s.ip + 1))).map fun p => (f p.1 p.2.1, p.2.2)) = some (i, rest)) :
    ∃ reg rm, i = f reg rm ∧ fetchModRM s = fetchOperand reg rm s := by
  obtain ⟨⟨reg, rm, rest'⟩, hd, he⟩ := Option.map_eq_some_iff.mp h
  cases he
  exact ⟨reg, rm, rfl, fetchModRM_eq hd⟩

theorem leNat_of_takeBytes {n : Nat} {bs : List Byte} {p : List Byte × List Byte} (h : takeBytes n bs = some p) :
    leNat p.1 < 256 ^ n := by
  unfold takeBytes at h
  split_ifs at h with hl
  cases h
  simpa [hl] using leNat_lt (bs.take n)

/-- Bytes that fit a width stand for the same value in a word of it, zero-extended to a cell. -/
theorem setWidth_ofNat_of_lt {w v : Nat} (h : v < 2 ^ w) : (BitVec.ofNat w v).setWidth 64 = BitVec.ofNat 64 v := by
  apply BitVec.eq_of_toNat_eq
  simp [Nat.mod_eq_of_lt h]

/-- The immediate of MOV r, imm holds the value of its bytes (45_reference_units.md R280). -/
theorem immValue_immOf {w : Width} {v : Nat} (h : v < 256 ^ w.bytes) : immValue (immOf w v) = BitVec.ofNat 64 v := by
  cases w with
  | w8 => exact setWidth_ofNat_of_lt (h.trans (by decide))
  | w16 => exact setWidth_ofNat_of_lt h
  | w32 => exact setWidth_ofNat_of_lt h
  | w64 => rfl

/-! ### The dispatch of a reference row -/

/-- The key of a reference row, `r` being the register id where the opcode holds one (30_encoding.md R116, R122). -/
def refKey (r : RegId) : RefRow → Nat
  | .nop => 0x090
  | .xorRmR => 0x031
  | .xorRRm => 0x033
  | .movRm8R8 => 0x088
  | .movRmR => 0x089
  | .movR8Rm8 => 0x08A
  | .movRRm => 0x08B
  | .movR8Imm8 => 0x0B0 + r.val
  | .movRImm => 0x0B8 + r.val
  | .pushR => 0x050 + r.val
  | .popR => 0x058 + r.val
  | .leaRM => 0x08D
  | .callRel32 => 0x0E8

/-- An opcode byte that announces a reference row is that row's key. -/
theorem effOpcode_eq_refKey : ∀ (esc : Bool) (b : Byte), ∀ row ∈ refRow (effOpcode esc b),
    effOpcode esc b = refKey (byteLow b) row := by
  decide

theorem refRow_of_rowOf {c : DecodeCtx} {b : Byte} {row : RefRow} (h : rowOf c b = some row) :
    refRow (effOpcode c.latches.esc b) = some row := (Option.filter_eq_some_iff.mp h).1


/-- A callback that answers at the current state as REF's own is dispatched as the opcode byte is. -/
theorem dispatch_refKey {s : State} {b : Byte} {row : RefRow} {m : UnitM Unit}
    (hrow : refRow (effOpcode s.latches.esc b) = some row) (hm : refCallback (effOpcode s.latches.esc b) s = m s) :
    dispatch (refKey (byteLow b) row) m s = execOpcode b s := by
  rw [execOpcode, ← effOpcode_eq_refKey _ _ row hrow]
  exact walk_congr hm.symm s.units

/-- The instruction that the decoder reads from a reference row means what the dispatch of its opcode byte does. -/
theorem exec_of_decodeRow {s : State} {b : Byte} {row : RefRow} {i : Instr} {rest : List Byte}
    (hrow : rowOf s.ctx b = some row) (h : decodeRow s.ctx row b (s.code.drop (s.ip + 1)) = some (i, rest)) :
    exec i s = execOpcode b s := by
  have hkey : refRow (effOpcode s.latches.esc b) = some row := refRow_of_rowOf hrow
  have hreg : opReg (effOpcode s.latches.esc b) = byteLow b := byteLow_opReg _ b
  cases row with
  | nop => cases h; exact dispatch_refKey hkey (by rw [refCallback, hkey])
  | xorRmR =>
    obtain ⟨reg, rm, rfl, hf⟩ := fetchOperand_of_decoded h
    exact dispatch_refKey hkey (by rw [refCallback, hkey]; exact xorRmRBody_congr hf)
  | xorRRm =>
    obtain ⟨reg, rm, rfl, hf⟩ := fetchOperand_of_decoded h
    exact dispatch_refKey hkey (by rw [refCallback, hkey]; exact xorRRmBody_congr hf)
  | movRm8R8 =>
    obtain ⟨reg, rm, rfl, hf⟩ := fetchOperand_of_decoded h
    exact dispatch_refKey hkey (by rw [refCallback, hkey]; exact moveToRm_congr hf _)
  | movRmR =>
    obtain ⟨reg, rm, rfl, hf⟩ := fetchOperand_of_decoded h
    exact dispatch_refKey hkey (by rw [refCallback, hkey]; exact moveToRm_congr hf _)
  | movR8Rm8 =>
    obtain ⟨reg, rm, rfl, hf⟩ := fetchOperand_of_decoded h
    exact dispatch_refKey hkey (by rw [refCallback, hkey]; exact moveToReg_congr hf _)
  | movRRm =>
    obtain ⟨reg, rm, rfl, hf⟩ := fetchOperand_of_decoded h
    exact dispatch_refKey hkey (by rw [refCallback, hkey]; exact moveToReg_congr hf _)
  | movR8Imm8 =>
    obtain ⟨p, hp, he⟩ := Option.map_eq_some_iff.mp h
    cases he
    refine dispatch_refKey hkey ?_
    rw [refCallback, hkey, hreg, setWidth_ofNat_of_lt (leNat_of_takeBytes hp)]
    exact movR8Imm8Body_congr _ (fetchImm_eq (by decide) hp)
  | movRImm =>
    obtain ⟨p, hp, he⟩ := Option.map_eq_some_iff.mp h
    cases he
    refine dispatch_refKey hkey ?_
    rw [refCallback, hkey, hreg, immValue_immOf (leNat_of_takeBytes hp)]
    exact movRImmBody_congr _ (fetchImm_eq (bytes_pos _) hp)
  | pushR => cases h; exact dispatch_refKey hkey (by rw [refCallback, hkey, hreg])
  | popR => cases h; exact dispatch_refKey hkey (by rw [refCallback, hkey, hreg])
  | leaRM =>
    obtain ⟨reg, rm, rfl, hf⟩ := fetchOperand_of_decoded h
    exact dispatch_refKey hkey (by rw [refCallback, hkey]; exact leaBody_congr hf)
  | callRel32 =>
    obtain ⟨p, hp, he⟩ := Option.map_eq_some_iff.mp h
    cases he
    refine dispatch_refKey hkey ?_
    rw [refCallback, hkey, setWidth_ofNat_of_lt (leNat_of_takeBytes hp)]
    exact callBody_congr (fetchImm_eq (by decide) hp)

/-! ### The scan step -/

/-- A byte of the class OPCODE is dispatched, whether it announces a reference row with all its operands, one whose
operands are cut off, or none (40_decode_dispatch.md R146; log entry 16). -/
theorem step_of_opcode {s : State} {b : Byte} (hr : s.running = true) (hb : s.code[s.ip]? = some b)
    (hc : byteClass s.ctx b = .opcode) : step s = execOpcode b s := by
  have hf := fetch_of_byte hb
  simp only [decode, hc] at hf
  cases hrow : rowOf s.ctx b with
  | none =>
    simp only [hrow] at hf
    exact step_of_fetch_ok hr hf
  | some row =>
    cases hops : decodeRow s.ctx row b (s.code.drop (s.ip + 1)) with
    | none =>
      simp only [hrow, hops] at hf
      exact step_of_fetch_error hr hf
    | some p =>
      simp only [hrow, hops] at hf
      exact (step_of_fetch_ok hr hf).trans (exec_of_decodeRow hrow hops)

/-- The step of a running state is the scan step of the spec's loop. -/
theorem step_eq_scanStep {s : State} {b : Byte} (hr : s.running = true) (hb : s.code[s.ip]? = some b) :
    step s = scanStep s b := by
  have hf := fetch_of_byte hb
  cases hc : byteClass s.ctx b with
  | opcode => simpa only [scanStep, hc] using step_of_opcode hr hb hc
  | escape | opsize | addrsize | rex =>
    simp only [decode, hc] at hf
    simp only [scanStep, hc]
    exact step_of_fetch_ok hr hf

end Sys2Proof.Machine
end

section
/-! The classes of R102 by mode and latches, and the effect of the step on a byte of each. -/

namespace Sys2Proof.Machine

open Sys2Proof

/-- The REX range, as the spec's mask test and as an interval (30_encoding.md R102). -/
theorem rexNibble_iff : ∀ b : Byte, b &&& 0xF0 = 0x40 ↔ 0x40 ≤ b.toNat ∧ b.toNat ≤ 0x4F := by
  decide

section
variable {c : DecodeCtx} {b : Byte}

theorem byteClass_escape (h : b = 0x0F ∧ c.mode ≠ .real) : byteClass c b = .escape := if_pos h

theorem byteClass_opsize (h : b = 0x66 ∧ c.mode ≠ .real ∧ c.latches.esc = false) : byteClass c b = .opsize := by
  rw [byteClass, if_neg (by simp [h.1]), if_pos h]

theorem byteClass_addrsize (h : b = 0x67 ∧ c.mode ≠ .real ∧ c.latches.esc = false) : byteClass c b = .addrsize := by
  rw [byteClass, if_neg (by simp [h.1]), if_neg (by simp [h.1]), if_pos h]

theorem byteClass_rex (h : 0x40 ≤ b.toNat ∧ b.toNat ≤ 0x4F ∧ c.mode = .long ∧ c.latches.esc = false) :
    byteClass c b = .rex := by
  obtain ⟨hlo, hhi, hmode, hesc⟩ := h
  rw [byteClass, if_neg, if_neg, if_neg, if_pos ⟨(rexNibble_iff b).mpr ⟨hlo, hhi⟩, hmode, hesc⟩] <;>
    (rintro ⟨rfl, -⟩; simp at hlo hhi)

theorem byteClass_opcode (hescape : ¬ (b = 0x0F ∧ c.mode ≠ .real))
    (hprefix : ¬ ((b = 0x66 ∨ b = 0x67) ∧ c.mode ≠ .real ∧ c.latches.esc = false))
    (hrex : ¬ (0x40 ≤ b.toNat ∧ b.toNat ≤ 0x4F ∧ c.mode = .long ∧ c.latches.esc = false)) :
    byteClass c b = .opcode := by
  rw [byteClass, if_neg hescape, if_neg fun h => hprefix ⟨.inl h.1, h.2⟩, if_neg fun h => hprefix ⟨.inr h.1, h.2⟩,
    if_neg]
  rw [rexNibble_iff, and_assoc]
  exact hrex

end

/-- Settles O17: the step is the scan step, and R102's tests give the class in each case. -/
theorem byteClassesByMode : Obligations.ByteClassesByMode := by
  intro s b hr hb
  have hstep : step s = scanStep s b := step_eq_scanStep hr hb
  rw [hstep, scanStep]
  refine ⟨fun h => ?escape, fun h => ?opsize, fun h => ?addrsize, fun h => ?rex, fun ⟨he, hp, hx⟩ => ?opcode⟩
  case escape => rw [byteClass_escape h]; rfl
  case opsize => rw [byteClass_opsize h]; rfl
  case addrsize => rw [byteClass_addrsize h]; rfl
  case rex => rw [byteClass_rex h]; rfl
  case opcode => rw [byteClass_opcode he hp hx]

end Sys2Proof.Machine
end

section
/-! The end of the chain (40_decode_dispatch.md R148): where every record lets the effective opcode pass, it is
invalid; in particular where the one record of the chain is registered for another key (R158). -/

namespace Sys2Proof.Machine

open Sys2Proof

/-- A record whose map lacks the effective opcode lets it pass (40_decode_dispatch.md R146). -/
theorem passes_of_map_lacking {op : Nat} {s : State} {name : String} {map : List (Nat × Callback)}
    (h : map.find? (fun e => e.1 == op) = none) : Passes op s (.host name map) := by
  simp only [Passes, h]

/-- Where every record of the chain lets the effective opcode pass, the opcode is invalid (40_decode_dispatch.md R148). -/
theorem dispatch_of_all_pass {op : Nat} {s : State} (h : ∀ u ∈ s.units, Passes op s u) (ref : UnitM Unit) :
    dispatch op ref s = .next (s.takeFatal (.invalidOpcode op (s.addressBase + s.ip))) := by
  have hend : walk op ref s (s.units ++ []) = walk op ref s [] := walk_front h []
  rw [List.append_nil] at hend
  exact hend

/-- One unit alone, registered for one key, is not invoked by an opcode byte with another effective opcode. -/
theorem execOpcode_of_lone_other_key {s : State} {b : Byte} {name : String} {key : Nat} {c : Callback}
    (hu : s.units = [.host name [(key, c)]]) (hkey : key ≠ effOpcode s.latches.esc b) :
    execOpcode b s = .next (s.takeFatal (.invalidOpcode (effOpcode s.latches.esc b) (s.addressBase + s.ip))) := by
  have hpass : ∀ u ∈ s.units, Passes (effOpcode s.latches.esc b) s u := by
    rw [hu, List.forall_mem_singleton]
    exact passes_of_map_lacking (by simp [hkey])
  exact dispatch_of_all_pass hpass _

/-- Settles O21: the escape latch makes 0xF90 of the byte 0x90, and the one record's key is the other of the two. -/
theorem twoByteIsolation : Obligations.TwoByteIsolation := by
  intro s name c
  constructor <;> intro hesc hu
  · have hop : effOpcode s.latches.esc 0x90 = 0x090 := by rw [hesc]; rfl
    rw [← hop]
    exact execOpcode_of_lone_other_key hu (by rw [hop]; decide)
  · have hop : effOpcode s.latches.esc 0x90 = 0xF90 := by rw [hesc]; rfl
    rw [← hop]
    exact execOpcode_of_lone_other_key hu (by rw [hop]; decide)

end Sys2Proof.Machine
end

section
/-! The register file's access rules (41_register_file.md R186, R187) and the round trip (R191). -/

namespace Sys2Proof.Machine

open Sys2Proof

/-! ### The width check (41_register_file.md R188) -/

theorem widthFits_iff {m : Mode} {d : Descriptor} : widthFits m d = true ↔ d.width.bits ≤ m.maxWidth :=
  decide_eq_true_iff

section
variable {s : State} {d : Descriptor} (hslot : slotExists s.mode d = true) (hwide : s.mode.maxWidth < d.width.bits)
include hslot hwide

theorem checkRegister_of_too_wide : checkRegister d s = .error (.fatal (.registerWidthExceedsMode d)) s := by
  have hfit : widthFits s.mode d = false := decide_eq_false (Nat.not_le.mpr hwide)
  simp [checkRegister, hslot, hfit]

theorem regRead_of_too_wide : regRead d s = .error (.fatal (.registerWidthExceedsMode d)) s :=
  bind_of_error (checkRegister_of_too_wide hslot hwide)

theorem regWrite_of_too_wide (v : Word) : regWrite d v s = .error (.fatal (.registerWidthExceedsMode d)) s :=
  bind_of_error (checkRegister_of_too_wide hslot hwide)

end

/-! ### The value under a mask (decision D6, log entry 23) -/

theorem mask_toNat (w : Width) : w.mask.toNat = 2 ^ w.bits - 1 := by
  cases w <;> rfl

/-- Masking to a width reduces modulo 2^width. -/
theorem masked_toNat (v : Word) (w : Width) : (v &&& w.mask).toNat = v.toNat % 2 ^ w.bits := by
  rw [BitVec.toNat_and, mask_toNat, Nat.and_two_pow_sub_one_eq_mod]

theorem masked_eq_self {v : Word} {w : Width} (h : v.toNat < 2 ^ w.bits) : v &&& w.mask = v :=
  BitVec.eq_of_toNat_eq (by rw [masked_toNat, Nat.mod_eq_of_lt h])

/-! ### A slot after a write -/

/-- In Long mode a write of 32 or 64 bits replaces the whole slot (41_register_file.md R187). -/
theorem slotAfterWrite_of_replace {m : Mode} {d : Descriptor} (h : m = .long ∧ 32 ≤ d.width.bits) (p : Params)
    (old v : Word) : slotAfterWrite m p d old v = v &&& d.mask :=
  if_pos h

/-- Replaced or merged, the slot holds the value's bits at the view's place. -/
theorem slotAfterWrite_bit_of_view (m : Mode) (p : Params) (d : Descriptor) (old v : Word) {k : Nat}
    (hk : k < d.width.bits) : (slotAfterWrite m p d old v).getLsbD (d.shift p + k) = v.getLsbD k := by
  obtain ⟨hfits, hzero⟩ := shift_fits p d
  by_cases h : m = .long ∧ 32 ≤ d.width.bits
  · have hmask : d.mask.getLsbD k = true := by rw [Descriptor.mask, mask_bit, decide_eq_true hk]
    rw [slotAfterWrite_of_replace h, hzero h.2, Nat.zero_add, BitVec.getLsbD_and, hmask, Bool.and_true]
  · rw [slotAfterWrite_bit m p d old v h _ (by omega), if_pos (by omega), Nat.add_sub_cancel_left]

theorem putView_slot_same (s : State) (d : Descriptor) (v : Word) :
    (s.putView d v).slots.get d.slot = slotAfterWrite s.mode s.params d (s.slots.get d.slot) v := by
  rw [State.putView_slots, slots_get_set, if_pos rfl]

theorem putView_slot_other (s : State) {d : Descriptor} (v : Word) {j : Fin 16} (h : j ≠ d.slot) :
    (s.putView d v).slots.get j = s.slots.get j := by
  rw [State.putView_slots, slots_get_set, if_neg h.symm]

/-- The view after a write is the value under the descriptor's mask. -/
theorem putView_view_same (s : State) (d : Descriptor) (v : Word) : (s.putView d v).view d = v &&& d.mask := by
  refine BitVec.eq_of_getLsbD_eq fun k _ => ?_
  rw [view_bit, putView_slot_same, State.putView_params, BitVec.getLsbD_and, Descriptor.mask, mask_bit]
  by_cases hk : k < d.width.bits
  · rw [slotAfterWrite_bit_of_view _ _ _ _ _ hk, Bool.and_comm]
  · rw [decide_eq_false hk, Bool.false_and, Bool.and_false]

/-! ### The three statements -/

/-- Settles O23: the view after the write is the value under the mask, which a value below 2^width survives. -/
theorem registerRoundTrip : Obligations.RegisterRoundTrip := by
  intro s d v hslot hwidth hv
  have hfit : widthFits s.mode d = true := by
    rw [widthFits_iff]
    cases hm : s.mode <;> rw [hm] at hwidth <;> exact hwidth
  have hview : (s.putView d v).view d = v := (putView_view_same s d v).trans (masked_eq_self hv)
  have hread : regRead d (s.putView d v) = .ok ((s.putView d v).view d) (s.putView d v) := regRead_eq hslot hfit
  exact ⟨s.putView d v, regWrite_eq hslot hfit v, by rw [hread, hview]⟩

/-- Settles O24: a write that passes the width check is `putView`, which touches one slot and either replaces or merges. -/
theorem registerWriteRule : Obligations.RegisterWriteRule := by
  intro s d v hslot
  refine ⟨fun hwide => regWrite_of_too_wide hslot hwide v, fun hfit => ?_⟩
  refine ⟨s.putView d v, regWrite_eq hslot (widthFits_iff.mpr hfit) v, rfl, fun j hj => putView_slot_other s v hj,
    fun hreplace => ?_, fun hmerge k hk => ?_⟩ <;> rw [putView_slot_same]
  · rw [slotAfterWrite_of_replace hreplace]
    exact masked_toNat v d.width
  · exact slotAfterWrite_bit _ _ _ _ _ hmerge k hk

/-- Settles O27: a read that passes the width check answers the view. -/
theorem registerReadRule : Obligations.RegisterReadRule := by
  intro s d hslot
  refine ⟨regRead_of_too_wide hslot, fun hfit => ?_⟩
  exact ⟨s.view d, regRead_eq hslot (widthFits_iff.mpr hfit), fun k _ => view_bit s d k⟩

end Sys2Proof.Machine
end

section
/-! The resolver's guard (42_address_resolver.md R212). -/

namespace Sys2Proof.Machine

open Sys2Proof

/-- Settles O52: the guard on `mod` is the resolver's first test, ahead of every read of the buffer and the registers. -/
theorem resolverGuard : Obligations.ResolverGuard := by
  intro s reg rm
  rw [resolve, bind_get, if_pos rfl, raise_apply]

end Sys2Proof.Machine
end

section
/-! The host's commands that the taint does not shut out (43_host_interface.md R241). -/

namespace Sys2Proof.Machine

open Sys2Proof

/-- R241: a command that does not check the taint runs in every state, a tainted one included. -/
theorem command_of_unchecked {c : Command} (h : c.checksTaint = false) (s : State) : command c s = runCommand c s := by
  rw [command, h, Bool.false_and, if_neg Bool.false_ne_true]

/-- Settles O56: none of the four checks the taint, so each is its own effect in every state (R260 to R263). -/
theorem reconfigurationTaints : Obligations.ReconfigurationTaints := by
  intro s m a b n
  refine ⟨?setMode, ?setStackAddress, ?setStackSize, ?setAddressBase⟩
  all_goals rw [command_of_unchecked rfl, runCommand]

end Sys2Proof.Machine
end

section
/-! The codec: the decoder reads back what the encoder writes, and writes nothing that the decoder would not read
(30_encoding.md sections 2 to 10). -/

namespace Sys2Proof.Machine

open Sys2Proof

/-! ### Byte strings -/

theorem takeBytes_append (xs rest : List Byte) : takeBytes xs.length (xs ++ rest) = some (xs, rest) := by
  simp [takeBytes]

theorem takeBytes_bytesLe (v n : Nat) (rest : List Byte) :
    takeBytes n (bytesLe v n ++ rest) = some (bytesLe v n, rest) := by
  simpa only [bytesLe_length] using takeBytes_append (bytesLe v n) rest

/-- The bytes taken and the rest are the whole string. -/
theorem takeBytes_eq_some {n : Nat} {bs : List Byte} {p : List Byte × List Byte} (h : takeBytes n bs = some p) :
    p.1.length = n ∧ bs = p.1 ++ p.2 := by
  unfold takeBytes at h
  split_ifs at h with hn
  cases h
  exact ⟨List.length_take_of_le hn, (List.take_append_drop n bs).symm⟩

/-- A byte string is the little-endian string of its value (20_memory.md R80). -/
theorem bytesLe_leNat (bs : List Byte) : bytesLe (leNat bs) bs.length = bs := by
  induction bs with
  | nil => rfl
  | cons b bs ih =>
    have hlow : BitVec.ofNat 8 (b.toNat + 256 * leNat bs) = b := by
      apply BitVec.eq_of_toNat_eq
      rw [BitVec.toNat_ofNat]
      omega
    have hhigh : (b.toNat + 256 * leNat bs) / 256 = leNat bs := by omega
    rw [leNat, List.length_cons, bytesLe, hlow, hhigh, ih]

/-- A word keeps the value of a string as long as itself. -/
theorem ofNat_leNat_toNat {w : Nat} {bs : List Byte} (h : 256 ^ bs.length = 2 ^ w) :
    (BitVec.ofNat w (leNat bs)).toNat = leNat bs := by
  rw [BitVec.toNat_ofNat, Nat.mod_eq_of_lt (h ▸ leNat_lt bs)]

/-- A word read back from its own little-endian string. -/
theorem ofNat_leNat_bytesLe {w n : Nat} (h : 256 ^ n = 2 ^ w) (v : BitVec w) :
    BitVec.ofNat w (leNat (bytesLe v.toNat n)) = v := by
  rw [leNat_bytesLe, h, Nat.mod_eq_of_lt v.isLt, BitVec.ofNat_toNat, BitVec.setWidth_eq]

/-- A string as long as a word is the little-endian string of the word it is read as. -/
theorem bytesLe_ofNat_leNat {w n : Nat} {bs : List Byte} (hn : bs.length = n) (h : 256 ^ n = 2 ^ w) :
    bytesLe (BitVec.ofNat w (leNat bs)).toNat n = bs := by
  subst hn
  rw [ofNat_leNat_toNat h, bytesLe_leNat]

/-! ### Displacements and immediates -/

theorem decodeDisp_bytes (d : Disp) (rest : List Byte) : decodeDisp d.mod (d.bytes ++ rest) = some (d, rest) := by
  cases d with
  | none => rfl
  | disp8 v => simp [Disp.mod, Disp.bytes, decodeDisp, takeBytes, leNat]
  | disp32 v => simp [Disp.mod, Disp.bytes, decodeDisp, takeBytes_bytesLe, ofNat_leNat_bytesLe]

theorem decodeDisp_eq_some {mod : Fin 4} {bs rest : List Byte} {d : Disp} (h : decodeDisp mod bs = some (d, rest)) :
    d.mod = mod ∧ bs = d.bytes ++ rest := by
  match mod, h with
  | 0, h => cases h; exact ⟨rfl, rfl⟩
  | 1, h =>
    obtain ⟨⟨x, r⟩, hx, he⟩ := Option.map_eq_some_iff.mp h
    cases he
    obtain ⟨hlen, rfl⟩ := takeBytes_eq_some hx
    obtain ⟨b, rfl⟩ := List.length_eq_one_iff.mp hlen
    exact ⟨rfl, by simp [Disp.bytes, leNat]⟩
  | 2, h =>
    obtain ⟨⟨x, r⟩, hx, he⟩ := Option.map_eq_some_iff.mp h
    cases he
    obtain ⟨hlen, rfl⟩ := takeBytes_eq_some hx
    exact ⟨rfl, by rw [Disp.bytes, bytesLe_ofNat_leNat hlen (by decide)]⟩
  | 3, h => cases h

theorem disp_mod_ne_three (d : Disp) : d.mod ≠ 3 := by cases d <;> simp [Disp.mod]

theorem opWidth_ne_w8 (c : DecodeCtx) : opWidth c ≠ .w8 := by
  unfold opWidth
  split_ifs <;> decide

theorem immOf_bytes {c : DecodeCtx} {v : Imm} (h : v.wf (opWidth c) = true) :
    v.bytes.length = (opWidth c).bytes ∧ immOf (opWidth c) (leNat v.bytes) = v := by
  cases v with
  | imm16 v =>
    rw [eq_of_beq h]
    exact ⟨bytesLe_length _ _, congrArg Imm.imm16 (ofNat_leNat_bytesLe (by decide) v)⟩
  | imm32 v =>
    rw [eq_of_beq h]
    exact ⟨bytesLe_length _ _, congrArg Imm.imm32 (ofNat_leNat_bytesLe (by decide) v)⟩
  | imm64 v =>
    rw [eq_of_beq h]
    exact ⟨bytesLe_length _ _, congrArg Imm.imm64 (ofNat_leNat_bytesLe (by decide) v)⟩

theorem bytes_immOf {w : Width} (hw : w ≠ .w8) {bs : List Byte} (h : bs.length = w.bytes) :
    (immOf w (leNat bs)).wf w = true ∧ (immOf w (leNat bs)).bytes = bs := by
  cases w with
  | w8 => exact absurd rfl hw
  | w16 => exact ⟨rfl, bytesLe_ofNat_leNat h (by decide)⟩
  | w32 => exact ⟨rfl, bytesLe_ofNat_leNat h (by decide)⟩
  | w64 => exact ⟨rfl, bytesLe_ofNat_leNat h (by decide)⟩

/-! ### The ModRM operand -/

section
variable (hi : Fin 4) (mid low : RegId)

@[simp] theorem byteHi_packByte : byteHi (packByte hi mid low) = hi := (fields_packByte hi mid low).1
@[simp] theorem byteMid_packByte : byteMid (packByte hi mid low) = mid := (fields_packByte hi mid low).2.1
@[simp] theorem byteLow_packByte : byteLow (packByte hi mid low) = low := (fields_packByte hi mid low).2.2

end

theorem disp_mod_eq_zero {d : Disp} : d.mod = 0 ↔ d = .none := by
  cases d <;> simp [Disp.mod]

theorem direct_wf_iff {mode : Mode} {base : RegId} {d : Disp} :
    (MemOperand.direct base d).wf mode = true ↔ base ≠ 4 ∧ ¬ (base = 5 ∧ d.mod = 0 ∧ mode = .long) := by
  simp [MemOperand.wf, disp_mod_eq_zero, imp_iff_not_or, or_assoc]

theorem decodeModRM_encodeModRM {mode : Mode} (reg : RegId) {rm : RmOperand} (h : rm.wf mode = true)
    (rest : List Byte) : decodeModRM mode (encodeModRM reg rm ++ rest) = some (reg, rm, rest) := by
  match rm, h with
  | .reg r, _ => simp [encodeModRM, decodeModRM]
  | .mem (.sib s i b d), _ =>
    simp [encodeModRM, decodeModRM, decodeMem, disp_mod_ne_three, decodeDisp_bytes]
  | .mem (.rip d), h =>
    have hmode : mode = .long := by simpa [RmOperand.wf, MemOperand.wf] using h
    simp [encodeModRM, decodeModRM, decodeMem, hmode, takeBytes_bytesLe, ofNat_leNat_bytesLe]
  | .mem (.direct b d), h =>
    obtain ⟨hbase, hrip⟩ := direct_wf_iff.mp h
    simp [encodeModRM, decodeModRM, decodeMem, disp_mod_ne_three, decodeDisp_bytes, hbase, if_neg hrip]

/-- The memory operand that a ModRM byte announces fits the mode, and its own encoding announces it again. -/
theorem decodeMem_eq_some {mode : Mode} {mod : Fin 4} {rm : RegId} {bs rest : List Byte} {m : MemOperand}
    (h : decodeMem mode mod rm bs = some (m, rest)) (reg : RegId) :
    m.wf mode = true ∧ packByte mod reg rm :: bs = encodeModRM reg (.mem m) ++ rest := by
  unfold decodeMem at h
  split_ifs at h with hsib hrip
  · subst hsib
    cases bs with
    | nil => cases h
    | cons sib bs =>
      obtain ⟨⟨d, r⟩, hd, he⟩ := Option.map_eq_some_iff.mp h
      cases he
      obtain ⟨rfl, rfl⟩ := decodeDisp_eq_some hd
      exact ⟨rfl, by simp [encodeModRM, packByte_fields]⟩
  · obtain ⟨rfl, rfl, hmode⟩ := hrip
    obtain ⟨⟨x, r⟩, hx, he⟩ := Option.map_eq_some_iff.mp h
    cases he
    obtain ⟨hlen, rfl⟩ := takeBytes_eq_some hx
    refine ⟨by simp [MemOperand.wf, hmode], ?_⟩
    rw [encodeModRM, bytesLe_ofNat_leNat hlen (by decide), List.cons_append]
  · obtain ⟨⟨d, r⟩, hd, he⟩ := Option.map_eq_some_iff.mp h
    cases he
    obtain ⟨rfl, rfl⟩ := decodeDisp_eq_some hd
    exact ⟨direct_wf_iff.mpr ⟨hsib, hrip⟩, by simp [encodeModRM]⟩

theorem decodeModRM_eq_some {mode : Mode} {bs rest : List Byte} {reg : RegId} {rm : RmOperand}
    (h : decodeModRM mode bs = some (reg, rm, rest)) : rm.wf mode = true ∧ bs = encodeModRM reg rm ++ rest := by
  cases bs with
  | nil => cases h
  | cons m bs =>
    simp only [decodeModRM] at h
    split_ifs at h with hreg
    · cases h
      exact ⟨rfl, by rw [encodeModRM, ← hreg, packByte_fields]; rfl⟩
    · obtain ⟨⟨o, r⟩, ho, he⟩ := Option.map_eq_some_iff.mp h
      cases he
      have henc := decodeMem_eq_some ho (byteMid m)
      rw [packByte_fields] at henc
      exact henc

/-! ### Reference rows -/

/-- The opcode byte of a reference row (30_encoding.md R116, R122). -/
def refByte (r : RegId) (row : RefRow) : Byte := BitVec.ofNat 8 (refKey r row)

theorem refRow_refByte (r : RegId) (row : RefRow) : refRow (refByte r row).toNat = some row := by
  revert r
  cases row <;> decide

/-- No byte of a leading class is a reference opcode (30_encoding.md R102, R116). -/
theorem refRow_of_leading : ∀ b : Byte, b = 0x0F ∨ b = 0x66 ∨ b = 0x67 ∨ (0x40 ≤ b.toNat ∧ b.toNat ≤ 0x4F) →
    refRow b.toNat = none := by
  decide

/-- A reference opcode is an opcode byte in every context (30_encoding.md R102). -/
theorem byteClass_of_reference (c : DecodeCtx) {b : Byte} (h : (refRow b.toNat).isSome = true) :
    byteClass c b = .opcode := by
  have hlead : ¬ (b = 0x0F ∨ b = 0x66 ∨ b = 0x67 ∨ (0x40 ≤ b.toNat ∧ b.toNat ≤ 0x4F)) := fun hl => by
    rw [refRow_of_leading b hl] at h
    cases h
  exact byteClass_opcode (by tauto) (by tauto) (by tauto)

/-- A reference opcode is one byte without the escape, and that byte is its row's (30_encoding.md R116, R122). -/
theorem refByte_of_refRow : ∀ (esc : Bool) (b : Byte), ∀ row ∈ refRow (effOpcode esc b),
    esc = false ∧ b = refByte (byteLow b) row := by
  decide

/-- The decoder on a reference row's opcode byte reads the row's operands. -/
theorem decode_refByte {c : DecodeCtx} {r : RegId} {row : RefRow} {bs : List Byte} {p : Instr × List Byte}
    (hadm : refAdmitted c row = true) (h : decodeRow c row (refByte r row) bs = some p) :
    decode c (refByte r row :: bs) = .ok p := by
  obtain ⟨hesc, hwhen⟩ : c.latches.esc = false ∧ refWhen c row = true := by simpa [refAdmitted] using hadm
  have hclass : byteClass c (refByte r row) = .opcode := byteClass_of_reference c (by rw [refRow_refByte]; rfl)
  have hrow : rowOf c (refByte r row) = some row := by
    simp [rowOf, effOpcode, hesc, refRow_refByte, hwhen]
  simp only [decode, hclass, hrow, h]

/-- The decoder on a row whose operands are a ModRM operand alone. -/
theorem decode_refByte_modRM {c : DecodeCtx} {row : RefRow} {f : RegId → RmOperand → Instr}
    (hrow : ∀ b bs, decodeRow c row b bs = (decodeModRM c.mode bs).map fun p => (f p.1 p.2.1, p.2.2))
    (reg : RegId) {rm : RmOperand} (h : (refAdmitted c row && rm.wf c.mode) = true) (rest : List Byte) :
    decode c (refByte 0 row :: encodeModRM reg rm ++ rest) = .ok (f reg rm, rest) := by
  obtain ⟨hadm, hrm⟩ := Bool.and_eq_true_iff.mp h
  exact decode_refByte hadm (by rw [hrow, List.append_eq, decodeModRM_encodeModRM reg hrm]; rfl)

/-- The register id in the low bits of an opcode byte that holds one (30_encoding.md R122). -/
theorem byteLow_refByte : ∀ r : RegId, byteLow (refByte r .movR8Imm8) = r ∧ byteLow (refByte r .movRImm) = r ∧
    byteLow (refByte r .pushR) = r ∧ byteLow (refByte r .popR) = r := by
  decide

theorem rex_byte_range : ∀ w r x b : Bool, 0x40 ≤ (Rex.byte ⟨w, r, x, b⟩).toNat ∧ (Rex.byte ⟨w, r, x, b⟩).toNat ≤ 0x4F ∧
    rexOfByte (Rex.byte ⟨w, r, x, b⟩) = ⟨w, r, x, b⟩ := by
  decide

/-- A REX byte is the one of its four low bits (30_encoding.md R110). -/
theorem byte_rexOfByte : ∀ b : Byte, b &&& 0xF0 = 0x40 → (rexOfByte b).byte = b := by
  decide

/-- Settles O2, by the constructors: a leading byte by its class, every reference instruction by its row. -/
theorem decodeOfEncode : Obligations.DecodeOfEncode := by
  intro c i rest h
  cases i with
  | esc2 =>
    have hclass : byteClass c 0x0F = .escape := byteClass_escape ⟨rfl, by simpa [wellFormed] using h⟩
    simp only [encode, List.singleton_append, decode, hclass]
  | opsize =>
    have hclass : byteClass c 0x66 = .opsize := byteClass_opsize ⟨rfl, by simpa [wellFormed] using h⟩
    simp only [encode, List.singleton_append, decode, hclass]
  | addrsize =>
    have hclass : byteClass c 0x67 = .addrsize := byteClass_addrsize ⟨rfl, by simpa [wellFormed] using h⟩
    simp only [encode, List.singleton_append, decode, hclass]
  | rex r =>
    obtain ⟨hlo, hhi, hbits⟩ := rex_byte_range r.w r.r r.x r.b
    have hclass : byteClass c r.byte = .rex := byteClass_rex ⟨hlo, hhi, by simpa [wellFormed] using h⟩
    simp only [encode, List.singleton_append, decode, hclass]
    exact congrArg (fun q => Except.ok (Instr.rex q, rest)) hbits
  | opcode b =>
    obtain ⟨hclass, hrow⟩ : byteClass c b = .opcode ∧ rowOf c b = none := by simpa [wellFormed] using h
    simp only [encode, List.singleton_append, decode, hclass, hrow]
  | nop => exact decode_refByte (r := 0) (row := .nop) h rfl
  | xorRmR reg rm => exact decode_refByte_modRM (row := .xorRmR) (fun _ _ => rfl) reg h rest
  | xorRRm reg rm => exact decode_refByte_modRM (row := .xorRRm) (fun _ _ => rfl) reg h rest
  | movRm8R8 reg rm => exact decode_refByte_modRM (row := .movRm8R8) (fun _ _ => rfl) reg h rest
  | movRmR reg rm => exact decode_refByte_modRM (row := .movRmR) (fun _ _ => rfl) reg h rest
  | movR8Rm8 reg rm => exact decode_refByte_modRM (row := .movR8Rm8) (fun _ _ => rfl) reg h rest
  | movRRm reg rm => exact decode_refByte_modRM (row := .movRRm) (fun _ _ => rfl) reg h rest
  | leaRM reg rm => exact decode_refByte_modRM (row := .leaRM) (fun _ _ => rfl) reg h rest
  | movR8Imm8 r v =>
    refine decode_refByte (r := r) (row := .movR8Imm8) h ?_
    simp [decodeRow, takeBytes, leNat, (byteLow_refByte r).1]
  | movRImm r v =>
    obtain ⟨hadm, hv⟩ := Bool.and_eq_true_iff.mp h
    obtain ⟨hlen, himm⟩ := immOf_bytes hv
    refine decode_refByte (r := r) (row := .movRImm) hadm ?_
    simp [decodeRow, ← hlen, takeBytes_append, himm, (byteLow_refByte r).2.1]
  | pushR r =>
    refine decode_refByte (r := r) (row := .pushR) h ?_
    simp [decodeRow, (byteLow_refByte r).2.2.1]
  | popR r =>
    refine decode_refByte (r := r) (row := .popR) h ?_
    simp [decodeRow, (byteLow_refByte r).2.2.2]
  | callRel32 rel =>
    refine decode_refByte (r := 0) (row := .callRel32) h ?_
    simp [decodeRow, takeBytes_bytesLe, ofNat_leNat_bytesLe]

/-- Settles O1: the decoder is evaluated on each word of the table. -/
theorem tableWordsDecode : Obligations.TableWordsDecode :=
  ⟨rfl, rfl, rfl, rfl, rfl, rfl, rfl, rfl, rfl, rfl, rfl, rfl, rfl, rfl⟩

/-! ### What the decoder accepts -/

/-- A row whose operands are a ModRM operand alone: what it reads is well-formed and encodes to the bytes taken. -/
theorem encode_of_decoded_modRM {c : DecodeCtx} {row : RefRow} {b : Byte} {bs rest : List Byte} {i : Instr}
    {f : RegId → RmOperand → Instr} (hadm : refAdmitted c row = true) (hb : b = refByte (byteLow b) row)
    (hwf : ∀ reg rm, wellFormed c (f reg rm) = (refAdmitted c row && rm.wf c.mode))
    (henc : ∀ reg rm, encode (f reg rm) = refByte (byteLow b) row :: encodeModRM reg rm)
    (h : ((decodeModRM c.mode bs).map fun p => (f p.1 p.2.1, p.2.2)) = some (i, rest)) :
    wellFormed c i = true ∧ b :: bs = encode i ++ rest := by
  obtain ⟨⟨reg, rm, r⟩, hp, he⟩ := Option.map_eq_some_iff.mp h
  cases he
  obtain ⟨hrm, rfl⟩ := decodeModRM_eq_some hp
  exact ⟨by rw [hwf, hadm, hrm]; rfl, by rw [henc, ← hb]; rfl⟩

/-- The operands that a reference row reads are well-formed, and the opcode byte with the bytes taken is their
encoding. -/
theorem decodeRow_eq_some {c : DecodeCtx} {row : RefRow} {b : Byte} {bs rest : List Byte} {i : Instr}
    (hadm : refAdmitted c row = true) (hb : b = refByte (byteLow b) row)
    (h : decodeRow c row b bs = some (i, rest)) : wellFormed c i = true ∧ b :: bs = encode i ++ rest := by
  cases row with
  | nop => cases h; exact ⟨hadm, by rw [hb]; rfl⟩
  | xorRmR => exact encode_of_decoded_modRM hadm hb (f := .xorRmR) (fun _ _ => rfl) (fun _ _ => rfl) h
  | xorRRm => exact encode_of_decoded_modRM hadm hb (f := .xorRRm) (fun _ _ => rfl) (fun _ _ => rfl) h
  | movRm8R8 => exact encode_of_decoded_modRM hadm hb (f := .movRm8R8) (fun _ _ => rfl) (fun _ _ => rfl) h
  | movRmR => exact encode_of_decoded_modRM hadm hb (f := .movRmR) (fun _ _ => rfl) (fun _ _ => rfl) h
  | movR8Rm8 => exact encode_of_decoded_modRM hadm hb (f := .movR8Rm8) (fun _ _ => rfl) (fun _ _ => rfl) h
  | movRRm => exact encode_of_decoded_modRM hadm hb (f := .movRRm) (fun _ _ => rfl) (fun _ _ => rfl) h
  | leaRM => exact encode_of_decoded_modRM hadm hb (f := .leaRM) (fun _ _ => rfl) (fun _ _ => rfl) h
  | movR8Imm8 =>
    obtain ⟨⟨x, r⟩, hx, he⟩ := Option.map_eq_some_iff.mp h
    cases he
    obtain ⟨hlen, rfl⟩ := takeBytes_eq_some hx
    obtain ⟨v, rfl⟩ := List.length_eq_one_iff.mp hlen
    refine ⟨hadm, ?_⟩
    have : encode (.movR8Imm8 (byteLow b) (BitVec.ofNat 8 (leNat [v]))) = [refByte (byteLow b) .movR8Imm8, v] := by
      simp [leNat]; rfl
    rw [this, ← hb]; rfl
  | movRImm =>
    obtain ⟨⟨x, r⟩, hx, he⟩ := Option.map_eq_some_iff.mp h
    cases he
    obtain ⟨hlen, rfl⟩ := takeBytes_eq_some hx
    obtain ⟨hwf, hbytes⟩ := bytes_immOf (opWidth_ne_w8 c) hlen
    refine ⟨Bool.and_eq_true_iff.mpr ⟨hadm, hwf⟩, ?_⟩
    rw [encode, hbytes]
    exact congrArg (· :: x ++ r) hb
  | pushR => cases h; exact ⟨hadm, congrArg (· :: bs) hb⟩
  | popR => cases h; exact ⟨hadm, congrArg (· :: bs) hb⟩
  | callRel32 =>
    obtain ⟨⟨x, r⟩, hx, he⟩ := Option.map_eq_some_iff.mp h
    cases he
    obtain ⟨hlen, rfl⟩ := takeBytes_eq_some hx
    refine ⟨hadm, ?_⟩
    rw [encode, bytesLe_ofNat_leNat hlen (by decide)]
    exact congrArg (· :: x ++ r) hb

/-- R102 read backwards: what each leading class says of its byte and context. -/
theorem leading_of_byteClass (c : DecodeCtx) (b : Byte) :
    (byteClass c b = .escape → b = 0x0F ∧ c.mode ≠ .real) ∧
    (byteClass c b = .opsize → b = 0x66 ∧ c.mode ≠ .real ∧ c.latches.esc = false) ∧
    (byteClass c b = .addrsize → b = 0x67 ∧ c.mode ≠ .real ∧ c.latches.esc = false) ∧
    (byteClass c b = .rex → b &&& 0xF0 = 0x40 ∧ c.mode = .long ∧ c.latches.esc = false) := by
  unfold byteClass
  split_ifs <;> simp_all

/-- Settles O3, by the class of the first byte; a byte of a reference row by the row's operands. -/
theorem encodeOfDecode : Obligations.EncodeOfDecode := by
  intro c bs rest i h
  cases bs with
  | nil => cases h
  | cons b bs =>
    simp only [decode] at h
    obtain ⟨hescape, hopsize, haddrsize, hrex⟩ := leading_of_byteClass c b
    cases hclass : byteClass c b with
    | escape =>
      simp only [hclass] at h
      cases h
      obtain ⟨rfl, hmode⟩ := hescape hclass
      exact ⟨by simp [wellFormed, hmode], rfl⟩
    | opsize =>
      simp only [hclass] at h
      cases h
      obtain ⟨rfl, hmode, hesc⟩ := hopsize hclass
      exact ⟨by simp [wellFormed, hmode, hesc], rfl⟩
    | addrsize =>
      simp only [hclass] at h
      cases h
      obtain ⟨rfl, hmode, hesc⟩ := haddrsize hclass
      exact ⟨by simp [wellFormed, hmode, hesc], rfl⟩
    | rex =>
      simp only [hclass] at h
      cases h
      obtain ⟨hnibble, hmode, hesc⟩ := hrex hclass
      exact ⟨by simp [wellFormed, hmode, hesc], by rw [encode, byte_rexOfByte b hnibble]; rfl⟩
    | opcode =>
      simp only [hclass] at h
      cases hrow : rowOf c b with
      | none =>
        simp only [hrow] at h
        cases h
        exact ⟨by simp [wellFormed, hclass, hrow], rfl⟩
      | some row =>
        simp only [hrow] at h
        cases hops : decodeRow c row b bs with
        | none => simp only [hops] at h; cases h
        | some p =>
          simp only [hops] at h
          cases h
          obtain ⟨hkey, hwhen⟩ := Option.filter_eq_some_iff.mp hrow
          obtain ⟨hesc, hb⟩ := refByte_of_refRow _ _ row hkey
          exact decodeRow_eq_some (by simp [refAdmitted, hesc, hwhen]) hb hops

end Sys2Proof.Machine
end

section
/-! The step (40_decode_dispatch.md R140 to R146): what it runs, and when it runs nothing. -/

namespace Sys2Proof.Machine

open Sys2Proof

/-- Settles O4: `fetch` is the decoder at ip, and a running state runs what it fetches. -/
theorem stepRunsDecodedInstruction : Obligations.StepRunsDecodedInstruction :=
  fun _ _ _ hr hd => step_of_fetch_ok hr hd

/-- Settles O5: a leading byte by its class, an opcode byte because its dispatch reads what the decoder read ahead. -/
theorem stepIsScanStep : Obligations.StepIsScanStep := fun _ _ => step_eq_scanStep

/-- Settles O16: `State.latch` writes the latches and ip. -/
theorem leadingBytesLatch : Obligations.LeadingBytesLatch := fun _ _ => ⟨rfl, rfl, rfl, rfl⟩

/-! ### No step is enabled -/

/-- R140, R241: a checked command fails at once while the engine is tainted. -/
theorem command_of_tainted {s : State} (ht : s.tainted = true) {c : Command} (hc : c.checksTaint = true) :
    command c s = .error .taintedEnvironment s := by
  rw [command, hc, ht, Bool.true_and, if_pos rfl]

/-- R241: a command of an untainted engine is its own effect. -/
theorem command_of_untainted {s : State} (ht : s.tainted = false) (c : Command) : command c s = runCommand c s := by
  rw [command, ht, Bool.and_false, if_neg Bool.false_ne_true]

/-- Settles O10: the taint is the first test of the step and of a checked command. -/
theorem taintedRunFails : Obligations.TaintedRunFails :=
  fun _ ht => ⟨if_pos ht, fun _ => command_of_tainted ht rfl⟩

/-- Settles O11: the fault record is the step's second test and `simulate`'s first, and `reset()` does not check it. -/
theorem faultedMachineTakesNoStep : Obligations.FaultedMachineTakesNoStep := by
  intro s e ht hf
  refine ⟨?step, fun bound => ?simulate, ?reset⟩
  case step => simp [step, ht, hf]
  case simulate => simp [command_of_untainted ht, runCommand, simulate, hf]
  case reset => exact ⟨s.hostReset, command_of_unchecked rfl s, State.hostReset_faulted s⟩

/-- R141: a run with nothing left to scan is over, whatever its bound. -/
theorem runLoop_at_end {s : State} (h : s.code.length ≤ s.ip) (bound : Nat) : runLoop bound s = .done s .nothing := by
  cases bound <;> exact if_pos h

/-- Settles O12: the step and the run both test ip against the buffer before they scan. -/
theorem runReturnsAtBufferEnd : Obligations.RunReturnsAtBufferEnd := by
  intro s ht hf hend
  refine ⟨by simp [step, ht, hf, hend], fun bound => ?_⟩
  rw [command_of_untainted ht, runCommand, simulate, hf]
  exact runLoop_at_end hend bound

end Sys2Proof.Machine
end

section
/-! What every step leaves as it was, and the invariant: a step is a latch of the mode or a dispatch, and a dispatch
makes only the changes of `DispatchStep`. -/

namespace Sys2Proof.Machine

open Sys2Proof

theorem SameConfiguration.refl (s : State) : SameConfiguration s s := ⟨rfl, rfl, rfl, rfl, rfl, rfl, rfl, rfl, rfl⟩

/-- A next state of a step: nothing was left to run, a leading byte set a latch that the mode admits, or a dispatch made
its changes. -/
theorem step_next_cases {s t : State} (h : step s = .next t) :
    t = s ∨ s.tainted = false ∧
      ((∃ l n, t = (s.withLatches l).withIp n ∧
        (latchesLegal s.mode s.latches = true → latchesLegal s.mode l = true)) ∨ DispatchStep s t) := by
  rcases step_cases h with rfl | ⟨hr, ⟨i, rest, hfetch, hi⟩ | ⟨b, hb⟩⟩
  · exact .inl rfl
  · refine .inr ⟨((running_iff s).mp hr).1, ?_⟩
    have hwf : wellFormed s.ctx i = true := (encodeOfDecode _ _ _ _ hfetch).1
    rcases exec_cases i s with ⟨l, n, he, hl⟩ | ⟨u, he, hu⟩ | ⟨r, he⟩
    · cases hi.symm.trans he
      refine .inl ⟨l, n, rfl, fun hlegal => ?_⟩
      rcases hl with ⟨rfl, rfl⟩ | ⟨rfl, rfl⟩ | ⟨rfl, rfl⟩ | ⟨r, rfl, rfl⟩ <;>
        simp_all [wellFormed, latchesLegal]
    · cases hi.symm.trans he
      exact .inr hu
    · cases hi.symm.trans he
  · refine .inr ⟨((running_iff s).mp hr).1, .inr ?_⟩
    rcases walk_cases (refCallback_steps (effOpcode s.latches.esc b)) s s.units with ⟨u, he, hu⟩ | ⟨r, he⟩
    · cases hb.symm.trans he
      exact hu
    · cases hb.symm.trans he

/-- Settles O9, by what a step can be. -/
theorem stepNeverWritesConfiguration : Obligations.StepNeverWritesConfiguration := by
  intro s t h
  rcases step_next_cases h with rfl | ⟨-, ⟨l, n, rfl, -⟩ | hd⟩
  · exact SameConfiguration.refl t
  · exact SameConfiguration.refl s
  · exact hd.configuration

/-! ### The invariant -/

theorem inv_iff (s : State) : s.inv = true ↔ s.stack.canonical = true ∧ (s.tainted = false →
    s.stack.fits = true ∧ latchesLegal s.mode s.latches = true ∧ slotsFit s.mode s.slots = true) := by
  cases h : s.tainted <;> simp [State.inv, h, and_assoc]

/-- The taint leaves only the canonical cells to ask for. -/
theorem inv_of_tainted {s : State} (ht : s.tainted = true) (hc : s.stack.canonical = true) : s.inv = true :=
  (inv_iff s).mpr ⟨hc, fun h => Bool.noConfusion (ht.symm.trans h)⟩

theorem latchesLegal_clear (m : Mode) : latchesLegal m .clear = true := by cases m <;> rfl

theorem slotsFit_zero (m : Mode) : slotsFit m (Vector.replicate 16 0) = true := by
  rw [slotsFit_iff]
  intro i
  have hz : (Vector.replicate 16 (0 : Word)).get i = 0 := by rw [Vector.get_eq_getElem, Vector.getElem_replicate]
  rw [hz]
  exact ⟨.inr rfl, Nat.two_pow_pos _⟩

theorem DispatchStep.inv {s t : State} (h : DispatchStep s t) (hs : s.inv = true) : t.inv = true := by
  obtain ⟨hcanon, hrest⟩ := (inv_iff s).mp hs
  obtain ⟨-, hmode, -, htaint, -⟩ := h.configuration
  refine (inv_iff t).mpr ⟨h.canonical hcanon, fun ht => ?_⟩
  obtain ⟨hfits, hlegal, hslots⟩ := hrest (htaint ▸ ht)
  rw [hmode]
  refine ⟨h.fits hcanon hfits, ?_, h.slots hslots⟩
  rcases h.latches with hl | hl <;> rw [hl]
  · exact hlegal
  · exact latchesLegal_clear _

theorem inv_of_latch {s : State} {l : Latches}
    (h : latchesLegal s.mode s.latches = true → latchesLegal s.mode l = true) (n : Nat) (hs : s.inv = true) :
    ((s.withLatches l).withIp n).inv = true := by
  obtain ⟨hcanon, hrest⟩ := (inv_iff s).mp hs
  refine (inv_iff _).mpr ⟨hcanon, fun ht => ?_⟩
  obtain ⟨hfits, hlegal, hslots⟩ := hrest ht
  exact ⟨hfits, h hlegal, hslots⟩

/-- Settles O6, by what a step can be. -/
theorem stepKeepsInvariant : Obligations.StepKeepsInvariant := by
  intro s t hs h
  rcases step_next_cases h with rfl | ⟨-, ⟨l, n, rfl, hl⟩ | hd⟩
  · exact hs
  · exact inv_of_latch hl n hs
  · exact hd.inv hs

/-- An engine with an empty stack, no latch set and zero slots meets the invariant in every mode. -/
theorem inv_of_empty {s : State} (hlen : s.stack.len = 0) (hmem : s.stack.mem = []) (hl : s.latches = .clear)
    (hslots : s.slots = Vector.replicate 16 0) : s.inv = true := by
  refine (inv_iff s).mpr ⟨?_, fun _ => ⟨?_, ?_, ?_⟩⟩
  · rw [Stack.canonical_iff, hmem]; exact ⟨rfl, Nat.zero_le _⟩
  · rw [Stack.fits_iff, hlen]; exact ⟨Nat.zero_le _, fun _ => rfl⟩
  · rw [hl]; exact latchesLegal_clear _
  · rw [hslots]; exact slotsFit_zero _

/-- Settles O7: power-on leaves the stack empty, the latches clear and the slots zero. -/
theorem powerOnMeetsInvariant : Obligations.PowerOnMeetsInvariant :=
  ⟨fun _ _ _ _ _ => inv_of_empty rfl rfl rfl rfl, inv_of_empty rfl rfl rfl rfl⟩

/-! ### The host's commands -/

/-- The state that a command leaves, where it leaves one. -/
def CommandResult.left : CommandResult → Option State
  | .done t _ => some t
  | .error _ t => some t
  | .didNotEnd t => some t
  | .stuck _ => none
  | .refused _ => none

theorem left_eq_some {r : CommandResult} {t : State}
    (h : (∃ a, r = .done t a) ∨ (∃ e, r = .error e t) ∨ r = .didNotEnd t) : r.left = some t := by
  rcases h with ⟨a, rfl⟩ | ⟨e, rfl⟩ | rfl <;> rfl

theorem UnitStep.dispatchStep {s t : State} (h : UnitStep s t) : DispatchStep s t :=
  ⟨h.configuration, .inl h.latches, h.canonical, h.fits, h.slots⟩

/-- An operation issued as a command keeps the invariant, whether it ends or stops. -/
theorem asCommand_inv {m : UnitM Reply} (hm : Steps m) {s t : State} (hs : s.inv = true)
    (h : (asCommand m s).left = some t) : t.inv = true := by
  have hstep : UnitStep s (stateAfter (m s)) := hm s
  unfold asCommand at h
  split at h <;> rename_i hms <;> rw [hms] at hstep <;> cases h
  · exact hstep.dispatchStep.inv hs
  · exact (hstep.takeFatal _).inv hs
  · exact hstep.dispatchStep.inv hs

/-- A run of any bound keeps the invariant, by its steps. -/
theorem runLoop_inv {bound : Nat} {s t : State} (hs : s.inv = true) (h : (runLoop bound s).left = some t) :
    t.inv = true := by
  induction bound generalizing s with
  | zero =>
    unfold runLoop at h
    split_ifs at h <;> cases h <;> exact hs
  | succ n ih =>
    unfold runLoop at h
    split_ifs at h
    · cases h; exact hs
    · split at h
      · rename_i u hu
        have hinv : u.inv = true := stepKeepsInvariant s u hs hu
        split at h
        · cases h; exact hinv
        · exact ih hinv h
      · cases h
      · cases h; exact hs
      · cases h

theorem simulate_inv {bound : Nat} {s t : State} (hs : s.inv = true) (h : (simulate bound s).left = some t) :
    t.inv = true := by
  unfold simulate at h
  split at h
  · cases h
  · exact runLoop_inv hs h

/-- A command's effect keeps the invariant: a reconfiguration behind the taint, `reset()` by emptying the stack. -/
theorem runCommand_inv {c : Command} {s t : State} (hs : s.inv = true) (h : (runCommand c s).left = some t) :
    t.inv = true := by
  have hcanon : s.stack.canonical = true := ((inv_iff s).mp hs).1
  cases c with
  | setCodeBuffer bytes => cases h; exact hs
  | simulate bound => exact simulate_inv hs h
  | reset => cases h; exact inv_of_empty rfl rfl rfl rfl
  | getInstructionPointer => cases h; exact hs
  | setInstructionPointer n => exact asCommand_inv ((setIp_steps _).bind fun _ => Steps.pure _) hs h
  | advanceInstructionPointer n => exact asCommand_inv ((setIp_steps _).bind fun _ => Steps.pure _) hs h
  | readRegister d => exact asCommand_inv ((regRead_steps _).bind fun _ => Steps.pure _) hs h
  | writeRegister d v => exact asCommand_inv ((regWrite_steps _ _).bind fun _ => Steps.pure _) hs h
  | getFlag m => exact asCommand_inv ((getFlag_steps _).bind fun _ => Steps.pure _) hs h
  | setFlag m b => exact asCommand_inv ((setFlag_steps _ _).bind fun _ => Steps.pure _) hs h
  | getFlags => cases h; exact hs
  | readStackAt a n => exact asCommand_inv ((memRead_steps _ _).bind fun _ => Steps.pure _) hs h
  | writeStackAt a bytes => exact asCommand_inv ((memWrite_steps _ _).bind fun _ => Steps.pure _) hs h
  | clearStackAt a n => exact asCommand_inv ((memClear_steps _ _).bind fun _ => Steps.pure _) hs h
  | getStack => cases h; exact hs
  | registerInstructions u => cases h; exact hs
  | setMode m => cases h; exact inv_of_tainted rfl hcanon
  | setStackAddress a => cases h; exact inv_of_tainted rfl hcanon
  | setStackSize n => cases h; exact inv_of_tainted rfl hcanon
  | setAddressBase b => cases h; exact inv_of_tainted rfl hcanon

/-- Settles O8: the taint check answers the state as it was, and every effect keeps the invariant. -/
theorem commandsKeepInvariant : Obligations.CommandsKeepInvariant := by
  intro c s t hs h
  replace h := left_eq_some h
  unfold command at h
  split_ifs at h
  · cases h; exact hs
  · exact runCommand_inv hs h

end Sys2Proof.Machine
end

section
/-! The walk along the chain (40_decode_dispatch.md R146 to R149): the records that let an opcode pass, REF among them,
and the host record that answers for it. -/

namespace Sys2Proof.Machine

open Sys2Proof

/-! ### One record -/

/-- What a record's answer makes of the dispatch, `rest` being that of the records behind it (40_decode_dispatch.md
R147, R148). -/
def Answer.outcome (rest : Host.Outcome State Fault Refusal) : Answer → Host.Outcome State Fault Refusal
  | .accept t => .next t.clearLatches
  | .decline => rest
  | .fatal e t => .next (t.takeFatal e)
  | .refused r => .refused r

theorem walk_of_callback {op : Nat} {ref m : UnitM Unit} {s : State} {u : UnitRecord}
    (h : callbackOf op ref u = some m) (us : List UnitRecord) :
    walk op ref s (u :: us) = (answerOf m s).outcome (walk op ref s us) := by
  rw [walk, h]
  dsimp only
  cases answerOf m s <;> rfl

theorem walk_of_no_callback {op : Nat} {ref : UnitM Unit} {s : State} {u : UnitRecord}
    (h : callbackOf op ref u = none) (us : List UnitRecord) : walk op ref s (u :: us) = walk op ref s us := by
  rw [walk, h]

theorem callbackOf_ref_of_key {op : Nat} (h : (refRow op).isSome = true) (ref : UnitM Unit) :
    callbackOf op ref .ref = some ref := if_pos h

theorem callbackOf_ref_of_no_key {op : Nat} (h : ¬ (refRow op).isSome = true) (ref : UnitM Unit) :
    callbackOf op ref .ref = none := if_neg h

section
variable {m : UnitM Unit} {s t : State}

theorem answerOf_ok (h : m s = .ok ⟨⟩ t) : answerOf m s = .accept t := by simp only [answerOf, h]
theorem answerOf_fatal {e : FatalError} (h : m s = .error (.fatal e) t) : answerOf m s = .fatal e t := by
  simp only [answerOf, h]
theorem answerOf_refuse {r : Refusal} (h : m s = .error (.refuse r) t) : answerOf m s = .refused r := by
  simp only [answerOf, h]
theorem answerOf_decline (h : m s = .error .decline t) : answerOf m s = .decline := by simp only [answerOf, h]

end

/-! ### Records that let an opcode pass -/

/-- A record that lets an effective opcode pass, REF where its map lacks it or its callback declines. -/
def LetsPass (op : Nat) (ref : UnitM Unit) (s : State) (u : UnitRecord) : Prop :=
  Passes op s u ∨ (u = .ref ∧ (refRow op = none ∨ answerOf ref s = .decline))

theorem walk_letsPass {op : Nat} {ref : UnitM Unit} {s : State} {u : UnitRecord} (h : LetsPass op ref s u)
    (us : List UnitRecord) : walk op ref s (u :: us) = walk op ref s us := by
  rcases h with h | ⟨rfl, h⟩
  · exact walk_pass h us
  · cases hrow : refRow op with
    | none => exact walk_of_no_callback (callbackOf_ref_of_no_key (by simp [hrow]) ref) us
    | some row =>
      rw [walk_of_callback (callbackOf_ref_of_key (by simp [hrow]) ref), h.resolve_left (by simp [hrow])]
      rfl

theorem walk_front_letsPass {op : Nat} {ref : UnitM Unit} {s : State} {front : List UnitRecord}
    (h : ∀ u ∈ front, LetsPass op ref s u) (us : List UnitRecord) :
    walk op ref s (front ++ us) = walk op ref s us := by
  induction front with
  | nil => rfl
  | cons u front ih =>
    rw [List.forall_mem_cons] at h
    rw [List.cons_append, walk_letsPass h.1, ih h.2]

/-- Settles O18: the walk passes every record and ends at the end of the chain. -/
theorem noUnitAcceptsRaisesInvalidOpcode : Obligations.NoUnitAcceptsRaisesInvalidOpcode := by
  intro s b h
  have hwalk := walk_front_letsPass (ref := refCallback (effOpcode s.latches.esc b)) h []
  rw [List.append_nil] at hwalk
  exact hwalk

/-! ### The host record that answers -/

/-- What a callback of the host's does: its operations, then its verdict (40_decode_dispatch.md R149). -/
theorem runCallback_eq (op : Nat) (c : Callback) (s : State) :
    runCallback op c s =
      (runActions (callbackAnswer op s c).1 >>= fun _ => runVerdict (callbackAnswer op s c).2) s := by
  cases c <;> rfl

section
variable {s : State} {b : Byte} {front back : List UnitRecord} {name : String} {map : List (Nat × Callback)}
  {e : Nat × Callback} (hunits : s.units = front ++ .host name map :: back)
  (hfront : ∀ u ∈ front, LetsPass (effOpcode s.latches.esc b) (refCallback (effOpcode s.latches.esc b)) s u)
  (hfind : map.find? (fun e => e.1 == effOpcode s.latches.esc b) = some e)
include hunits hfront hfind

/-- The first record that holds the opcode decides, and hands it on only where its callback declines. -/
theorem execOpcode_of_asked : execOpcode b s =
    (answerOf (runCallback (effOpcode s.latches.esc b) e.2) s).outcome
      (walk (effOpcode s.latches.esc b) (refCallback (effOpcode s.latches.esc b)) s back) := by
  have hcall : callbackOf (effOpcode s.latches.esc b) (refCallback (effOpcode s.latches.esc b)) (.host name map) =
      some (runCallback (effOpcode s.latches.esc b) e.2) := by simp [callbackOf, hfind]
  rw [execOpcode, dispatch, hunits, walk_front_letsPass hfront, walk_of_callback hcall]

theorem execOpcode_of_asked_ok {t : State} (h : runCallback (effOpcode s.latches.esc b) e.2 s = .ok ⟨⟩ t) :
    execOpcode b s = .next t.clearLatches := by
  rw [execOpcode_of_asked hunits hfront hfind, answerOf_ok h]
  rfl

theorem execOpcode_of_asked_fatal {t : State} {k : FatalError}
    (h : runCallback (effOpcode s.latches.esc b) e.2 s = .error (.fatal k) t) :
    execOpcode b s = .next (t.takeFatal k) := by
  rw [execOpcode_of_asked hunits hfront hfind, answerOf_fatal h]
  rfl

theorem execOpcode_of_asked_refuse {t : State} {r : Refusal}
    (h : runCallback (effOpcode s.latches.esc b) e.2 s = .error (.refuse r) t) : execOpcode b s = .refused r := by
  rw [execOpcode_of_asked hunits hfront hfind, answerOf_refuse h]
  rfl

/-- A verdict that is an error is taken in the state that the operations leave. -/
theorem execOpcode_of_fatal_verdict {t : State} {k : FatalError}
    (hverdict : runVerdict (callbackAnswer (effOpcode s.latches.esc b) s e.2).2 t = .error (.fatal k) t)
    (hops : runActions (callbackAnswer (effOpcode s.latches.esc b) s e.2).1 s = .ok ⟨⟩ t) :
    execOpcode b s = .next (t.takeFatal k) := by
  refine execOpcode_of_asked_fatal hunits hfront hfind ?_
  rw [runCallback_eq, bind_of_ok hops, hverdict]

end

/-- Settles O19: the walk reaches the record, and its callback's answer decides. -/
theorem acceptingUnitEndsDispatch : Obligations.AcceptingUnitEndsDispatch := by
  intro s t b front back name map e hunits hfront hfind
  refine ⟨execOpcode_of_asked_ok hunits hfront hfind, fun _ => execOpcode_of_asked_fatal hunits hfront hfind,
    fun _ => execOpcode_of_asked_refuse hunits hfront hfind, fun k hk => ?verdict, fun k hk => ?operation⟩
  case verdict => exact execOpcode_of_fatal_verdict hunits hfront hfind (by rw [hk]; rfl)
  case operation =>
    exact execOpcode_of_asked_fatal hunits hfront hfind (by rw [runCallback_eq, bind_of_error hk])

/-- Settles O22: the verdict is an error of the engine's own, in the state that the operations left. -/
theorem answerThatIsNoBoolean : Obligations.AnswerThatIsNoBoolean := by
  intro s t b front back name map e hunits hfront hfind hverdict
  exact execOpcode_of_fatal_verdict hunits hfront hfind (by rw [hverdict]; rfl)

/-- Settles O20: the new record is the first of the chain, so nothing stands in front of it. -/
theorem latestRegistrationAskedFirst : Obligations.LatestRegistrationAskedFirst := by
  intro s b name c t h
  refine ⟨_, command_of_unchecked rfl s, rfl, ?_⟩
  exact execOpcode_of_asked_ok (front := []) (e := (effOpcode s.latches.esc b, c)) rfl (by simp) (by simp) h

end Sys2Proof.Machine
end

section
/-! The flags steer nothing in the reference set (45_reference_units.md R285): every operation that REF's units are made
of does the same whatever the flags hold, and so does the step. -/

namespace Sys2Proof.Machine

open Sys2Proof

/-! ### Computations that do not look at the flags -/

/-- A computation's result with the flags of its state replaced. -/
def resultWithFlags {α : Type} (g : BitVec 32) : EStateM.Result Stop State α → EStateM.Result Stop State α
  | .ok a t => .ok a (t.withFlags g)
  | .error e t => .error e (t.withFlags g)

/-- The same value or stop whatever the flags hold, in a state that differs in the flags alone. -/
def FlagBlind {α : Type} (m : UnitM α) : Prop :=
  ∀ (s : State) (f : BitVec 32), ∃ g, m (s.withFlags f) = resultWithFlags g (m s)

namespace FlagBlind

theorem pure {α : Type} (a : α) : FlagBlind (Pure.pure a : UnitM α) := fun _ f => ⟨f, rfl⟩
theorem throw {α : Type} (e : Stop) : FlagBlind (MonadExcept.throw e : UnitM α) := fun _ f => ⟨f, rfl⟩
theorem raise {α : Type} (e : FatalError) : FlagBlind (Machine.raise e : UnitM α) := fun _ f => ⟨f, rfl⟩
theorem refuse {α : Type} (r : Refusal) : FlagBlind (Machine.refuse r : UnitM α) := fun _ f => ⟨f, rfl⟩

theorem bind {α β : Type} {x : UnitM α} {k : α → UnitM β} (hx : FlagBlind x) (hk : ∀ a, FlagBlind (k a)) :
    FlagBlind (x >>= k) := by
  intro s f
  obtain ⟨g, hg⟩ := hx s f
  rw [bind_apply, bind_apply, hg]
  cases x s with
  | ok a t => exact hk a t g
  | error e t => exact ⟨g, rfl⟩

/-- A state read at the start, of which all but the flags is used. -/
theorem withState {α : Type} {k : State → UnitM α} (hf : ∀ s f, k (s.withFlags f) = k s)
    (hk : ∀ s, FlagBlind (k s)) : FlagBlind (MonadState.get >>= k) := by
  intro s f
  obtain ⟨g, hg⟩ := hk s s f
  exact ⟨g, by rw [bind_get, bind_get, hf, hg]⟩

theorem ofModify {h : State → State} (hh : ∀ s f, ∃ g, h (s.withFlags f) = (h s).withFlags g) :
    FlagBlind (modify h : UnitM PUnit) := by
  intro s f
  obtain ⟨g, hg⟩ := hh s f
  exact ⟨g, by rw [modify_apply, modify_apply, hg]; rfl⟩

theorem ite {α : Type} {c : Prop} [Decidable c] {x y : UnitM α} (hx : FlagBlind x) (hy : FlagBlind y) :
    FlagBlind (if c then x else y) := by
  split <;> assumption

end FlagBlind

/-! ### Operations -/

theorem skip_flagBlind (n : Nat) : FlagBlind (skip n) := .ofModify fun _ f => ⟨f, rfl⟩

theorem setIp_flagBlind (t : Int) : FlagBlind (setIp t) := .ite (.refuse _) (.ofModify fun _ f => ⟨f, rfl⟩)

theorem setLogicFlags_flagBlind (r : Word) (w : Width) : FlagBlind (modify fun t => t.setLogicFlags r w) :=
  .ofModify fun s f => ⟨logicFlags s.params.flags r w f, rfl⟩

theorem codeRead_flagBlind (off : Int) (n : Nat) : FlagBlind (codeRead off n) :=
  .withState (fun _ _ => rfl) fun _ => .ite (.pure _) (.raise _)

theorem checkRegister_flagBlind (d : Descriptor) : FlagBlind (checkRegister d) :=
  .withState (fun _ _ => rfl) fun _ => .ite (.refuse _) (.ite (.raise _) (.pure _))

theorem regRead_flagBlind (d : Descriptor) : FlagBlind (regRead d) :=
  (checkRegister_flagBlind d).bind fun _ => .withState (fun _ _ => rfl) fun _ => .pure _

theorem regWrite_flagBlind (d : Descriptor) (v : Word) : FlagBlind (regWrite d v) :=
  (checkRegister_flagBlind d).bind fun _ => .ofModify fun _ f => ⟨f, rfl⟩

theorem memRead_flagBlind (a : Int) (n : Nat) : FlagBlind (memRead a n) := by
  refine .withState (fun _ _ => rfl) fun s => .ite (.refuse _) ?_
  split
  · exact .pure _
  · exact .raise _

theorem memWrite_flagBlind (a : Int) (bs : List Byte) : FlagBlind (memWrite a bs) := by
  intro s f
  by_cases hn : bs = []
  · subst hn; exact ⟨f, rfl⟩
  · cases h : s.stack.write a bs with
    | ok st => exact ⟨f, by rw [memWrite_eq hn h, memWrite_eq (s := s.withFlags f) hn h]; rfl⟩
    | error e => exact ⟨f, by rw [memWrite_error hn h, memWrite_error (s := s.withFlags f) hn h]; rfl⟩

theorem load_flagBlind (ea : Int) (w : Width) : FlagBlind (load ea w) :=
  (memRead_flagBlind _ _).bind fun _ => .ite (.pure _) (.refuse _)

theorem store_flagBlind (ea : Int) (w : Width) (v : Word) : FlagBlind (store ea w v) := memWrite_flagBlind _ _

/-! ### Operands -/

theorem readAddrReg_flagBlind (f : RegId) (e : Bool) : FlagBlind (readAddrReg f e) :=
  .withState (fun _ _ => rfl) fun _ => regRead_flagBlind _

theorem readDisp_flagBlind (off : Nat) (mod : Fin 4) : FlagBlind (readDisp off mod) :=
  .ite (.pure _) (codeRead_flagBlind _ _)

theorem resolve_flagBlind (mod : Fin 4) (reg rm : RegId) : FlagBlind (resolve mod reg rm) :=
  .withState (fun _ _ => rfl) fun _ => .ite (.raise _) (.ite
    ((codeRead_flagBlind _ _).bind fun _ => (readAddrReg_flagBlind _ _).bind fun _ =>
      (readAddrReg_flagBlind _ _).bind fun _ => (readDisp_flagBlind _ _).bind fun _ => .pure _)
    (.ite ((codeRead_flagBlind _ _).bind fun _ => .pure _)
      ((readAddrReg_flagBlind _ _).bind fun _ => (readDisp_flagBlind _ _).bind fun _ => .pure _)))

theorem fetchModRM_flagBlind : FlagBlind fetchModRM :=
  .withState (fun _ _ => rfl) fun _ => (codeRead_flagBlind _ _).bind fun _ => (skip_flagBlind 2).bind fun _ =>
    .ite (.pure _) ((resolve_flagBlind _ _ _).bind fun _ => (skip_flagBlind _).bind fun _ => .pure _)

theorem fetchImm_flagBlind (n : Nat) : FlagBlind (fetchImm n) :=
  .withState (fun _ _ => rfl) fun _ => (codeRead_flagBlind _ _).bind fun _ => .pure _

theorem readLoc_flagBlind (l : Loc) (w : Width) : FlagBlind (readLoc l w) := by
  refine .withState (fun _ _ => rfl) fun s => ?_
  cases l with
  | reg r => exact regRead_flagBlind _
  | mem ea => exact load_flagBlind _ _

theorem writeLoc_flagBlind (l : Loc) (w : Width) (v : Word) : FlagBlind (writeLoc l w v) := by
  refine .withState (fun _ _ => rfl) fun s => ?_
  cases l with
  | reg r => exact regWrite_flagBlind _ _
  | mem ea => exact store_flagBlind _ _ _

theorem readReg_flagBlind (f : RegId) (w : Width) : FlagBlind (readReg f w) :=
  .withState (fun _ _ => rfl) fun _ => regRead_flagBlind _
theorem writeReg_flagBlind (f : RegId) (w : Width) (v : Word) : FlagBlind (writeReg f w v) :=
  .withState (fun _ _ => rfl) fun _ => regWrite_flagBlind _ _
theorem writeOpReg_flagBlind (f : RegId) (w : Width) (v : Word) : FlagBlind (writeOpReg f w v) :=
  .withState (fun _ _ => rfl) fun _ => regWrite_flagBlind _ _

/-! ### Reference units -/

theorem pushValue_flagBlind (w : Width) (v : Word) : FlagBlind (pushValue w v) :=
  .withState (fun _ _ => rfl) fun _ => (regRead_flagBlind _).bind fun _ => (store_flagBlind _ _ _).bind fun _ =>
    regWrite_flagBlind _ _

theorem moveToRm_flagBlind (w : Width) : FlagBlind (moveToRm w fetchModRM) :=
  fetchModRM_flagBlind.bind fun _ => (readReg_flagBlind _ _).bind fun _ => writeLoc_flagBlind _ _ _

theorem moveToReg_flagBlind (w : Width) : FlagBlind (moveToReg w fetchModRM) :=
  fetchModRM_flagBlind.bind fun _ => (readLoc_flagBlind _ _).bind fun _ => writeReg_flagBlind _ _ _

theorem leaBody_flagBlind : FlagBlind (leaBody fetchModRM) := by
  refine .withState (fun _ _ => rfl) fun s => fetchModRM_flagBlind.bind fun o => ?_
  split
  · exact .throw _
  · exact writeReg_flagBlind _ _ _

/-- REF's callback for any effective opcode. -/
theorem refCallback_flagBlind (op : Nat) : FlagBlind (refCallback op) := by
  unfold refCallback
  cases refRow op with
  | none => exact .throw _
  | some row =>
    cases row with
    | nop => exact .withState (fun _ _ => rfl) fun _ => .ite (.throw _) (skip_flagBlind 1)
    | xorRmR =>
      exact .withState (fun _ _ => rfl) fun _ => fetchModRM_flagBlind.bind fun _ =>
        (readReg_flagBlind _ _).bind fun _ => (readLoc_flagBlind _ _).bind fun _ =>
          (writeLoc_flagBlind _ _ _).bind fun _ => setLogicFlags_flagBlind _ _
    | xorRRm =>
      exact .withState (fun _ _ => rfl) fun _ => fetchModRM_flagBlind.bind fun _ =>
        (readLoc_flagBlind _ _).bind fun _ => (readReg_flagBlind _ _).bind fun _ =>
          (writeReg_flagBlind _ _ _).bind fun _ => setLogicFlags_flagBlind _ _
    | movRm8R8 => exact moveToRm_flagBlind _
    | movRmR => exact .withState (fun _ _ => rfl) fun _ => moveToRm_flagBlind _
    | movR8Rm8 => exact moveToReg_flagBlind _
    | movRRm => exact .withState (fun _ _ => rfl) fun _ => moveToReg_flagBlind _
    | movR8Imm8 =>
      exact (fetchImm_flagBlind _).bind fun _ => (writeOpReg_flagBlind _ _ _).bind fun _ => skip_flagBlind 2
    | movRImm =>
      exact .withState (fun _ _ => rfl) fun _ => (fetchImm_flagBlind _).bind fun _ =>
        (writeOpReg_flagBlind _ _ _).bind fun _ => skip_flagBlind _
    | pushR =>
      exact .withState (fun _ _ => rfl) fun _ => (regRead_flagBlind _).bind fun _ => (pushValue_flagBlind _ _).bind
        fun _ => skip_flagBlind 1
    | popR =>
      exact .withState (fun _ _ => rfl) fun _ => (regRead_flagBlind _).bind fun _ => (load_flagBlind _ _).bind fun _ =>
        (regWrite_flagBlind _ _).bind fun _ => (writeOpReg_flagBlind _ _ _).bind fun _ => skip_flagBlind 1
    | leaRM => exact leaBody_flagBlind
    | callRel32 =>
      exact .withState (fun _ _ => rfl) fun _ => .ite (.throw _) ((fetchImm_flagBlind _).bind fun _ =>
        (pushValue_flagBlind _ _).bind fun _ => setIp_flagBlind _)

/-! ### The dispatch and the step -/

/-- An outcome with the flags of its next state replaced. -/
def outcomeWithFlags (g : BitVec 32) : Host.Outcome State Fault Refusal → Host.Outcome State Fault Refusal
  | .next t => .next (t.withFlags g)
  | .fault e => .fault e
  | .refused r => .refused r

theorem takeFatal_withFlags (s : State) (f : BitVec 32) (e : FatalError) :
    (s.withFlags f).takeFatal e = (s.takeFatal e).withFlags f := by
  cases h : s.faulted with
  | none => rw [State.takeFatal_of_none h, State.takeFatal_of_none (s := s.withFlags f) h]; rfl
  | some e₀ => rw [State.takeFatal_of_some h, State.takeFatal_of_some (s := s.withFlags f) h]

/-- Along a chain of REF alone the flags steer nothing. -/
theorem walk_flagBlind {op : Nat} {ref : UnitM Unit} (hr : FlagBlind ref) (s : State) (f : BitVec 32)
    {us : List UnitRecord} (hus : ∀ u ∈ us, u = .ref) :
    ∃ g, walk op ref (s.withFlags f) us = outcomeWithFlags g (walk op ref s us) := by
  induction us with
  | nil => exact ⟨f, congrArg _ (takeFatal_withFlags s f _)⟩
  | cons u us ih =>
    obtain ⟨rfl, hback⟩ := List.forall_mem_cons.mp hus
    by_cases hkey : (refRow op).isSome = true
    · have hcall : callbackOf op ref .ref = some ref := callbackOf_ref_of_key hkey ref
      obtain ⟨g, hg⟩ := hr s f
      rw [walk_of_callback hcall, walk_of_callback hcall]
      simp only [answerOf, hg]
      cases ref s with
      | ok a t => exact ⟨g, rfl⟩
      | error e t =>
        cases e with
        | fatal e => exact ⟨g, congrArg _ (takeFatal_withFlags t g e)⟩
        | decline => exact ih hback
        | refuse r => exact ⟨g, rfl⟩
    · have hcall : callbackOf op ref .ref = none := callbackOf_ref_of_no_key hkey ref
      rw [walk_of_no_callback hcall, walk_of_no_callback hcall]
      exact ih hback

theorem scanStep_flagBlind {s : State} (hus : ∀ u ∈ s.units, u = .ref) (f : BitVec 32) (b : Byte) :
    ∃ g, scanStep (s.withFlags f) b = outcomeWithFlags g (scanStep s b) := by
  unfold scanStep
  rw [State.withFlags_ctx]
  cases byteClass s.ctx b with
  | escape | opsize | addrsize | rex => exact ⟨f, rfl⟩
  | opcode => exact walk_flagBlind (refCallback_flagBlind _) s f hus

theorem step_flagBlind {s : State} (hus : ∀ u ∈ s.units, u = .ref) (f : BitVec 32) :
    ∃ g, step (s.withFlags f) = outcomeWithFlags g (step s) := by
  by_cases hr : s.running = true
  · have hb : s.code[s.ip]? = some (s.code[s.ip]'((running_iff s).mp hr).2.2) := List.getElem?_eq_getElem _
    rw [step_eq_scanStep hr hb, step_eq_scanStep (s := s.withFlags f) hr hb]
    exact scanStep_flagBlind hus f _
  · refine ⟨f, ?_⟩
    cases ht : s.tainted with
    | true => simp [step, ht, outcomeWithFlags]
    | false =>
      cases hf : s.faulted with
      | some e => simp [step, ht, hf, outcomeWithFlags]
      | none =>
        have hend : s.code.length ≤ s.ip := by simpa [running_iff, ht, hf] using hr
        simp [step, ht, hf, hend, outcomeWithFlags]

/-- Settles O13: the step with other flags is the step, with other flags in its next state. -/
theorem flagsDoNotSteer : Obligations.FlagsDoNotSteer := by
  intro s f hus
  obtain ⟨g, hg⟩ := step_flagBlind hus f
  refine ⟨fun t h => ⟨g, ?_⟩, fun e h => ?_, fun r h => ?_⟩ <;> rw [hg, h] <;> rfl

end Sys2Proof.Machine
end

section
/-! How a computation ends: a rule of its value and state for each operation, so that a unit's body is followed
operation by operation without being evaluated. -/

namespace Sys2Proof.Machine

open Sys2Proof

/-- A computation ends with a value and a state of which `P` holds, or it stops in a state of which `Q` holds. -/
def Ends {α : Type} (P : α → State → Prop) (Q : Stop → State → Prop) : EStateM.Result Stop State α → Prop
  | .ok a t => P a t
  | .error e t => Q e t

theorem Ends.bind {α β : Type} {x : UnitM α} {k : α → UnitM β} {s : State} {P' : α → State → Prop}
    {P : β → State → Prop} {Q' Q : Stop → State → Prop} (hx : Ends P' Q' (x s)) (hQ : ∀ e t, Q' e t → Q e t)
    (hk : ∀ a t, P' a t → Ends P Q (k a t)) : Ends P Q ((x >>= k) s) := by
  rw [bind_apply]
  cases h : x s with
  | ok a t => rw [h] at hx; exact hk a t hx
  | error e t => rw [h] at hx; exact hQ e t hx

theorem Ends.of_ok {α : Type} {P : α → State → Prop} {Q : Stop → State → Prop} {r : EStateM.Result Stop State α}
    (h : Ends P Q r) {a : α} {t : State} (hr : r = .ok a t) : P a t := by
  subst hr; exact h

/-- A stop that is no decline, in the state `s`. -/
def StopsAt (s : State) (e : Stop) (t : State) : Prop := e ≠ .decline ∧ t = s

/-- A computation that changes nothing, whether it ends or stops, and does not decline. -/
def Reads {α : Type} (m : UnitM α) : Prop := ∀ s, Ends (fun _ t => t = s) (StopsAt s) (m s)

namespace Reads

theorem pure {α : Type} (a : α) : Reads (Pure.pure a : UnitM α) := fun _ => rfl
theorem raise {α : Type} (e : FatalError) : Reads (Machine.raise e : UnitM α) := fun _ => ⟨by simp, rfl⟩
theorem refuse {α : Type} (r : Refusal) : Reads (Machine.refuse r : UnitM α) := fun _ => ⟨by simp, rfl⟩

theorem bind {α β : Type} {x : UnitM α} {k : α → UnitM β} (hx : Reads x) (hk : ∀ a, Reads (k a)) : Reads (x >>= k) :=
  fun s => (hx s).bind (fun _ _ h => h) fun a _ ht => ht ▸ hk a s

theorem withState {α : Type} {k : State → UnitM α} (hk : ∀ s, Reads (k s)) : Reads (MonadState.get >>= k) :=
  fun s => hk s s

theorem ite {α : Type} {c : Prop} [Decidable c] {x y : UnitM α} (hx : Reads x) (hy : Reads y) :
    Reads (if c then x else y) := by
  split <;> assumption

end Reads

theorem codeRead_reads (off : Int) (n : Nat) : Reads (codeRead off n) :=
  .withState fun _ => .ite (.pure _) (.raise _)

theorem checkRegister_reads (d : Descriptor) : Reads (checkRegister d) :=
  .withState fun _ => .ite (.refuse _) (.ite (.raise _) (.pure _))

/-- A register read that ends answers the view (41_register_file.md R186). -/
theorem regRead_ends (d : Descriptor) (s : State) :
    Ends (fun v t => v = s.view d ∧ t = s) (StopsAt s) (regRead d s) :=
  (checkRegister_reads d s).bind (fun _ _ h => h) fun _ _ ht => ht ▸ ⟨rfl, rfl⟩

theorem regRead_reads (d : Descriptor) : Reads (regRead d) :=
  (checkRegister_reads d).bind fun _ => .withState fun _ => .pure _

/-- A register write that ends writes the view; one that stops writes nothing (41_register_file.md R187, R188). -/
theorem regWrite_ends (d : Descriptor) (v : Word) (s : State) :
    Ends (fun _ t => t = s.putView d v) (StopsAt s) (regWrite d v s) :=
  (checkRegister_reads d s).bind (fun _ _ h => h) fun _ _ ht => ht ▸ rfl

theorem memRead_reads (a : Int) (n : Nat) : Reads (memRead a n) := by
  refine .withState fun s => .ite (.refuse _) ?_
  split
  · exact .pure _
  · exact .raise _

theorem load_reads (ea : Int) (w : Width) : Reads (load ea w) :=
  (memRead_reads _ _).bind fun _ => .ite (.pure _) (.refuse _)

theorem bytesLe_ne_nil (v : Nat) (w : Width) : bytesLe v w.bytes ≠ [] := by
  intro h
  have := bytesLe_length v w.bytes
  rw [h] at this
  exact bytes_pos w this.symm

/-- A store that ends leaves the stack's write; one that stops leaves everything (45_reference_units.md R287). -/
theorem store_ends (ea : Int) (w : Width) (v : Word) (s : State) :
    Ends (fun _ t => ∃ st, s.stack.write ea (bytesLe v.toNat w.bytes) = .ok st ∧ t = s.withStack st) (StopsAt s)
      (store ea w v s) := by
  cases h : s.stack.write ea (bytesLe v.toNat w.bytes) with
  | ok st => rw [store, memWrite_eq (bytesLe_ne_nil _ _) h]; exact ⟨st, rfl, rfl⟩
  | error e => rw [store, memWrite_error (bytesLe_ne_nil _ _) h]; exact ⟨by simp, rfl⟩

theorem readAddrReg_reads (f : RegId) (e : Bool) : Reads (readAddrReg f e) := .withState fun _ => regRead_reads _

theorem readReg_reads (f : RegId) (w : Width) : Reads (readReg f w) := .withState fun _ => regRead_reads _

theorem readLoc_reads (l : Loc) (w : Width) : Reads (readLoc l w) := by
  refine .withState fun s => ?_
  cases l with
  | reg r => exact regRead_reads _
  | mem ea => exact load_reads _ _

theorem readDisp_reads (off : Nat) (mod : Fin 4) : Reads (readDisp off mod) := .ite (.pure _) (codeRead_reads _ _)

theorem resolve_reads (mod : Fin 4) (reg rm : RegId) : Reads (resolve mod reg rm) :=
  .withState fun _ => .ite (.raise _) (.ite
    ((codeRead_reads _ _).bind fun _ => (readAddrReg_reads _ _).bind fun _ => (readAddrReg_reads _ _).bind fun _ =>
      (readDisp_reads _ _).bind fun _ => .pure _)
    (.ite ((codeRead_reads _ _).bind fun _ => .pure _)
      ((readAddrReg_reads _ _).bind fun _ => (readDisp_reads _ _).bind fun _ => .pure _)))

/-- An immediate that is not all there (20_memory.md R62). -/
theorem fetchImm_outside {s : State} {n : Nat} (h : s.code.length < s.ip + 1 + n) :
    fetchImm n s = .error (.fatal (.codeWindowOutOfRange (s.ip + 1) n)) s := by
  rw [fetchImm, bind_get]
  exact bind_of_error (codeRead_outside (.inr (by omega)))

theorem fetchImm_reads (n : Nat) : Reads (fetchImm n) :=
  .withState fun _ => (codeRead_reads _ _).bind fun _ => .pure _

end Sys2Proof.Machine
end

section
/-! Progress (40_decode_dispatch.md R154): every instruction of the reference set but CALL moves ip forward, so that a
run without CALL ends. -/

namespace Sys2Proof.Machine

open Sys2Proof

/-! ### How far a computation moves ip -/

/-- Where the computation ends, ip has moved forward by at least `n`. -/
def MovesIp {α : Type} (n : Nat) (m : UnitM α) : Prop := ∀ s a t, m s = .ok a t → s.ip + n ≤ t.ip

namespace MovesIp

theorem of_reads {α : Type} {m : UnitM α} (h : Reads m) : MovesIp 0 m := by
  intro s a t hm
  have : t = s := (h s).of_ok hm
  rw [this, Nat.add_zero]

theorem bind {α β : Type} {n k : Nat} {x : UnitM α} {f : α → UnitM β} (hx : MovesIp n x) (hf : ∀ a, MovesIp k (f a)) :
    MovesIp (n + k) (x >>= f) := by
  intro s b t h
  rw [bind_apply] at h
  cases hxs : x s with
  | ok a u =>
    rw [hxs] at h
    have h1 := hx s a u hxs
    have h2 := hf a u b t h
    omega
  | error e u => rw [hxs] at h; cases h

theorem withState {α : Type} {n : Nat} {f : State → UnitM α} (h : ∀ s, MovesIp n (f s)) :
    MovesIp n (MonadState.get >>= f) := fun s => h s s

theorem throw {α : Type} (n : Nat) (e : Stop) : MovesIp n (MonadExcept.throw e : UnitM α) := by
  intro s a t h
  cases h

theorem ite {α : Type} {n : Nat} {c : Prop} [Decidable c] {x y : UnitM α} (hx : MovesIp n x) (hy : MovesIp n y) :
    MovesIp n (if c then x else y) := by
  split <;> assumption

theorem mono {α : Type} {n k : Nat} {m : UnitM α} (h : MovesIp n m) (hk : k ≤ n) : MovesIp k m :=
  fun s a t hm => (Nat.add_le_add_left hk _).trans (h s a t hm)

end MovesIp

theorem skip_movesIp (n : Nat) : MovesIp n (skip n) := by
  intro s a t h
  cases h
  exact le_refl _

theorem setLogicFlags_movesIp (r : Word) (w : Width) : MovesIp 0 (modify fun t => t.setLogicFlags r w) := by
  intro s a t h
  cases h
  exact le_refl _

theorem regWrite_movesIp (d : Descriptor) (v : Word) : MovesIp 0 (regWrite d v) := by
  intro s a t h
  rw [(regWrite_ends d v s).of_ok h]
  exact le_refl _

theorem store_movesIp (ea : Int) (w : Width) (v : Word) : MovesIp 0 (store ea w v) := by
  intro s a t h
  obtain ⟨st, -, rfl⟩ := (store_ends ea w v s).of_ok h
  exact le_refl _

theorem writeReg_movesIp (f : RegId) (w : Width) (v : Word) : MovesIp 0 (writeReg f w v) :=
  .withState fun _ => regWrite_movesIp _ _

theorem writeOpReg_movesIp (f : RegId) (w : Width) (v : Word) : MovesIp 0 (writeOpReg f w v) :=
  .withState fun _ => regWrite_movesIp _ _

theorem writeLoc_movesIp (l : Loc) (w : Width) (v : Word) : MovesIp 0 (writeLoc l w v) := by
  refine .withState fun s => ?_
  cases l with
  | reg r => exact regWrite_movesIp _ _
  | mem ea => exact store_movesIp _ _ _

theorem pushValue_movesIp (w : Width) (v : Word) : MovesIp 0 (pushValue w v) :=
  .withState fun _ => (MovesIp.of_reads (regRead_reads _)).bind fun _ => (store_movesIp _ _ _).bind fun _ =>
    regWrite_movesIp _ _

/-- The ModRM byte is behind ip, whatever it announces (45_reference_units.md R289). -/
theorem fetchModRM_movesIp : MovesIp 2 fetchModRM := by
  refine .withState fun s => (MovesIp.of_reads (codeRead_reads _ _)).bind (k := 2) fun bs => ?_
  refine (skip_movesIp 2).bind (k := 0) fun _ => .ite (.of_reads (.pure _)) ?_
  exact (MovesIp.of_reads (resolve_reads _ _ _)).bind (k := 0) fun a =>
    ((skip_movesIp _).mono (Nat.zero_le _)).bind fun _ => .of_reads (.pure _)

theorem moveToRm_movesIp (w : Width) : MovesIp 2 (moveToRm w fetchModRM) :=
  fetchModRM_movesIp.bind fun _ => (MovesIp.of_reads (readReg_reads _ _)).bind fun _ => writeLoc_movesIp _ _ _

theorem moveToReg_movesIp (w : Width) : MovesIp 2 (moveToReg w fetchModRM) :=
  fetchModRM_movesIp.bind fun _ => (MovesIp.of_reads (readLoc_reads _ _)).bind fun _ => writeReg_movesIp _ _ _

theorem leaBody_movesIp : MovesIp 2 (leaBody fetchModRM) := by
  refine .withState fun s => fetchModRM_movesIp.bind (k := 0) fun o => ?_
  split
  · exact .throw _ _
  · exact writeReg_movesIp _ _ _

/-- REF's callbacks but CALL's move ip forward. -/
theorem refCallback_movesIp {op : Nat} (h : refRow op ≠ some .callRel32) : MovesIp 1 (refCallback op) := by
  unfold refCallback
  cases hrow : refRow op with
  | none => exact .throw _ _
  | some row =>
    cases row with
    | nop => exact .withState fun _ => .ite (.throw _ _) (skip_movesIp 1)
    | xorRmR =>
      exact .mono (n := 2) (.withState fun _ => fetchModRM_movesIp.bind fun _ =>
        (MovesIp.of_reads (readReg_reads _ _)).bind fun _ => (MovesIp.of_reads (readLoc_reads _ _)).bind fun _ =>
          (writeLoc_movesIp _ _ _).bind fun _ => setLogicFlags_movesIp _ _) (by decide)
    | xorRRm =>
      exact .mono (n := 2) (.withState fun _ => fetchModRM_movesIp.bind fun _ =>
        (MovesIp.of_reads (readLoc_reads _ _)).bind fun _ => (MovesIp.of_reads (readReg_reads _ _)).bind fun _ =>
          (writeReg_movesIp _ _ _).bind fun _ => setLogicFlags_movesIp _ _) (by decide)
    | movRm8R8 => exact (moveToRm_movesIp _).mono (by decide)
    | movRmR => exact .mono (n := 2) (.withState fun _ => moveToRm_movesIp _) (by decide)
    | movR8Rm8 => exact (moveToReg_movesIp _).mono (by decide)
    | movRRm => exact .mono (n := 2) (.withState fun _ => moveToReg_movesIp _) (by decide)
    | movR8Imm8 =>
      exact .mono (n := 0 + (0 + 2)) ((MovesIp.of_reads (fetchImm_reads _)).bind fun _ =>
        (writeOpReg_movesIp _ _ _).bind fun _ => skip_movesIp 2) (by decide)
    | movRImm =>
      refine .withState fun s => .mono (n := 0 + (0 + (1 + s.opSize.bytes))) ?_ (by omega)
      exact (MovesIp.of_reads (fetchImm_reads _)).bind fun _ => (writeOpReg_movesIp _ _ _).bind fun _ => skip_movesIp _
    | pushR =>
      exact .withState fun _ => (MovesIp.of_reads (regRead_reads _)).bind (k := 1) fun _ =>
        (pushValue_movesIp _ _).bind (k := 1) fun _ => skip_movesIp 1
    | popR =>
      exact .withState fun _ => (MovesIp.of_reads (regRead_reads _)).bind (k := 1) fun _ =>
        (MovesIp.of_reads (load_reads _ _)).bind (k := 1) fun _ => (regWrite_movesIp _ _).bind (k := 1) fun _ =>
          (writeOpReg_movesIp _ _ _).bind (k := 1) fun _ => skip_movesIp 1
    | leaRM => exact leaBody_movesIp.mono (by decide)
    | callRel32 => exact absurd hrow h

/-! ### The dispatch and the step -/

theorem takeFatal_faulted_ne_none (s : State) (e : FatalError) : (s.takeFatal e).faulted ≠ none :=
  Option.isSome_iff_ne_none.mp (State.takeFatal_isSome s e)

/-- Along a chain of REF alone a dispatch that raises nothing is REF's acceptance. -/
theorem walk_ref_accepts {op : Nat} {ref : UnitM Unit} {s t : State} {us : List UnitRecord}
    (hus : ∀ u ∈ us, u = .ref) (h : walk op ref s us = .next t) (hf : t.faulted = none) :
    ∃ u, ref s = .ok ⟨⟩ u ∧ t = u.clearLatches := by
  induction us with
  | nil =>
    cases h
    exact absurd hf (takeFatal_faulted_ne_none _ _)
  | cons u us ih =>
    obtain ⟨rfl, hback⟩ := List.forall_mem_cons.mp hus
    by_cases hkey : (refRow op).isSome = true
    · rw [walk_of_callback (callbackOf_ref_of_key hkey ref)] at h
      cases hs : ref s with
      | ok a u =>
        rw [answerOf_ok hs] at h
        cases h
        exact ⟨u, rfl, rfl⟩
      | error e u =>
        cases e with
        | fatal e =>
          rw [answerOf_fatal hs] at h
          cases h
          exact absurd hf (takeFatal_faulted_ne_none _ _)
        | decline =>
          rw [answerOf_decline hs] at h
          obtain ⟨v, hv, -⟩ := ih hback h
          cases hs.symm.trans hv
        | refuse r =>
          rw [answerOf_refuse hs] at h
          cases h
    · rw [walk_of_no_callback (callbackOf_ref_of_no_key hkey ref)] at h
      exact ih hback h

/-- CALL accepts only outside Real mode, without 0x66, and with its four displacement bytes in the buffer. -/
theorem callBody_accepts {s t : State} (h : callBody (fetchImm 4) s = .ok ⟨⟩ t) :
    refWhen s.ctx .callRel32 = true ∧ ∃ p, takeBytes 4 (s.code.drop (s.ip + 1)) = some p := by
  rw [callBody, bind_get] at h
  split_ifs at h with hdecl
  · cases h
  · rw [not_or] at hdecl
    refine ⟨by simpa [refWhen] using hdecl, ?_⟩
    by_cases hlen : 4 ≤ (s.code.drop (s.ip + 1)).length
    · exact ⟨_, if_pos hlen⟩
    · rw [List.length_drop] at hlen
      rw [bind_of_error (fetchImm_outside (by omega))] at h
      cases h

/-- Where CALL's callback accepts the byte at ip, the decoder reads a CALL there. -/
theorem fetch_of_call_accepts {s t : State} {b : Byte} (hb : s.code[s.ip]? = some b)
    (hclass : byteClass s.ctx b = .opcode) (hrow : refRow (effOpcode s.latches.esc b) = some .callRel32)
    (h : callBody (fetchImm 4) s = .ok ⟨⟩ t) : ∃ rel rest, fetch s = .ok (.callRel32 rel, rest) := by
  obtain ⟨hwhen, p, hp⟩ := callBody_accepts h
  have hrow' : rowOf s.ctx b = some .callRel32 := Option.filter_eq_some_iff.mpr ⟨hrow, hwhen⟩
  rw [fetch_of_byte hb, decode]
  simp only [hclass, hrow', decodeRow, hp]
  exact ⟨_, _, rfl⟩

/-- Settles O14: a leading byte moves ip by one, and an opcode byte is accepted by REF, whose callbacks but CALL's move
ip forward. -/
theorem progressWithoutCall : Obligations.ProgressWithoutCall := by
  intro s t hus hr hstep hf
  have hb : s.code[s.ip]? = some (s.code[s.ip]'((running_iff s).mp hr).2.2) := List.getElem?_eq_getElem _
  generalize s.code[s.ip]'((running_iff s).mp hr).2.2 = b at hb
  rw [step_eq_scanStep hr hb, scanStep] at hstep
  cases hclass : byteClass s.ctx b with
  | escape | opsize | addrsize | rex =>
    simp only [hclass] at hstep
    cases hstep
    exact .inr (Nat.lt_succ_self _)
  | opcode =>
    simp only [hclass] at hstep
    obtain ⟨u, hu, rfl⟩ := walk_ref_accepts hus hstep hf
    by_cases hcall : refRow (effOpcode s.latches.esc b) = some .callRel32
    · rw [refCallback, hcall] at hu
      exact .inl (fetch_of_call_accepts hb hclass hcall hu)
    · exact .inr (refCallback_movesIp hcall s _ u hu)

/-! ### The end of a run -/

/-- The decoder reads a CALL only where the byte E8 stands. -/
theorem mem_code_of_fetch_call {s : State} {rel : BitVec 32} {rest : List Byte}
    (h : fetch s = .ok (.callRel32 rel, rest)) : (0xE8 : Byte) ∈ s.code := by
  have hdrop : s.code.drop s.ip = encode (.callRel32 rel) ++ rest := (encodeOfDecode _ _ _ _ h).2
  exact List.mem_of_mem_drop (i := s.ip) (by rw [hdrop]; exact List.mem_cons_self)

theorem running_of_step {s t : State} (h : step s = .next t) (hip : ¬ s.code.length ≤ s.ip) : s.running = true := by
  cases ht : s.tainted with
  | true => simp [step, ht] at h
  | false =>
    cases hf : s.faulted with
    | some e => simp [step, ht, hf] at h
    | none => exact (running_iff s).mpr ⟨ht, hf, Nat.not_le.mp hip⟩

/-- A run of REF alone without the byte E8 is over within as many steps as bytes are left. -/
theorem runLoop_ends {bound : Nat} {s t : State} (hus : ∀ u ∈ s.units, u = .ref) (hcode : (0xE8 : Byte) ∉ s.code)
    (hbound : s.code.length - s.ip ≤ bound) : runLoop bound s ≠ .didNotEnd t := by
  induction bound generalizing s with
  | zero => rw [runLoop_at_end (by omega)]; simp
  | succ n ih =>
    by_cases hip : s.code.length ≤ s.ip
    · rw [runLoop_at_end hip]; simp
    · rw [runLoop, if_neg hip]
      cases hstep : step s with
      | refused r => simp
      | fault e => cases e <;> simp
      | next u =>
        cases hf : u.faulted with
        | some e => simp [hf]
        | none =>
          simp only [hf]
          obtain ⟨-, -, -, -, hucode, huunits, -⟩ := stepNeverWritesConfiguration s u hstep
          rcases progressWithoutCall s u hus (running_of_step hstep hip) hstep hf with ⟨rel, rest, hcall⟩ | hlt
          · exact absurd (mem_code_of_fetch_call hcall) hcode
          · exact ih (by rw [huunits]; exact hus) (by rw [hucode]; exact hcode) (by rw [hucode]; omega)

/-- Settles O15: the taint and the fault record end the run at once, and each step leaves fewer bytes. -/
theorem runWithoutCallEnds : Obligations.RunWithoutCallEnds := by
  intro s hus hcode bound t hbound
  cases ht : s.tainted with
  | true => rw [command_of_tainted ht rfl]; simp
  | false =>
    rw [command_of_untainted ht, runCommand, simulate]
    cases hf : s.faulted with
    | some e => simp
    | none => exact runLoop_ends hus hcode hbound

end Sys2Proof.Machine
end

section
/-! The results of the reference units (45_reference_units.md R272 to R284): what a body does where the operands are
fetched and the accesses are served, and the dispatch where REF is asked. -/

namespace Sys2Proof.Machine

open Sys2Proof

/-! ### Bodies with a ModRM operand -/

section
variable {s : State} (hlegal : latchesLegal s.mode s.latches = true) {w : Width} {f : UnitM Fetched} {reg : RegId}
  {loc : Loc} {n : Nat} (hfetch : f s = .ok ⟨reg, loc⟩ (s.withIp n))
include hlegal hfetch

/-- A move to the `reg` operand ends with the value of the `r/m` operand written (45_reference_units.md R277, R278). -/
theorem moveToReg_ok (hw : w.bits ≤ s.mode.maxWidth) {v : Word}
    (hread : readLoc loc w (s.withIp n) = .ok v (s.withIp n)) :
    moveToReg w f s = .ok ⟨⟩ ((s.putView (s.regD reg w) v).withIp n) := by
  rw [moveToReg, bind_of_ok hfetch, bind_of_ok hread]
  exact writeReg_ok (s := s.withIp n) hlegal hw reg v

/-- A move to the `r/m` operand ends as its write does (45_reference_units.md R275, R276). -/
theorem moveToRm_eq_writeLoc (hw : w.bits ≤ s.mode.maxWidth) :
    moveToRm w f s = writeLoc loc w (s.view (s.regD reg w)) (s.withIp n) := by
  rw [moveToRm, bind_of_ok hfetch, bind_of_ok (readReg_ok (s := s.withIp n) hlegal hw reg)]
  rfl

/-- XOR r/m, r ends with its result written and the flags set (45_reference_units.md R273). -/
theorem xorRmRBody_ok {v : Word} {t : State}
    (hread : readLoc loc s.opSize (s.withIp n) = .ok v (s.withIp n))
    (hwrite : writeLoc loc s.opSize (v ^^^ s.view (s.regD reg s.opSize)) (s.withIp n) = .ok ⟨⟩ t) :
    xorRmRBody f s = .ok ⟨⟩ (t.setLogicFlags (v ^^^ s.view (s.regD reg s.opSize)) s.opSize) := by
  rw [xorRmRBody, bind_get, bind_of_ok hfetch, bind_of_ok (readReg_ok (s := s.withIp n) hlegal (op_fits s) reg),
    bind_of_ok hread]
  exact bind_of_ok hwrite

/-- XOR r, r/m ends with its result written and the flags set (45_reference_units.md R274). -/
theorem xorRRmBody_ok {v : Word} (hread : readLoc loc s.opSize (s.withIp n) = .ok v (s.withIp n)) :
    xorRRmBody f s = .ok ⟨⟩ (((s.putView (s.regD reg s.opSize) (v ^^^ s.view (s.regD reg s.opSize))).setLogicFlags
      (v ^^^ s.view (s.regD reg s.opSize)) s.opSize).withIp n) := by
  rw [xorRRmBody, bind_get, bind_of_ok hfetch, bind_of_ok hread,
    bind_of_ok (readReg_ok (s := s.withIp n) hlegal (op_fits s) reg), BitVec.xor_comm]
  exact bind_of_ok (writeReg_ok (s := s.withIp n) hlegal (op_fits s) reg _)

end

/-! ### Moves, by the place of the `r/m` operand -/

section
variable {s : State} (hlegal : latchesLegal s.mode s.latches = true) {w : Width} (hw : w.bits ≤ s.mode.maxWidth)
  (reg : RegId)
include hlegal hw

theorem moveToRm_reg_ok (r : RegId) : moveToRm w (fetchOperand reg (.reg r)) s =
    .ok ⟨⟩ ((s.putView (s.rmD r w) (s.view (s.regD reg w))).withIp (s.ip + 2)) :=
  (moveToRm_eq_writeLoc hlegal (fetch_reg s reg r) hw).trans (writeLoc_reg (s := s.withIp (s.ip + 2)) hlegal hw r _)

theorem moveToReg_reg_ok (r : RegId) : moveToReg w (fetchOperand reg (.reg r)) s =
    .ok ⟨⟩ ((s.putView (s.regD reg w) (s.view (s.rmD r w))).withIp (s.ip + 2)) :=
  moveToReg_ok hlegal (fetch_reg s reg r) hw (readLoc_reg (s := s.withIp (s.ip + 2)) hlegal hw r)

theorem moveToReg_mem_ok {m : MemOperand} (h : Readable s.stack (s.effAddr m) w.bytes) :
    moveToReg w (fetchOperand reg (.mem m)) s = .ok ⟨⟩ ((s.putView (s.regD reg w)
      (loadedValue s.stack (s.effAddr m) w)).withIp (s.ip + 2 + memLen m)) :=
  moveToReg_ok hlegal (fetch_mem hlegal reg m) hw (readLoc_mem (s := s.withIp (s.ip + 2 + memLen m)) h)

theorem moveToRm_mem_ok {m : MemOperand} (hcanon : s.stack.canonical = true)
    (h : Writable s.stack (s.effAddr m) w.bytes) :
    ∃ st, Stored s.stack (s.effAddr m) (bytesLe (s.view (s.regD reg w)).toNat w.bytes) st ∧
      moveToRm w (fetchOperand reg (.mem m)) s = .ok ⟨⟩ ((s.withStack st).withIp (s.ip + 2 + memLen m)) := by
  obtain ⟨st, hstored, hwrite⟩ := writeLoc_mem (s := s.withIp (s.ip + 2 + memLen m)) hcanon h
  exact ⟨st, hstored, (moveToRm_eq_writeLoc hlegal (fetch_mem hlegal reg m) hw).trans hwrite⟩

end

/-! ### XOR, MOV and LEA -/

/-- Settles O28: NOP's body skips its byte. -/
theorem nopResult : Obligations.NopResult := by
  intro s hasked hrex
  have hbody : nopBody s = .ok ⟨⟩ (s.withIp (s.ip + 1)) := by
    rw [nopBody, bind_get, hrex, if_neg Bool.false_ne_true]; rfl
  exact dispatch_accept rfl hasked hbody

/-- Settles O29: both registers are read before the destination is written. -/
theorem xorRegisterResult : Obligations.XorRegisterResult := by
  intro s reg r hlegal
  have hfetch := fetch_reg s reg r
  have hread := readLoc_reg (s := s.withIp (s.ip + 2)) hlegal (op_fits s) r
  refine ⟨fun hasked => ?rmR, fun hasked => ?rRm⟩
  case rmR =>
    have hwrite := writeLoc_reg (s := s.withIp (s.ip + 2)) hlegal (op_fits s) r
      (s.view (s.rmD r s.opSize) ^^^ s.view (s.regD reg s.opSize))
    exact dispatch_accept rfl hasked (xorRmRBody_ok hlegal hfetch hread hwrite)
  case rRm => exact dispatch_accept rfl hasked (xorRRmBody_ok hlegal hfetch hread)

/-- Settles O30: what can be read can be written back, and the store leaves what `Stored` says. -/
theorem xorMemoryResult : Obligations.XorMemoryResult := by
  intro s reg m hlegal hcanon hreadable
  have hfetch := fetch_mem hlegal reg m
  have hread := readLoc_mem (s := s.withIp (s.ip + 2 + memLen m)) hreadable
  refine ⟨fun hasked => ?rmR, fun hasked => ?rRm⟩
  case rmR =>
    obtain ⟨st, hstored, hwrite⟩ := writeLoc_mem (s := s.withIp (s.ip + 2 + memLen m)) hcanon
      (v := loadedValue s.stack (s.effAddr m) s.opSize ^^^ s.view (s.regD reg s.opSize))
      (writable_of_readable hreadable)
    exact ⟨st, hstored, dispatch_accept rfl hasked (xorRmRBody_ok hlegal hfetch hread hwrite)⟩
  case rRm => exact dispatch_accept rfl hasked (xorRRmBody_ok hlegal hfetch hread)

/-- Settles O32: a move reads one register operand and writes the other. -/
theorem movRegisterResult : Obligations.MovRegisterResult := by
  intro s reg r hlegal
  exact ⟨fun hasked => dispatch_accept rfl hasked (moveToRm_reg_ok hlegal (w8_fits s) reg r),
    fun hasked => dispatch_accept rfl hasked (moveToRm_reg_ok hlegal (op_fits s) reg r),
    fun hasked => dispatch_accept rfl hasked (moveToReg_reg_ok hlegal (w8_fits s) reg r),
    fun hasked => dispatch_accept rfl hasked (moveToReg_reg_ok hlegal (op_fits s) reg r)⟩

/-- Settles O33: the load that can be served gives the little-endian value. -/
theorem movLoadResult : Obligations.MovLoadResult := by
  intro s reg m hlegal
  exact ⟨fun hasked hreadable => dispatch_accept rfl hasked (moveToReg_mem_ok hlegal (w8_fits s) reg hreadable),
    fun hasked hreadable => dispatch_accept rfl hasked (moveToReg_mem_ok hlegal (op_fits s) reg hreadable)⟩

/-- Settles O34: the store that raises nothing leaves what `Stored` says. -/
theorem movStoreResult : Obligations.MovStoreResult := by
  intro s reg m hlegal hcanon
  refine ⟨fun hasked hwritable => ?byte, fun hasked hwritable => ?wide⟩
  case byte =>
    obtain ⟨st, hstored, hbody⟩ := moveToRm_mem_ok hlegal (w8_fits s) reg hcanon hwritable
    exact ⟨st, hstored, dispatch_accept rfl hasked hbody⟩
  case wide =>
    obtain ⟨st, hstored, hbody⟩ := moveToRm_mem_ok hlegal (op_fits s) reg hcanon hwritable
    exact ⟨st, hstored, dispatch_accept rfl hasked hbody⟩

/-- The value of an immediate is that of its bytes (45_reference_units.md R280). -/
theorem immValue_eq_leNat (v : Imm) : immValue v = BitVec.ofNat 64 (leNat v.bytes) := by
  cases v with
  | imm16 v =>
    have hlt : v.toNat % 256 ^ 2 = v.toNat := Nat.mod_eq_of_lt v.isLt
    rw [Imm.bytes, leNat_bytesLe, hlt, BitVec.ofNat_toNat]
    rfl
  | imm32 v =>
    have hlt : v.toNat % 256 ^ 4 = v.toNat := Nat.mod_eq_of_lt v.isLt
    rw [Imm.bytes, leNat_bytesLe, hlt, BitVec.ofNat_toNat]
    rfl
  | imm64 v => exact (ofNat_leNat_bytesLe (by decide) v).symm

/-- Settles O35: the register in the opcode takes the immediate. -/
theorem movImmediateResult : Obligations.MovImmediateResult := by
  intro s r b v hlegal _
  refine ⟨fun hasked => dispatch_accept (refRow_movR8Imm8 r) hasked ?byte,
    fun hasked => dispatch_accept (refRow_movRImm r) hasked ?wide⟩
  case byte =>
    rw [movR8Imm8Body, bind_pure_apply, bind_of_ok (writeOpReg_ok hlegal (w8_fits s) r _)]
    rfl
  case wide =>
    rw [movRImmBody, bind_get, bind_pure_apply, bind_of_ok (writeOpReg_ok hlegal (op_fits s) r _), immValue_eq_leNat,
      skip_apply, State.putView_ip, Nat.add_assoc]

/-- Settles O38: the effective address itself is the value. -/
theorem leaResult : Obligations.LeaResult := by
  intro s reg m hlegal hasked
  have hbody : leaBody (fetchOperand reg (.mem m)) s = .ok ⟨⟩ ((s.putView (s.regD reg s.opSize)
      (BitVec.ofInt 64 (s.effAddr m))).withIp (s.ip + 2 + memLen m)) := by
    rw [leaBody, bind_get, bind_of_ok (fetch_mem hlegal reg m)]
    exact writeReg_ok (s := s.withIp (s.ip + 2 + memLen m)) hlegal (op_fits s) reg _
  exact dispatch_accept rfl hasked hbody

/-! ### PUSH, POP and CALL -/

/-- The register that PUSH stores is read (45_reference_units.md R281). -/
theorem pushed_read {s : State} (hlegal : latchesLegal s.mode s.latches = true) (r : RegId) :
    regRead (s.regOp r s.latches.rexB s.stkSize) s = .ok (s.view (s.rmD r s.stkSize)) s :=
  regRead_eq (regOp_exists hlegal _ _ _) (regOp_fits s _ _ (stkSize_fits s))

/-- Settles O36: the register's value is read before the stack pointer moves. -/
theorem pushResult : Obligations.PushResult := by
  intro s r hlegal hcanon hasked hwritable
  obtain ⟨st, hstored, hpush⟩ := pushValue_ok (v := s.view (s.rmD r s.stkSize)) hcanon hwritable
  refine ⟨st, hstored, dispatch_accept (refRow_pushR r) hasked ?_⟩
  rw [pushBody, bind_get, bind_of_ok (pushed_read hlegal r), bind_of_ok hpush]
  rfl

/-- Settles O37: the load, then the stack pointer, then the destination. -/
theorem popResult : Obligations.PopResult := by
  intro s r hlegal hasked hreadable
  refine dispatch_accept (refRow_popR r) hasked ?_
  rw [popBody, bind_get, bind_of_ok (spReg_read s), bind_of_ok (load_ok hreadable), bind_of_ok (spReg_write s _),
    bind_of_ok (writeOpReg_ok (s := s.putView s.spReg _) hlegal (stkSize_fits s) r _)]
  rfl

/-- The string of a value depends on the value below 256 to its length alone. -/
theorem bytesLe_mod (v n : Nat) : bytesLe (v % 256 ^ n) n = bytesLe v n := by
  have h := bytesLe_leNat (bytesLe v n)
  rwa [leNat_bytesLe, bytesLe_length] at h

/-- The bytes of a register cell stored at the mode's width are those of the integer modulo 2^MAXW. -/
theorem bytesLe_ofInt (m : Mode) (x : Int) :
    bytesLe (BitVec.ofInt 64 x).toNat m.addrWidth.bytes = bytesLe (x % 2 ^ m.maxWidth).toNat m.addrWidth.bytes := by
  rw [← bytesLe_mod (BitVec.ofInt 64 x).toNat, ← bytesLe_mod (x % 2 ^ m.maxWidth).toNat, BitVec.toNat_ofInt]
  congr 1
  cases m <;> simp only [Mode.addrWidth, Mode.maxWidth, Width.bytes] <;> omega

/-- CALL outside Real mode and without 0x66 pushes the return address and jumps (45_reference_units.md R284). -/
theorem callBody_eq {s : State} (hmode : s.mode ≠ .real) (h66 : s.latches.p66 = false) (rel : BitVec 32) :
    callBody (pure (rel.setWidth 64)) s =
      (pushValue s.mode.addrWidth (BitVec.ofInt 64 (s.addressBase + s.ip + 5)) >>= fun _ =>
        setIp (s.ip + 5 + rel.toInt)) s := by
  have hrel : (rel.setWidth 64).setWidth 32 = rel := by simp
  rw [callBody, bind_get, if_neg (by simp [hmode, h66]), bind_pure_apply, hrel]

/-- Settles O39: the push is done first, and the write of ip is refused where the target is negative. -/
theorem callResult : Obligations.CallResult := by
  intro s rel hmode h66 hcanon hasked hwritable
  obtain ⟨st, hstored, hpush⟩ :=
    pushValue_ok (v := BitVec.ofInt 64 (s.addressBase + s.ip + 5)) hcanon hwritable
  rw [bytesLe_ofInt] at hstored
  have hbody := (callBody_eq hmode h66 rel).trans (bind_of_ok hpush)
  exact ⟨fun htarget => ⟨st, hstored, dispatch_accept rfl hasked (hbody.trans (setIp_of_nonneg htarget _))⟩,
    fun htarget => dispatch_refuse rfl hasked (hbody.trans (setIp_of_neg htarget _))⟩

end Sys2Proof.Machine
end

section
/-! The errors of the reference units (60_exceptions.md R314 to R323): a body that declines, an access that the stack
cannot serve, and an operand that the code buffer does not hold. -/

namespace Sys2Proof.Machine

open Sys2Proof

/-! ### Declines -/

/-- Without the escape an opcode byte is dispatched under its own value (30_encoding.md R104). -/
theorem execOpcode_of_no_escape {s : State} (hesc : s.latches.esc = false) (b : Byte) :
    execOpcode b s = dispatch b.toNat (refCallback b.toNat) s := by
  simp [execOpcode, effOpcode, hesc]

/-- The step at a reference opcode without the escape is the dispatch of REF's callback for it. -/
theorem step_of_reference {s : State} {b : Byte} (hr : s.running = true) (hesc : s.latches.esc = false)
    (hb : s.code[s.ip]? = some b) (hkey : (refRow b.toNat).isSome = true) :
    step s = dispatch b.toNat (refCallback b.toNat) s :=
  (step_of_opcode hr hb (byteClass_of_reference _ hkey)).trans (execOpcode_of_no_escape hesc b)

theorem nopBody_declines {s : State} (h : s.latches.rexB = true) : nopBody s = .error .decline s := by
  rw [nopBody, bind_get, if_pos h]; rfl

theorem callBody_declines {s : State} (h : s.mode = .real ∨ s.latches.p66 = true) (rel : UnitM Word) :
    callBody rel s = .error .decline s := by
  rw [callBody, bind_get, if_pos h]; rfl

theorem leaBody_declines (s : State) (reg r : RegId) :
    leaBody (fetchOperand reg (.reg r)) s = .error .decline (s.withIp (s.ip + 2)) := by
  rw [leaBody, bind_get, bind_of_ok (fetch_reg s reg r)]; rfl

/-- Bytes that the buffer holds at ip are what the decoder sees there. -/
theorem drop_of_two_bytes {s : State} {b c : Byte} (hb : s.code[s.ip]? = some b) (hc : s.code[s.ip + 1]? = some c) :
    s.code.drop s.ip = b :: c :: s.code.drop (s.ip + 2) := by
  obtain ⟨hlt, rfl⟩ := List.getElem?_eq_some_iff.mp hb
  obtain ⟨hlt', rfl⟩ := List.getElem?_eq_some_iff.mp hc
  rw [List.drop_eq_getElem_cons hlt, List.drop_eq_getElem_cons hlt']

/-- Settles O40: the three bodies decline before they change anything, and the walk ends at the end of the chain. -/
theorem referenceUnitsDecline : Obligations.ReferenceUnitsDecline := by
  intro s reg r rel
  refine ⟨fun hlast hrex => ?nop, fun hlast => ?lea, fun hlast hdecl => ?call⟩
  case nop =>
    have hdispatch := dispatch_decline hlast (nopBody_declines hrex)
    exact ⟨hdispatch, fun hesc => ⟨(execOpcode_of_no_escape hesc 0x90).trans hdispatch,
      fun hr hb => (step_of_reference hr hesc hb rfl).trans hdispatch⟩⟩
  case lea =>
    have hexec : exec (.leaRM reg (.reg r)) s = _ := dispatch_decline hlast (leaBody_declines s reg r)
    refine ⟨hexec, fun hesc hr hb hc => ?_⟩
    have hwf : wellFormed s.ctx (.leaRM reg (.reg r)) = true := by
      simp [wellFormed, refAdmitted, hesc, refWhen, RmOperand.wf]
    have hdecode := decodeOfEncode s.ctx (.leaRM reg (.reg r)) (s.code.drop (s.ip + 2)) hwf
    have hfetch : fetch s = .ok (.leaRM reg (.reg r), s.code.drop (s.ip + 2)) := by
      rw [fetch, drop_of_two_bytes hb hc]; exact hdecode
    exact (step_of_fetch_ok hr hfetch).trans hexec
  case call =>
    have hdispatch := fun rel => dispatch_decline hlast (callBody_declines hdecl rel)
    exact ⟨hdispatch _, fun hesc => ⟨(execOpcode_of_no_escape hesc 0xE8).trans (hdispatch _),
      fun hr hb => (step_of_reference hr hesc hb rfl).trans (hdispatch _)⟩⟩

/-! ### Accesses that the stack cannot serve -/

section
variable {s : State} {f : UnitM Fetched} {reg : RegId} {ea : Int} {n : Nat} {e : Stop}
  (hfetch : f s = .ok ⟨reg, .mem ea⟩ (s.withIp n))
include hfetch

/-- A move to a register stops as its load does (45_reference_units.md R277, R278). -/
theorem moveToReg_stopped {w : Width} (h : load ea w (s.withIp n) = .error e (s.withIp n)) :
    moveToReg w f s = .error e (s.withIp n) := by
  rw [moveToReg, bind_of_ok hfetch]
  exact bind_of_error h

/-- XOR r, r/m stops as its load does (45_reference_units.md R274). -/
theorem xorRRmBody_stopped (h : load ea s.opSize (s.withIp n) = .error e (s.withIp n)) :
    xorRRmBody f s = .error e (s.withIp n) := by
  rw [xorRRmBody, bind_get, bind_of_ok hfetch]
  exact bind_of_error h

/-- XOR r/m, r stops as its load does (45_reference_units.md R273). -/
theorem xorRmRBody_stopped (hlegal : latchesLegal s.mode s.latches = true)
    (h : load ea s.opSize (s.withIp n) = .error e (s.withIp n)) : xorRmRBody f s = .error e (s.withIp n) := by
  rw [xorRmRBody, bind_get, bind_of_ok hfetch, bind_of_ok (readReg_ok (s := s.withIp n) hlegal (op_fits s) reg)]
  exact bind_of_error h

end

/-- POP stops as its load does (45_reference_units.md R282). -/
theorem popBody_stopped {s : State} {e : Stop} (h : load (s.view s.spReg).toNat s.stkSize s = .error e s) (r : RegId) :
    popBody r s = .error e s := by
  rw [popBody, bind_get, bind_of_ok (spReg_read s)]
  exact bind_of_error h

/-- A unit that stops as a load does, where the stack cannot serve the load: the read's error under Strict, a refusal
under Forgiving (45_reference_units.md R287, D34). -/
theorem dispatch_of_load_stopped {op : Nat} {ref : UnitM Unit} {s u : State} {a : Int} {w : Width}
    (hkey : (refRow op).isSome = true) (hasked : RefAsked op s) (hread : ¬ Readable u.stack a w.bytes)
    (hstop : ∀ e, load a w u = .error e u → ref s = .error e u) :
    (u.stack.policy = .strict → dispatch op ref s = .next (u.takeFatal
      (if u.stack.top < a + w.bytes - 1 then .stackUnderflow a w.bytes else .stackIndex a w.bytes))) ∧
    (u.stack.policy = .forgiving → dispatch op ref s = .refused .emptyLoad) :=
  ⟨fun hp => dispatch_fatal hkey hasked (hstop _ (load_strict_stopped hp hread)),
    fun hp => dispatch_refuse hkey hasked (hstop _ (load_forgiving_stopped hp hread))⟩

/-- A MOV that the stack cannot take stops behind its memory operand (45_reference_units.md R275, R276). -/
theorem dispatch_of_mov_store_stopped {op : Nat} {ref : UnitM Unit} {s : State} {reg : RegId} {m : MemOperand}
    {w : Width} (hkey : (refRow op).isSome = true) (hasked : RefAsked op s)
    (hbody : ref s = moveToRm w (fetchOperand reg (.mem m)) s) (hlegal : latchesLegal s.mode s.latches = true)
    (hw : w.bits ≤ s.mode.maxWidth) (hwrite : ¬ Writable s.stack (s.effAddr m) w.bytes) :
    dispatch op ref s = .next ((s.withIp (s.ip + 2 + memLen m)).takeFatal
      (if s.stack.top < s.effAddr m + w.bytes - 1 then .stackUnderflow (s.effAddr m) w.bytes
        else .stackOverflow (s.effAddr m) w.bytes)) :=
  dispatch_fatal hkey hasked (hbody.trans ((moveToRm_eq_writeLoc hlegal (fetch_mem hlegal reg m) hw).trans
    (store_stopped (s := s.withIp (s.ip + 2 + memLen m)) _ hwrite)))

/-- Settles O41, by the forms that load and the two that only store. -/
theorem stackErrorKeepsMovedIp : Obligations.StackErrorKeepsMovedIp := by
  intro s i op a n hlegal hop hasked
  refine ⟨fun hload hread => ?load, fun hstore hflags hwrite => ?store⟩
  case load =>
    cases i with
    | esc2 | opsize | addrsize | rex | opcode | nop | movRm8R8 | movRmR | movR8Imm8 | movRImm | pushR | leaRM
      | callRel32 => cases hload
    | popR r =>
      cases hload
      cases hop
      exact dispatch_of_load_stopped (refRow_popR r) hasked hread fun e he => popBody_stopped he r
    | xorRmR reg rm =>
      cases rm with
      | reg r => cases hload
      | mem m =>
        cases hload
        cases hop
        exact dispatch_of_load_stopped (u := s.withIp (s.ip + 2 + memLen m)) rfl hasked hread fun e he =>
          xorRmRBody_stopped (fetch_mem hlegal reg m) hlegal he
    | xorRRm reg rm =>
      cases rm with
      | reg r => cases hload
      | mem m =>
        cases hload
        cases hop
        exact dispatch_of_load_stopped (u := s.withIp (s.ip + 2 + memLen m)) rfl hasked hread fun e he =>
          xorRRmBody_stopped (fetch_mem hlegal reg m) he
    | movR8Rm8 reg rm =>
      cases rm with
      | reg r => cases hload
      | mem m =>
        cases hload
        cases hop
        exact dispatch_of_load_stopped (u := s.withIp (s.ip + 2 + memLen m)) (w := .w8) rfl hasked hread fun e he =>
          moveToReg_stopped (fetch_mem hlegal reg m) he
    | movRRm reg rm =>
      cases rm with
      | reg r => cases hload
      | mem m =>
        cases hload
        cases hop
        exact dispatch_of_load_stopped (u := s.withIp (s.ip + 2 + memLen m)) rfl hasked hread fun e he =>
          moveToReg_stopped (fetch_mem hlegal reg m) he
  case store =>
    cases i with
    | esc2 | opsize | addrsize | rex | opcode | nop | xorRRm | movR8Rm8 | movRRm | movR8Imm8 | movRImm | pushR | popR
      | leaRM | callRel32 => cases hstore
    | xorRmR reg rm => cases hflags
    | movRm8R8 reg rm =>
      cases rm with
      | reg r => cases hstore
      | mem m =>
        cases hstore
        cases hop
        exact dispatch_of_mov_store_stopped (w := .w8) rfl hasked rfl hlegal (w8_fits s) hwrite
    | movRmR reg rm =>
      cases rm with
      | reg r => cases hstore
      | mem m =>
        cases hstore
        cases hop
        exact dispatch_of_mov_store_stopped (w := s.opSize) rfl hasked rfl hlegal (op_fits s) hwrite

/-- Settles O42: the store comes before every other write of PUSH and of CALL. -/
theorem pushErrorKeepsStackPointer : Obligations.PushErrorKeepsStackPointer := by
  intro s
  refine ⟨fun r hlegal hasked hwrite => ?push, fun rel hmode h66 hasked hwrite => ?call⟩
  case push =>
    refine dispatch_fatal (refRow_pushR r) hasked ?_
    rw [pushBody, bind_get, bind_of_ok (pushed_read hlegal r)]
    exact bind_of_error (pushValue_stopped _ hwrite)
  case call =>
    exact dispatch_fatal rfl hasked ((callBody_eq hmode h66 rel).trans (bind_of_error (pushValue_stopped _ hwrite)))

/-! ### Windows outside the code buffer -/

/-- `CodeRead` of a window inside the buffer answers its bytes (20_memory.md R62). -/
theorem codeRead_inside {s : State} {off : Int} {n : Nat} (h0 : 0 ≤ off) (hn : off + n ≤ s.code.length) :
    ∃ bs, codeRead off n s = .ok bs s ∧ bs.length = n ∧ ∀ j < n, bs[j]? = s.code[off.toNat + j]? := by
  obtain ⟨k, rfl⟩ := Int.eq_ofNat_of_zero_le h0
  refine ⟨(s.code.drop k).take n, codeRead_eq (by omega), ?_, fun j hj => ?_⟩
  · rw [List.length_take, List.length_drop]; omega
  · rw [List.getElem?_take_of_lt hj, List.getElem?_drop]; rfl

/-- Where the ModRM byte is missing, its fetch stops before ip moves (45_reference_units.md R289). -/
theorem fetchModRM_of_no_modRM {s : State} (h : s.code.length < s.ip + 2) :
    fetchModRM s = .error (.fatal (.codeWindowOutOfRange (s.ip + 1) 1)) s := by
  rw [fetchModRM, bind_get]
  exact bind_of_error (codeRead_outside (.inr (by omega)))

/-- Where the resolver stops, the fetch of the operand stops behind the ModRM byte (45_reference_units.md R289). -/
theorem fetchModRM_of_resolve_error {s u : State} {mod : Fin 4} {reg rm : RegId} {e : Stop} (hmod : mod ≠ 3)
    (hb : s.code[s.ip + 1]? = some (packByte mod reg rm))
    (h : resolve mod reg rm (s.withIp (s.ip + 2)) = .error e u) : fetchModRM s = .error e u := by
  obtain ⟨hlt, hbyte⟩ := List.getElem?_eq_some_iff.mp hb
  have hread : codeRead ((s.ip + 1 : Nat) : Int) 1 s = .ok [packByte mod reg rm] s := by
    rw [codeRead_take (List.drop_eq_getElem_cons hlt) (by simp only [List.length_cons]; omega) (by decide), hbyte]; rfl
  have hvalue : BitVec.ofNat 8 (leNat [packByte mod reg rm]) = packByte mod reg rm := by simp [leNat]
  rw [fetchModRM, bind_get, bind_of_ok hread, hvalue]
  simp only [byteHi_packByte, byteMid_packByte, byteLow_packByte]
  rw [bind_of_ok (skip_apply 2 s), if_neg hmod, bind_of_error h]

/-- REF's callback for an opcode with a ModRM operand fetches the operand first. -/
theorem refCallback_fetches {b : Byte} (hb : b ∈ ([0x31, 0x33, 0x88, 0x89, 0x8A, 0x8B, 0x8D] : List Byte)) (s : State) :
    ∃ k : Fetched → UnitM Unit, refCallback b.toNat s = (fetchModRM >>= k) s := by
  simp only [List.mem_cons, List.not_mem_nil, or_false] at hb
  rcases hb with rfl | rfl | rfl | rfl | rfl | rfl | rfl <;> exact ⟨_, rfl⟩

/-- The displacement that `mod` announces, where it is not all there. -/
theorem readDisp_outside {s : State} {off n : Nat} {mod : Fin 4} (hmod : mod = 1 ∧ n = 1 ∨ mod = 2 ∧ n = 4)
    (h : s.code.length < off + n) : readDisp off mod s = .error (.fatal (.codeWindowOutOfRange off n)) s := by
  have hsize : dispSizeOf mod = n ∧ n ≠ 0 := by rcases hmod with ⟨rfl, rfl⟩ | ⟨rfl, rfl⟩ <;> decide
  rw [readDisp, hsize.1, if_neg hsize.2]
  exact codeRead_outside (.inr (by omega))

section
variable {s : State} {mod : Fin 4} {reg rm : RegId} (hmod : mod ≠ 3)
include hmod

/-- The SIB byte is missing (42_address_resolver.md R215). -/
theorem resolve_of_no_sib (hrm : rm = 4) (h : s.code.length ≤ s.ip) :
    resolve mod reg rm s = .error (.fatal (.codeWindowOutOfRange s.ip 1)) s := by
  rw [resolve, bind_get, if_neg hmod, if_pos hrm]
  exact bind_of_error (codeRead_outside (.inr (by omega)))

/-- The displacement behind the SIB byte is missing (42_address_resolver.md R215). -/
theorem resolve_of_no_sib_disp (hlegal : latchesLegal s.mode s.latches = true) (hrm : rm = 4) {n : Nat}
    (hn : mod = 1 ∧ n = 1 ∨ mod = 2 ∧ n = 4) (hsib : s.ip < s.code.length) (h : s.code.length < s.ip + 1 + n) :
    resolve mod reg rm s = .error (.fatal (.codeWindowOutOfRange (s.ip + 1 : Nat) n)) s := by
  rw [resolve, bind_get, if_neg hmod, if_pos hrm, bind_of_ok (codeRead_eq hsib),
    bind_of_ok (addrReg_ok hlegal _ _), bind_of_ok (addrReg_ok hlegal _ _)]
  exact bind_of_error (readDisp_outside hn h)

/-- The displacement of the RIP form is missing (42_address_resolver.md R216). -/
theorem resolve_of_no_rip_disp (hrm : rm = 5) (hzero : mod = 0) (hlong : s.mode = .long)
    (h : s.code.length < s.ip + 4) :
    resolve mod reg rm s = .error (.fatal (.codeWindowOutOfRange s.ip 4)) s := by
  rw [resolve, bind_get, if_neg hmod, if_neg (by rw [hrm]; decide), if_pos ⟨hrm, hzero, hlong⟩]
  exact bind_of_error (codeRead_outside (.inr (by omega)))

/-- The displacement of the Direct form is missing (42_address_resolver.md R214). -/
theorem resolve_of_no_direct_disp (hlegal : latchesLegal s.mode s.latches = true) (hrm : rm ≠ 4) {n : Nat}
    (hn : mod = 1 ∧ n = 1 ∨ mod = 2 ∧ n = 4) (h : s.code.length < s.ip + n) :
    resolve mod reg rm s = .error (.fatal (.codeWindowOutOfRange s.ip n)) s := by
  have hzero : mod ≠ 0 := by rcases hn with ⟨rfl, -⟩ | ⟨rfl, -⟩ <;> decide
  rw [resolve, bind_get, if_neg hmod, if_neg hrm, if_neg (fun h => hzero h.2.1), bind_of_ok (addrReg_ok hlegal _ _)]
  exact bind_of_error (readDisp_outside hn h)

end

/-- The opcode bytes of the two forms with an immediate (30_encoding.md R122). -/
theorem opcodeWithReg_toNat : ∀ r : RegId, (opcodeWithReg 0xB8 r).toNat = 0x0B8 + r.val ∧
    (opcodeWithReg 0xB0 r).toNat = 0x0B0 + r.val := by
  decide

theorem refRow_immediate : ∀ r : RegId, refRow (0x0B8 + r.val) = some .movRImm ∧
    refRow (0x0B0 + r.val) = some .movR8Imm8 := by
  decide

section
variable {s u : State} {b : Byte} {e : FatalError} (hr : s.running = true) (hesc : s.latches.esc = false)
  (hb : s.code[s.ip]? = some b)
include hr hesc hb

/-- Where REF is asked for the opcode byte at ip and its callback raises, the step takes that error. -/
theorem step_of_reference_error {op : Nat} (hop : b.toNat = op) (hkey : (refRow op).isSome = true)
    (hasked : RefAsked op s) (h : refCallback op s = .error (.fatal e) u) : step s = .next (u.takeFatal e) := by
  subst hop
  exact (step_of_reference hr hesc hb hkey).trans (dispatch_fatal hkey hasked h)

/-- The same where the fetch of a ModRM operand raises. -/
theorem step_of_operand_error (hmem : b ∈ ([0x31, 0x33, 0x88, 0x89, 0x8A, 0x8B, 0x8D] : List Byte))
    (hasked : RefAsked b.toNat s) (h : fetchModRM s = .error (.fatal e) u) : step s = .next (u.takeFatal e) := by
  have hkey : ∀ b ∈ ([0x31, 0x33, 0x88, 0x89, 0x8A, 0x8B, 0x8D] : List Byte), (refRow b.toNat).isSome = true := by
    decide
  obtain ⟨k, hk⟩ := refCallback_fetches hmem s
  exact step_of_reference_error hr hesc hb rfl (hkey b hmem) hasked (hk.trans (bind_of_error h))

end

/-- Settles O43: each truncated form stops at the read of the window that is missing. -/
theorem truncatedOperandRaises : Obligations.TruncatedOperandRaises := by
  intro s
  refine ⟨fun off n => ⟨codeRead_inside, codeRead_outside⟩, fun hr hesc hlegal =>
    ⟨fun r hasked hb hlen => ?imm, fun r hasked hb hlen => ?imm8, fun hasked hmode h66 hb hlen => ?call,
      fun b hmem hasked hb => ⟨fun hlen => ?modRM, fun mod reg rm hmod hc => ⟨fun hrm hlen => ?sib,
        fun hrm n hn hsib hlen => ?sibDisp, fun hrm hzero hlong hlen => ?rip, fun hrm n hn hlen => ?direct⟩⟩⟩⟩
  case imm =>
    refine step_of_reference_error hr hesc hb (opcodeWithReg_toNat r).1 (refRow_movRImm r) hasked ?_
    rw [refCallback, (refRow_immediate r).1]
    show movRImmBody _ fetchImm s = _
    rw [movRImmBody, bind_get]
    exact bind_of_error (fetchImm_outside hlen)
  case imm8 =>
    refine step_of_reference_error hr hesc hb (opcodeWithReg_toNat r).2 (refRow_movR8Imm8 r) hasked ?_
    rw [refCallback, (refRow_immediate r).2]
    exact bind_of_error (fetchImm_outside (by omega))
  case call =>
    refine step_of_reference_error hr hesc hb rfl rfl hasked (u := s) ?_
    show callBody (fetchImm 4) s = _
    rw [callBody, bind_get, if_neg (by simp [hmode, h66])]
    exact bind_of_error (fetchImm_outside (by omega))
  case modRM => exact step_of_operand_error hr hesc hb hmem hasked (fetchModRM_of_no_modRM (by omega))
  case sib =>
    have hresolve := resolve_of_no_sib (s := s.withIp (s.ip + 2)) (reg := reg) hmod hrm hlen.le
    exact step_of_operand_error hr hesc hb hmem hasked (fetchModRM_of_resolve_error hmod hc hresolve)
  case sibDisp =>
    have hresolve := resolve_of_no_sib_disp (s := s.withIp (s.ip + 2)) (reg := reg) hmod hlegal hrm hn hsib hlen
    exact step_of_operand_error hr hesc hb hmem hasked (fetchModRM_of_resolve_error hmod hc hresolve)
  case rip =>
    have hresolve := resolve_of_no_rip_disp (s := s.withIp (s.ip + 2)) (reg := reg) hmod hrm hzero hlong hlen
    exact step_of_operand_error hr hesc hb hmem hasked (fetchModRM_of_resolve_error hmod hc hresolve)
  case direct =>
    have hresolve := resolve_of_no_direct_disp (s := s.withIp (s.ip + 2)) (reg := reg) hmod hlegal hrm hn hlen
    exact step_of_operand_error hr hesc hb hmem hasked (fetchModRM_of_resolve_error hmod hc hresolve)

end Sys2Proof.Machine
end

section
/-! The flags of XOR and the flag access, bit by bit (45_reference_units.md R288; 43_host_interface.md R250, R251). -/

namespace Sys2Proof.Machine

open Sys2Proof

/-- The flags after XOR, bit by bit, the last line of `LogicFlags` first (45_reference_units.md R288). -/
theorem logicFlags_bit (p : FlagBits) (r : Word) (w : Width) (f : BitVec 32) (k : Fin 32) :
    (logicFlags p r w f).getLsbD k.val =
      if k = p.pf then evenParity r else if k = p.zf then r == 0 else if k = p.sf then r.getLsbD (w.bits - 1)
      else if k = p.of then false else if k = p.cf then false else f.getLsbD k.val := by
  simp only [logicFlags, setMasked_bit _ _ _ _ k.isLt, Fin.val_inj]

/-- The flags that XOR does not name are kept (45_reference_units.md R288). -/
theorem logicFlags_other (p : FlagBits) (r : Word) (w : Width) (f : BitVec 32) {k : Fin 32}
    (hk : k ∉ [p.cf, p.of, p.sf, p.zf, p.pf]) : (logicFlags p r w f).getLsbD k.val = f.getLsbD k.val := by
  simp only [List.mem_cons, List.not_mem_nil, or_false, not_or] at hk
  obtain ⟨hc, ho, hs, hz, hp⟩ := hk
  rw [logicFlags_bit, if_neg hp, if_neg hz, if_neg hs, if_neg ho, if_neg hc]

theorem evenParity_eq (r : Word) :
    evenParity r = decide (Even ((Finset.range 8).filter fun k => r.getLsbD k = true).card) := by
  have hcount : ((List.range 8).countP fun i => r.getLsbD i) =
      ((Finset.range 8).filter fun k => r.getLsbD k = true).card := by
    simp [List.countP_eq_length_filter, Finset.card, Finset.filter, Finset.range, Multiset.range]
  rw [evenParity, hcount, Bool.eq_iff_iff, beq_iff_eq, decide_eq_true_iff, Nat.even_iff]

/-- Settles O31: the five positions are distinct, so each keeps what its own line wrote. -/
theorem logicFlagsRule : Obligations.LogicFlagsRule := by
  intro p r w f hdistinct
  simp only [FlagBits.Distinct, List.nodup_cons, List.mem_cons, List.not_mem_nil, or_false, not_or] at hdistinct
  obtain ⟨⟨hcp, -, hcz, hcs, hco⟩, ⟨-, hpz, hps, hpo⟩, -, ⟨hzs, hzo⟩, hso, -⟩ := hdistinct
  refine ⟨?cf, ?of, ?sf, ?zf, ?pf, fun k hk => logicFlags_other p r w f hk⟩ <;> rw [logicFlags_bit]
  case cf => rw [if_neg hcp, if_neg hcz, if_neg hcs, if_neg hco, if_pos rfl]
  case of => rw [if_neg (Ne.symm hpo), if_neg (Ne.symm hzo), if_neg (Ne.symm hso), if_pos rfl]
  case sf => rw [if_neg (Ne.symm hps), if_neg (Ne.symm hzs), if_pos rfl]
  case zf => rw [if_neg (Ne.symm hpz), if_pos rfl]; rfl
  case pf => rw [if_pos rfl, evenParity_eq]

/-! ### Access by mask -/

theorem oneBitMask_iff (m : Nat) : oneBitMask m = true ↔ ∃ k : Fin 32, m = 2 ^ k.val := by
  simp only [oneBitMask, List.any_eq_true, List.mem_range, beq_iff_eq]
  exact ⟨fun ⟨i, hi, h⟩ => ⟨⟨i, hi⟩, h⟩, fun ⟨k, h⟩ => ⟨k.val, k.isLt, h⟩⟩

/-- `GetFlag` by a flag's mask is the flag's bit (43_host_interface.md R250). -/
theorem getMasked_flagMask (f : BitVec 32) (k : Fin 32) : getMasked f (flagMask k) = f.getLsbD k.val := by
  have hmask : flagMask k = BitVec.twoPow 32 k.val := BitVec.eq_of_toNat_eq (by simp [flagMask])
  rw [getMasked, hmask, BitVec.and_twoPow]
  cases f.getLsbD k.val with
  | false => rfl
  | true =>
    have hne : BitVec.twoPow 32 k.val ≠ 0 := fun h => by
      have := congrArg (·.getLsbD k.val) h
      simp at this
    simpa using hne

/-- Settles O54: a mask is one bit below 32, or both operations refuse it. -/
theorem flagAccess : Obligations.FlagAccess := by
  intro s m b
  refine ⟨fun k hm => ?one, fun hm => ?other⟩
  case one =>
    have hone : oneBitMask m = true := (oneBitMask_iff m).mpr ⟨k, hm⟩
    have hmask : BitVec.ofNat 32 m = flagMask k := by rw [hm]; rfl
    refine ⟨?_, setMasked s.eflags (flagMask k) b, ?_, fun j hj => setMasked_bit _ k b j hj⟩
    · simp [getFlag, hone, hmask, getMasked_flagMask]
    · simp [setFlag, hone, hmask]
  case other =>
    have hone : oneBitMask m = false := by rw [← Bool.not_eq_true, oneBitMask_iff]; exact hm
    exact ⟨by simp [getFlag, hone], by simp [setFlag, hone]⟩

end Sys2Proof.Machine
end

section
/-! The resolver on the code buffer (42_address_resolver.md R210 to R222). -/

namespace Sys2Proof.Machine

open Sys2Proof

/-- The Addressing Result of a decoded operand where ip is behind the ModRM byte (42_address_resolver.md R214 to
R216). -/
def State.addrResult (s : State) : MemOperand → AddrResult
  | .direct base d => .direct (s.view (s.regOp base s.latches.rexB s.mode.addrWidth)) (dispValue d) (dispLen d)
  | .sib scale index base d =>
    .sib (2 ^ scale.val) (s.view (s.regOp index s.latches.rexX s.mode.addrWidth))
      (s.view (s.regOp base s.latches.rexB s.mode.addrWidth)) (dispValue d) (dispLen d)
  | .rip d => .rip s.ip d.toInt

theorem addrResult_consumed (s : State) (m : MemOperand) : (s.addrResult m).consumed = memLen m := by
  cases m <;> rfl

/-- Its address is the operand's effective address and the extra offset, an exact integer (R224, R225). -/
theorem addrResult_address (s : State) (m : MemOperand) (e : Int) :
    ((s.withIp (s.ip + 2)).addrResult m).address e = s.effAddr m + e := by
  cases m with
  | direct base d => rfl
  | sib scale index base d =>
    simp [State.addrResult, AddrResult.address, State.effAddr, State.addrReg]
  | rip d => simp [State.addrResult, AddrResult.address, State.effAddr]

/-- A base or index register that is read answers its view at the mode's width (R219). -/
theorem readAddrReg_ends (f : RegId) (e : Bool) (s : State) :
    Ends (fun v t => v = s.view (s.regOp f e s.mode.addrWidth) ∧ t = s) (StopsAt s) (readAddrReg f e s) :=
  regRead_ends _ s

/-- Resolving a decoded operand gives its Addressing Result or stops with nothing changed. -/
theorem evalMem_ends (m : MemOperand) (s : State) :
    Ends (fun A t => A = s.addrResult m ∧ t = s) (StopsAt s) (evalMem m s) := by
  cases m with
  | direct base d =>
    refine (readAddrReg_ends base s.latches.rexB s).bind (fun _ _ h => h) ?_
    rintro _ _ ⟨rfl, rfl⟩
    exact ⟨rfl, rfl⟩
  | sib scale index base d =>
    refine (readAddrReg_ends index s.latches.rexX s).bind (fun _ _ h => h) ?_
    rintro _ _ ⟨rfl, rfl⟩
    refine (readAddrReg_ends base _ _).bind (fun _ _ h => h) ?_
    rintro _ _ ⟨rfl, rfl⟩
    exact ⟨rfl, rfl⟩
  | rip d => exact ⟨rfl, rfl⟩

/-- Where the latches are the mode's it does not stop. -/
theorem evalMem_ok {s : State} (hlegal : latchesLegal s.mode s.latches = true) (m : MemOperand) :
    evalMem m s = .ok (s.addrResult m) s := by
  cases m with
  | direct base d => exact bind_of_ok (addrReg_ok hlegal base s.latches.rexB)
  | sib scale index base d =>
    exact (bind_of_ok (addrReg_ok hlegal index s.latches.rexX)).trans
      (bind_of_ok (addrReg_ok hlegal base s.latches.rexB))
  | rip d => rfl

/-- Settles O53: the resolver does with the bytes what it does with the operand that the decoder reads there. -/
theorem resolverComputesEffectiveAddress : Obligations.ResolverComputesEffectiveAddress := by
  intro s mod reg rm m rest hlegal hmod hip hdecode
  refine ⟨s.addrResult m, (resolve_eval hmod hdecode).trans (evalMem_ok hlegal m), addrResult_consumed s m, fun e => ?_⟩
  have haddr := addrResult_address (s.withIp (s.ip - 2)) m e
  rwa [State.withIp_withIp, State.withIp_ip, Nat.sub_add_cancel hip, State.withIp_self] at haddr

end Sys2Proof.Machine
end

section
/-! Frames of the reference units (45_reference_units.md R285): the states a body can leave, ended or stopped, and what
they share with the state before it. -/

namespace Sys2Proof.Machine

open Sys2Proof

/-! ### Where a body can leave the state -/

/-- The computation does not decline, and the state it leaves, ended or stopped, is one of `F`. -/
def EndsIn {α : Type} (F : State → Prop) (r : EStateM.Result Stop State α) : Prop :=
  Ends (fun _ t => F t) (fun e t => e ≠ .decline ∧ F t) r

namespace EndsIn
variable {α β : Type} {F : State → Prop} {x : UnitM α} {k : α → UnitM β} {s : State}

/-- An operation that stops with nothing changed, in front of the rest. -/
theorem bind {P : α → State → Prop} (hx : Ends P (StopsAt s) (x s)) (hs : F s)
    (hk : ∀ a t, P a t → EndsIn F (k a t)) : EndsIn F ((x >>= k) s) :=
  Ends.bind hx (fun _ _ h => ⟨h.1, h.2 ▸ hs⟩) hk

theorem read (hx : Reads x) (hs : F s) (hk : ∀ a, EndsIn F (k a s)) : EndsIn F ((x >>= k) s) :=
  bind (hx s) hs fun a _ ht => ht ▸ hk a

/-- A state read at the start. -/
theorem withState {k : State → UnitM β} (hk : EndsIn F (k s s)) : EndsIn F ((get >>= k) s) := hk

/-- An operation that stops with nothing changed, as the last. -/
theorem last {P : α → State → Prop} (hx : Ends P (StopsAt s) (x s)) (hs : F s) (hP : ∀ a t, P a t → F t) :
    EndsIn F (x s) := by
  cases h : x s with
  | ok a t => rw [h] at hx; exact hP a t hx
  | error e t => rw [h] at hx; exact ⟨hx.1, hx.2 ▸ hs⟩

end EndsIn

/-- Where an `r/m` operand lies (45_reference_units.md R289). -/
def State.locOf (s : State) : RmOperand → Loc
  | .reg r => .reg r
  | .mem m => .mem (s.effAddr m)

/-- The fetch of a decoded operand moves ip alone, and gives the operand at its effective address. -/
theorem EndsIn.fetch {β : Type} {F : State → Prop} {k : Fetched → UnitM β} {s : State} (hF : ∀ n, F (s.withIp n))
    {reg : RegId} {rm : RmOperand} (hk : ∀ n, EndsIn F (k ⟨reg, s.locOf rm⟩ (s.withIp n))) :
    EndsIn F ((fetchOperand reg rm >>= k) s) := by
  cases rm with
  | reg r => rw [bind_of_ok (fetch_reg s reg r)]; exact hk _
  | mem m =>
    have hfetch : Ends (fun o t => o = ⟨reg, s.locOf (.mem m)⟩ ∧ ∃ n, t = s.withIp n) (StopsAt (s.withIp (s.ip + 2)))
        (fetchOperand reg (.mem m) s) := by
      refine (evalMem_ends m (s.withIp (s.ip + 2))).bind (fun _ _ h => h) ?_
      rintro _ _ ⟨rfl, rfl⟩
      exact ⟨by rw [addrResult_address, Int.add_zero]; rfl, _, rfl⟩
    refine Ends.bind hfetch (fun _ _ h => ⟨h.1, h.2 ▸ hF _⟩) ?_
    rintro _ _ ⟨rfl, n, rfl⟩
    exact hk n

/-- A dispatch where REF is asked and does not decline: what it leaves is REF's state but for the latches and the fault
record, which move as acceptance and a fatal error say. -/
theorem frame_of_dispatch {op : Nat} {ref : UnitM Unit} {s t : State} {F : State → Prop}
    (hkey : (refRow op).isSome = true) (hasked : RefAsked op s) (hsteps : Steps ref) (hends : EndsIn F (ref s))
    (h : dispatch op ref s = .next t) :
    ∃ u, F u ∧ SameConfiguration s t ∧ AcceptedOrFaulted s t ∧ t.stack = u.stack ∧ t.slots = u.slots ∧
      t.eflags = u.eflags := by
  have hstep : UnitStep s (stateAfter (ref s)) := hsteps s
  cases hs : ref s with
  | ok a u =>
    rw [hs] at hends hstep
    cases h.symm.trans (dispatch_accept hkey hasked hs)
    exact ⟨u, hends, hstep.clearLatches.configuration, .inl ⟨rfl, hstep.faulted⟩, rfl, rfl, rfl⟩
  | error e u =>
    rw [hs] at hends hstep
    obtain ⟨hdecline, hF⟩ := hends
    cases e with
    | decline => exact absurd rfl hdecline
    | refuse r => cases h.symm.trans (dispatch_refuse hkey hasked hs)
    | fatal e =>
      cases h.symm.trans (dispatch_fatal hkey hasked hs)
      refine ⟨u, hF, (hstep.takeFatal e).configuration, .inr ⟨?_, State.takeFatal_isSome u e, fun hsome => ?_⟩,
        State.takeFatal_stack u e, State.takeFatal_slots u e, State.takeFatal_eflags u e⟩
      · exact (State.takeFatal_latches u e).trans hstep.latches
      · obtain ⟨e₀, he₀⟩ := Option.isSome_iff_exists.mp hsome
        have hu : u.faulted = s.faulted := hstep.faulted
        rw [State.takeFatal_of_some (hu.trans he₀), hu]

/-! ### The forms with one destination register -/

/-- What a form with the destination `d` can leave: ip moved, or the destination written too, and the flags of an
XOR. -/
inductive RegisterEffect (xor : Bool) (d : Descriptor) (s : State) : State → Prop
  | moved (n : Nat) : RegisterEffect xor d s (s.withIp n)
  | written (n : Nat) (v : Word) : RegisterEffect xor d s ((s.putView d v).withIp n)
  | writtenWithFlags (hxor : xor = true) (n : Nat) (v r : Word) (w : Width) :
    RegisterEffect xor d s (((s.putView d v).setLogicFlags r w).withIp n)

section
variable (xor : Bool) (s : State)

theorem moveToReg_effect (w : Width) (reg : RegId) (rm : RmOperand) :
    EndsIn (RegisterEffect xor (s.regD reg w) s) (moveToReg w (fetchOperand reg rm) s) := by
  refine .fetch .moved fun n => .read (readLoc_reads _ _) (.moved n) fun v => ?_
  refine .last (regWrite_ends _ v (s.withIp n)) (.moved n) ?_
  rintro _ _ rfl
  exact .written n v

theorem moveToRm_reg_effect (w : Width) (reg r : RegId) :
    EndsIn (RegisterEffect xor (s.rmD r w) s) (moveToRm w (fetchOperand reg (.reg r)) s) := by
  refine .fetch .moved fun n => .read (readReg_reads _ _) (.moved n) fun v => ?_
  refine .last (regWrite_ends _ v (s.withIp n)) (.moved n) ?_
  rintro _ _ rfl
  exact .written n v

theorem xorRRmBody_effect (reg : RegId) (rm : RmOperand) :
    EndsIn (RegisterEffect true (s.regD reg s.opSize) s) (xorRRmBody (fetchOperand reg rm) s) := by
  refine .withState (.fetch .moved fun n => .read (readLoc_reads _ _) (.moved n) fun x =>
    .read (readReg_reads _ _) (.moved n) fun y => .bind (regWrite_ends _ (y ^^^ x) (s.withIp n)) (.moved n) ?_)
  rintro _ _ rfl
  exact RegisterEffect.writtenWithFlags rfl n (y ^^^ x) (y ^^^ x) s.opSize

theorem xorRmRBody_reg_effect (reg r : RegId) :
    EndsIn (RegisterEffect true (s.rmD r s.opSize) s) (xorRmRBody (fetchOperand reg (.reg r)) s) := by
  refine .withState (.fetch .moved fun n => .read (readReg_reads _ _) (.moved n) fun x =>
    .read (readLoc_reads _ _) (.moved n) fun y => .bind (regWrite_ends _ (y ^^^ x) (s.withIp n)) (.moved n) ?_)
  rintro _ _ rfl
  exact RegisterEffect.writtenWithFlags rfl n (y ^^^ x) (y ^^^ x) s.opSize

theorem leaBody_effect (reg : RegId) (m : MemOperand) :
    EndsIn (RegisterEffect xor (s.regD reg s.opSize) s) (leaBody (fetchOperand reg (.mem m)) s) := by
  refine .withState (.fetch .moved fun n => .last (regWrite_ends _ _ (s.withIp n)) (.moved n) ?_)
  rintro _ _ rfl
  exact .written n _

theorem movR8Imm8Body_effect (r : RegId) (v : Word) :
    EndsIn (RegisterEffect xor (s.rmD r .w8) s) (movR8Imm8Body r (pure v) s) := by
  rw [movR8Imm8Body, bind_pure_apply]
  refine .bind (regWrite_ends _ v s) (.moved s.ip) ?_
  rintro _ _ rfl
  exact RegisterEffect.written (s.ip + 2) v

theorem movRImmBody_effect (r : RegId) (v : Word) :
    EndsIn (RegisterEffect xor (s.rmD r s.opSize) s) (movRImmBody r (fun _ => pure v) s) := by
  rw [movRImmBody, bind_get, bind_pure_apply]
  refine .bind (regWrite_ends _ v s) (.moved s.ip) ?_
  rintro _ _ rfl
  exact RegisterEffect.written (s.ip + (1 + s.opSize.bytes)) v

end

/-- Every form with one destination register and no store leaves a state of `RegisterEffect`, by the forms. -/
theorem exec_register_form {s t : State} {i : Instr} {op : Nat} {d : Descriptor} (hop : opcodeOf i = some op)
    (hdest : s.destOf i = some d) (hasked : RefAsked op s) (h : exec i s = .next t) :
    ∃ u, RegisterEffect (writesLogicFlags i) d s u ∧ SameConfiguration s t ∧ AcceptedOrFaulted s t ∧
      t.stack = u.stack ∧ t.slots = u.slots ∧ t.eflags = u.eflags := by
  cases i with
  | esc2 | opsize | addrsize | rex | opcode | nop | pushR | popR | callRel32 => cases hdest
  | xorRmR reg rm =>
    cases rm with
    | mem m => cases hdest
    | reg r =>
      cases hop; cases hdest
      exact frame_of_dispatch rfl hasked (xorRmRBody_steps (fetchOperand_steps _ _)) (xorRmRBody_reg_effect s reg r) h
  | xorRRm reg rm =>
    cases hop; cases hdest
    exact frame_of_dispatch rfl hasked (xorRRmBody_steps (fetchOperand_steps _ _)) (xorRRmBody_effect s reg rm) h
  | movRm8R8 reg rm =>
    cases rm with
    | mem m => cases hdest
    | reg r =>
      cases hop; cases hdest
      exact frame_of_dispatch rfl hasked (movRm8R8Body_steps (fetchOperand_steps _ _))
        (moveToRm_reg_effect _ s .w8 reg r) h
  | movRmR reg rm =>
    cases rm with
    | mem m => cases hdest
    | reg r =>
      cases hop; cases hdest
      exact frame_of_dispatch rfl hasked (movRmRBody_steps (fetchOperand_steps _ _))
        (moveToRm_reg_effect _ s s.opSize reg r) h
  | movR8Rm8 reg rm =>
    cases hop; cases hdest
    exact frame_of_dispatch rfl hasked (movR8Rm8Body_steps (fetchOperand_steps _ _)) (moveToReg_effect _ s .w8 reg rm) h
  | movRRm reg rm =>
    cases hop; cases hdest
    exact frame_of_dispatch rfl hasked (movRRmBody_steps (fetchOperand_steps _ _))
      (moveToReg_effect _ s s.opSize reg rm) h
  | movR8Imm8 r v =>
    cases hop; cases hdest
    exact frame_of_dispatch (refRow_movR8Imm8 r) hasked (movR8Imm8Body_steps _ (Steps.pure _))
      (movR8Imm8Body_effect _ s r _) h
  | movRImm r v =>
    cases hop; cases hdest
    exact frame_of_dispatch (refRow_movRImm r) hasked (movRImmBody_steps _ fun _ => Steps.pure _)
      (movRImmBody_effect _ s r _) h
  | leaRM reg rm =>
    cases rm with
    | reg r => cases hdest
    | mem m =>
      cases hop; cases hdest
      exact frame_of_dispatch rfl hasked (leaBody_steps (fetchOperand_steps _ _)) (leaBody_effect _ s reg m) h

/-- A merging write keeps the bits of its slot outside the view (41_register_file.md R187). -/
theorem slotAfterWrite_bit_outside {m : Mode} {p : Params} {d : Descriptor} (old v : Word)
    (hmerge : ¬ (m = .long ∧ 32 ≤ d.width.bits)) {k : Nat} (hk : k < d.shift p ∨ d.shift p + d.width.bits ≤ k) :
    (slotAfterWrite m p d old v).getLsbD k = old.getLsbD k := by
  by_cases h64 : k < 64
  · rw [slotAfterWrite_bit m p d old v hmerge k h64, if_neg (by omega)]
  · rw [BitVec.getLsbD_of_ge _ _ (Nat.not_lt.mp h64), BitVec.getLsbD_of_ge _ _ (Nat.not_lt.mp h64)]

/-- A register write keeps every other slot and, where it merges, the bits outside the view. -/
theorem putView_frame (s : State) (d : Descriptor) (v : Word) :
    (∀ j, j ≠ d.slot → (s.putView d v).slots.get j = s.slots.get j) ∧
      (¬ (s.mode = .long ∧ 32 ≤ d.width.bits) → ∀ k, k < d.shift s.params ∨ d.shift s.params + d.width.bits ≤ k →
        ((s.putView d v).slots.get d.slot).getLsbD k = (s.slots.get d.slot).getLsbD k) := by
  refine ⟨fun j hj => putView_slot_other s v hj, fun hmerge k hk => ?_⟩
  rw [putView_slot_same, slotAfterWrite_bit_outside _ _ hmerge hk]

/-- What every effect of a register form leaves as it was. -/
theorem RegisterEffect.frame {i : Instr} {d : Descriptor} {s u : State}
    (h : RegisterEffect (writesLogicFlags i) d s u) :
    u.stack = s.stack ∧ SameFlags i s u ∧ (∀ j, j ≠ d.slot → u.slots.get j = s.slots.get j) ∧
      (¬ (s.mode = .long ∧ 32 ≤ d.width.bits) → ∀ k, k < d.shift s.params ∨ d.shift s.params + d.width.bits ≤ k →
        (u.slots.get d.slot).getLsbD k = (s.slots.get d.slot).getLsbD k) := by
  cases h with
  | moved n => exact ⟨rfl, fun _ _ => rfl, fun _ _ => rfl, fun _ _ _ => rfl⟩
  | written n v => exact ⟨rfl, fun _ _ => rfl, putView_frame s d v⟩
  | writtenWithFlags hxor n v r w =>
    exact ⟨rfl, fun k hk => logicFlags_other _ r w _ fun hmem => hk ⟨hxor, hmem⟩, putView_frame s d v⟩

/-- Settles O44: the effect of a register form, and the frame of the effect. -/
theorem registerFormFrame : Obligations.RegisterFormFrame := by
  intro s t i op d hop hdest hasked h
  obtain ⟨u, heffect, hconf, hended, hstack, hslots, hflags⟩ := exec_register_form hop hdest hasked h
  obtain ⟨hustack, huflags, hother, hbits⟩ := heffect.frame
  rw [hslots]
  exact ⟨hconf, hstack.trans hustack, fun k hk => hflags ▸ huflags k hk, hended, hother, hbits⟩

/-! ### The forms with a memory destination -/

/-- What a form that stores `n` bytes at `a` can leave: ip moved, or the bytes written too, and the flags of an XOR. -/
inductive StoreEffect (xor : Bool) (a : Int) (n : Nat) (s : State) : State → Prop
  | moved (k : Nat) : StoreEffect xor a n s (s.withIp k)
  | stored (k : Nat) {bs : List Byte} (hn : bs.length = n) {st : Stack} (hst : s.stack.write a bs = .ok st) :
    StoreEffect xor a n s ((s.withStack st).withIp k)
  | storedWithFlags (hxor : xor = true) (k : Nat) {bs : List Byte} (hn : bs.length = n) {st : Stack}
    (hst : s.stack.write a bs = .ok st) (r : Word) (w : Width) :
    StoreEffect xor a n s (((s.withStack st).setLogicFlags r w).withIp k)

theorem moveToRm_mem_effect (xor : Bool) (s : State) (w : Width) (reg : RegId) (m : MemOperand) :
    EndsIn (StoreEffect xor (s.effAddr m) w.bytes s) (moveToRm w (fetchOperand reg (.mem m)) s) := by
  refine .fetch .moved fun k => .read (readReg_reads _ _) (.moved k) fun v => ?_
  refine .last (store_ends _ w v (s.withIp k)) (.moved k) ?_
  rintro _ _ ⟨st, hst, rfl⟩
  exact .stored k (bytesLe_length _ _) hst

theorem xorRmRBody_mem_effect (s : State) (reg : RegId) (m : MemOperand) :
    EndsIn (StoreEffect true (s.effAddr m) s.opSize.bytes s) (xorRmRBody (fetchOperand reg (.mem m)) s) := by
  refine .withState (.fetch .moved fun k => .read (readReg_reads _ _) (.moved k) fun x =>
    .read (readLoc_reads _ _) (.moved k) fun y => .bind (store_ends _ s.opSize (y ^^^ x) (s.withIp k)) (.moved k) ?_)
  rintro _ _ ⟨st, hst, rfl⟩
  exact StoreEffect.storedWithFlags (s := s) rfl k (bytesLe_length _ _) hst (y ^^^ x) s.opSize

/-- Every form with a memory destination leaves a state of `StoreEffect`, by the forms. -/
theorem exec_store_form {s t : State} {i : Instr} {op : Nat} {a : Int} {n : Nat} (hop : opcodeOf i = some op)
    (hstore : s.storeOf i = some (a, n)) (hasked : RefAsked op s) (h : exec i s = .next t) :
    n ≠ 0 ∧ ∃ u, StoreEffect (writesLogicFlags i) a n s u ∧ SameConfiguration s t ∧ AcceptedOrFaulted s t ∧
      t.stack = u.stack ∧ t.slots = u.slots ∧ t.eflags = u.eflags := by
  cases i with
  | esc2 | opsize | addrsize | rex | opcode | nop | xorRRm | movR8Rm8 | movRRm | movR8Imm8 | movRImm | pushR | popR
    | leaRM | callRel32 => cases hstore
  | xorRmR reg rm =>
    cases rm with
    | reg r => cases hstore
    | mem m =>
      cases hop; cases hstore
      exact ⟨bytes_pos _, frame_of_dispatch rfl hasked (xorRmRBody_steps (fetchOperand_steps _ _))
        (xorRmRBody_mem_effect s reg m) h⟩
  | movRm8R8 reg rm =>
    cases rm with
    | reg r => cases hstore
    | mem m =>
      cases hop; cases hstore
      exact ⟨one_ne_zero, frame_of_dispatch rfl hasked (movRm8R8Body_steps (fetchOperand_steps _ _))
        (moveToRm_mem_effect _ s .w8 reg m) h⟩
  | movRmR reg rm =>
    cases rm with
    | reg r => cases hstore
    | mem m =>
      cases hop; cases hstore
      exact ⟨bytes_pos _, frame_of_dispatch rfl hasked (movRmRBody_steps (fetchOperand_steps _ _))
        (moveToRm_mem_effect _ s s.opSize reg m) h⟩

/-- Outside the `n` bytes at `a` a byte of `st` is in `st'` too, and an address without one has none still, or a zero in
the gap of a growth. -/
def SameOutside (a : Int) (n : Nat) (st st' : Stack) : Prop :=
  ∀ x : Int, ¬ (a ≤ x ∧ x < a + n) →
    (∀ b, st.byteAt x = some b → st'.byteAt x = some b) ∧
    (st.byteAt x = none → st'.byteAt x = none ∨ (st'.byteAt x = some 0 ∧ a < x))

theorem SameOutside.refl (a : Int) (n : Nat) (st : Stack) : SameOutside a n st st :=
  fun _ _ => ⟨fun _ h => h, Or.inl⟩

/-- A write under any policy touches no byte outside its own (20_memory.md R71, R76, R77). -/
theorem sameOutside_of_write {st st' : Stack} {a : Int} {bs : List Byte} (hn : bs.length ≠ 0)
    (hcanon : st.canonical = true) (h : st.write a bs = .ok st') : SameOutside a bs.length st st' := by
  rcases Stack.write_ok h with rfl | ⟨hpolicy, hstrict⟩
  · exact .refl _ _ _
  · have htop : a + bs.length - 1 ≤ st.top := (Stack.strictWrite_ok hstrict).1
    have hdone : ¬ Dropped st a bs.length := by rintro (hp | ⟨-, hlt⟩) <;> [exact hpolicy hp; omega]
    have hne : bs ≠ [] := fun h => hn (by rw [h]; rfl)
    obtain ⟨-, -, -, -, hstored⟩ := stored_of_strict hne hcanon hdone hstrict
    intro x hx
    rw [(hstored hdone).2 x, if_neg hx]
    refine ⟨fun b hb => by rw [hb]; rfl, fun hnone => ?_⟩
    rw [hnone]
    by_cases hgap : a < x ∧ x ≤ st.top
    · exact .inr ⟨if_pos hgap, hgap.1⟩
    · exact .inl (if_neg hgap)

/-- What every effect of a store form leaves as it was. -/
theorem StoreEffect.frame {i : Instr} {a : Int} {n : Nat} {s u : State} (hn : n ≠ 0)
    (hcanon : s.stack.canonical = true) (h : StoreEffect (writesLogicFlags i) a n s u) :
    u.slots = s.slots ∧ SameFlags i s u ∧ SameOutside a n s.stack u.stack := by
  cases h with
  | moved k => exact ⟨rfl, fun _ _ => rfl, .refl _ _ _⟩
  | stored k hbs hst =>
    subst hbs
    exact ⟨rfl, fun _ _ => rfl, sameOutside_of_write hn hcanon hst⟩
  | storedWithFlags hxor k hbs hst r w =>
    subst hbs
    exact ⟨rfl, fun k hk => logicFlags_other _ r w _ fun hmem => hk ⟨hxor, hmem⟩, sameOutside_of_write hn hcanon hst⟩

/-- Settles O45: the effect of a store form, and the frame of the effect. -/
theorem storeFormFrame : Obligations.StoreFormFrame := by
  intro s t i op a n hop hstore hcanon hasked h
  obtain ⟨hn, u, heffect, hconf, hended, hstack, hslots, hflags⟩ := exec_store_form hop hstore hasked h
  obtain ⟨huslots, huflags, houtside⟩ := heffect.frame hn hcanon
  rw [hstack]
  exact ⟨hconf, hslots.trans huslots, fun k hk => hflags ▸ huflags k hk, hended, houtside⟩

/-! ### PUSH, CALL and POP -/

/-- What a push of `n` bytes can leave: nothing done, or the bytes written and the stack pointer moved, and ip moved. -/
inductive PushEffect (n : Nat) (s : State) : State → Prop
  | stopped : PushEffect n s s
  | pushed (k : Nat) {bs : List Byte} (hn : bs.length = n) {st : Stack}
    (hst : s.stack.write (s.spAfterPush n) bs = .ok st) (v : Word) :
    PushEffect n s (((s.withStack st).putView s.spReg v).withIp k)

/-- A push stores its bytes and moves the stack pointer, or it stops with nothing changed (R281, R284). -/
theorem pushValue_ends (w : Width) (v : Word) (s : State) :
    Ends (fun _ t => ∃ st sp, s.stack.write (s.spAfterPush w.bytes) (bytesLe v.toNat w.bytes) = .ok st ∧
      t = (s.withStack st).putView s.spReg sp) (StopsAt s) (pushValue w v s) := by
  rw [pushValue, bind_get, bind_of_ok (spReg_read s)]
  refine (store_ends (s.spAfterPush w.bytes) w v s).bind (fun _ _ h => h) ?_
  rintro _ _ ⟨st, hst, rfl⟩
  rw [show regWrite s.spReg _ (s.withStack st) = _ from spReg_write (s.withStack st) _]
  exact ⟨st, _, hst, rfl⟩

theorem pushBody_effect (r : RegId) (s : State) : EndsIn (PushEffect s.stkSize.bytes s) (pushBody r s) := by
  refine .withState (.read (regRead_reads _) .stopped fun v => .bind (pushValue_ends s.stkSize v s) .stopped ?_)
  rintro _ _ ⟨st, sp, hst, rfl⟩
  exact PushEffect.pushed (s.ip + 1) (bytesLe_length _ _) hst sp

theorem callBody_effect {s : State} (hmode : s.mode ≠ .real) (h66 : s.latches.p66 = false) (rel : BitVec 32) :
    EndsIn (PushEffect s.mode.addrWidth.bytes s) (callBody (pure (rel.setWidth 64)) s) := by
  rw [callBody_eq hmode h66]
  refine .bind (pushValue_ends s.mode.addrWidth _ s) .stopped ?_
  rintro _ _ ⟨st, sp, hst, rfl⟩
  by_cases htarget : (s.ip : Int) + 5 + rel.toInt < 0
  · rw [setIp_of_neg htarget]
    exact ⟨by simp, .pushed s.ip (bytesLe_length _ _) hst sp⟩
  · rw [setIp_of_nonneg (not_lt.mp htarget)]
    exact .pushed _ (bytesLe_length _ _) hst sp

/-- What POP can leave: the slots of the stack pointer and of the destination written, and ip moved. -/
def PopEffect (d : Descriptor) (s u : State) : Prop :=
  u.stack = s.stack ∧ u.eflags = s.eflags ∧ ∀ j, j ≠ s.spReg.slot → j ≠ d.slot → u.slots.get j = s.slots.get j

theorem popBody_effect (r : RegId) (s : State) : EndsIn (PopEffect (s.rmD r s.stkSize) s) (popBody r s) := by
  have hstart : PopEffect (s.rmD r s.stkSize) s s := ⟨rfl, rfl, fun _ _ _ => rfl⟩
  refine .withState (.read (regRead_reads _) hstart fun sp => .read (load_reads _ _) hstart fun v =>
    .bind (regWrite_ends s.spReg _ s) hstart ?_)
  rintro _ _ rfl
  refine .bind (regWrite_ends (s.rmD r s.stkSize) v (s.putView s.spReg _)) ?_ ?_
  · exact ⟨rfl, rfl, fun j hsp _ => putView_slot_other s _ hsp⟩
  · rintro _ _ rfl
    exact ⟨rfl, rfl, fun j hsp hd => (putView_slot_other _ v hd).trans (putView_slot_other s _ hsp)⟩

/-- What every effect of a push leaves as it was. -/
theorem PushEffect.frame {n : Nat} {s u : State} (hn : n ≠ 0) (hcanon : s.stack.canonical = true)
    (h : PushEffect n s u) : u.eflags = s.eflags ∧ (∀ j, j ≠ s.spReg.slot → u.slots.get j = s.slots.get j) ∧
      SameOutside (s.spAfterPush n) n s.stack u.stack := by
  cases h with
  | stopped => exact ⟨rfl, fun _ _ => rfl, .refl _ _ _⟩
  | pushed k hbs hst v =>
    refine ⟨rfl, fun j hj => putView_slot_other (s.withStack _) v hj, ?_⟩
    have hout := sameOutside_of_write (hbs ▸ hn) hcanon hst
    rwa [hbs] at hout

/-- PUSH, and CALL where it does not decline, leave a state of `PushEffect`. -/
theorem exec_push_form {s t : State} {i : Instr} {op n : Nat} (hop : opcodeOf i = some op) (hasked : RefAsked op s)
    (hform : (∃ r, i = .pushR r) ∧ n = s.stkSize.bytes ∨
      (∃ rel, i = .callRel32 rel) ∧ n = s.mode.addrWidth.bytes ∧ s.mode ≠ .real ∧ s.latches.p66 = false)
    (h : exec i s = .next t) :
    n ≠ 0 ∧ ∃ u, PushEffect n s u ∧ SameConfiguration s t ∧ AcceptedOrFaulted s t ∧ t.stack = u.stack ∧
      t.slots = u.slots ∧ t.eflags = u.eflags := by
  rcases hform with ⟨⟨r, rfl⟩, rfl⟩ | ⟨⟨rel, rfl⟩, rfl, hmode, h66⟩ <;> cases hop <;> refine ⟨bytes_pos _, ?_⟩
  · exact frame_of_dispatch (refRow_pushR r) hasked (pushBody_steps r) (pushBody_effect r s) h
  · exact frame_of_dispatch rfl hasked (callBody_steps (Steps.pure _)) (callBody_effect hmode h66 rel) h

/-- Settles O46: the effects of a push and of POP, and the frame of each. -/
theorem stackUnitFrame : Obligations.StackUnitFrame := by
  intro s t
  refine ⟨fun i op n hop hasked hcanon hform h => ?push, fun r hasked h => ?pop⟩
  case push =>
    obtain ⟨hn, u, heffect, hconf, hended, hstack, hslots, hflags⟩ := exec_push_form hop hasked hform h
    obtain ⟨huflags, hother, houtside⟩ := heffect.frame hn hcanon
    rw [hstack, hslots]
    exact ⟨hconf, hflags.trans huflags, hended, hother, houtside⟩
  case pop =>
    obtain ⟨u, ⟨hustack, huflags, hother⟩, hconf, hended, hstack, hslots, hflags⟩ :=
      frame_of_dispatch (refRow_popR r) hasked (popBody_steps r) (popBody_effect r s) h
    rw [hslots]
    exact ⟨hconf, hflags.trans huflags, hended, hstack.trans hustack, hother⟩

end Sys2Proof.Machine
end

section
/-! The strict accesses as equations on the stack's buffer (20_memory.md R65 to R78): the buffer by index, what a write
of the cells makes of it, and the trim of a clear. -/

namespace Sys2Proof.Machine.Stack

open Sys2Proof Sys2Proof.Machine

/-! ### The read -/

/-- Settles O47: the two tests in their order, and the bytes at rising addresses. -/
theorem strictReadRule : Obligations.StrictReadRule := by
  intro st a n _
  refine ⟨fun habove => if_pos habove, fun htop hbelow => ?index, fun htop hinside => ?bytes⟩
  case index => exact (if_neg (not_lt.mpr htop)).trans (if_pos hbelow)
  case bytes =>
    refine ⟨_, (if_neg (not_lt.mpr htop)).trans (if_neg (not_lt.mpr hinside)), by simp, fun j hj => ?_⟩
    rw [byteAt_inside (by omega) (by omega)]
    simp [hj]

/-! ### The buffer by index -/

@[simp] theorem bytes_length (st : Stack) : st.bytes.length = st.len := by simp [bytes]

theorem bytes_getElem? (st : Stack) (i : Nat) :
    st.bytes[i]? = if i < st.len then some (Memory.get st.mem (st.len - 1 - i)) else none := by
  by_cases h : i < st.len <;> simp [bytes, h]

/-- The same cells, of which the first `n` depths are bytes of the stack (R65). -/
def withLen (st : Stack) (n : Nat) : Stack := { st with len := n }

@[simp] theorem withLen_len (st : Stack) (n : Nat) : (st.withLen n).len = n := rfl
@[simp] theorem withLen_mem (st : Stack) (n : Nat) : (st.withLen n).mem = st.mem := rfl

/-- The buffer of one byte more begins with the byte at the greatest depth (R65). -/
theorem bytes_withLen_succ (st : Stack) (n : Nat) :
    (st.withLen (n + 1)).bytes = Memory.get st.mem n :: (st.withLen n).bytes := by
  simp only [bytes, withLen_len, withLen_mem, List.range_succ_eq_map, List.map_cons, List.map_map, Nat.add_sub_cancel,
    Nat.sub_zero]
  congr 1
  exact List.map_congr_left fun i _ => by rw [Function.comp_apply, show n - (i + 1) = n - 1 - i by omega]

/-- The buffer after the cells from depth `d` downwards are written: the string at its index, every other byte as the
cells had it. -/
theorem written_getElem? {st : Stack} {m : Memory} {d : Nat} {bs : List Byte} (hm : Memory.wf m = true)
    (hmem : st.mem = Memory.writeDown m d bs) (hd : d < st.len) (hbs : bs.length ≤ d + 1) (i : Nat) :
    st.bytes[i]? = if st.len - 1 - d ≤ i ∧ i < st.len - 1 - d + bs.length then bs[i - (st.len - 1 - d)]?
      else if i < st.len then some (Memory.get m (st.len - 1 - i)) else none := by
  rw [bytes_getElem?]
  by_cases hi : i < st.len
  · rw [if_pos hi, if_pos hi, hmem, Memory.get_writeDown hm d bs hbs]
    by_cases hin : st.len - 1 - d ≤ i ∧ i < st.len - 1 - d + bs.length
    · have hindex : d - (st.len - 1 - i) = i - (st.len - 1 - d) := by omega
      have hlt : i - (st.len - 1 - d) < bs.length := by omega
      rw [if_pos (by omega), if_pos hin, hindex, List.getD_eq_getElem _ _ hlt, List.getElem?_eq_getElem hlt]
    · rw [if_neg (by omega), if_neg hin]
  · rw [if_neg hi, if_neg hi, if_neg (by omega)]

/-! ### The write -/

/-- Written in place, the addressed bytes of the buffer are replaced (R76). -/
theorem bytes_of_written_inside {st st' : Stack} {d o : Nat} {bs : List Byte} (hm : Memory.wf st.mem = true)
    (hmem : st'.mem = Memory.writeDown st.mem d bs) (hlen : st'.len = st.len) (ho : o + d + 1 = st.len)
    (hbs : bs.length ≤ d + 1) : st'.bytes = st.bytes.take o ++ bs ++ st.bytes.drop (o + bs.length) := by
  refine List.ext_getElem? fun i => ?_
  have hstart : st'.len - 1 - d = o := by omega
  have htake : (st.bytes.take o).length = o := by rw [List.length_take, bytes_length]; omega
  rw [written_getElem? hm hmem (by omega) hbs, hstart, hlen]
  by_cases hlow : i < o
  · rw [if_neg (by omega), List.append_assoc, List.getElem?_append_left (by omega), List.getElem?_take_of_lt hlow,
      bytes_getElem?]
  · rw [List.append_assoc, List.getElem?_append_right (by omega), htake]
    by_cases hin : i < o + bs.length
    · rw [if_pos (by omega), List.getElem?_append_left (by omega)]
    · rw [if_neg (by omega), List.getElem?_append_right (by omega), List.getElem?_drop, bytes_getElem?]
      have hindex : o + bs.length + (i - o - bs.length) = i := by omega
      rw [hindex]

/-- A buffer made longer than the listed depths begins with zeros (R77). -/
theorem bytes_padded {st : Stack} (hm : Memory.wf st.mem = true) (hbound : Memory.bound st.mem ≤ st.len) (g : Nat) :
    (st.withLen (st.len + g)).bytes = List.replicate g 0 ++ st.bytes := by
  induction g with
  | zero => rfl
  | succ g ih =>
    rw [← Nat.add_assoc, bytes_withLen_succ, ih, Memory.get_of_bound_le hm (by omega)]
    rfl

/-- Grown by `g` bytes, the buffer is the new bytes and what they leave of the old ones behind a zero gap (R77). -/
theorem bytes_of_grown {st st' : Stack} {g d : Nat} {bs : List Byte} (hm : Memory.wf st.mem = true)
    (hbound : Memory.bound st.mem ≤ st.len) (hmem : st'.mem = Memory.writeDown st.mem d bs)
    (hlen : st'.len = st.len + g) (hd : d + 1 = st.len + g) (hbs : bs.length ≤ d + 1) :
    st'.bytes = bs ++ (List.replicate g 0 ++ st.bytes).drop bs.length := by
  have hpadded : (st.withLen (st.len + g)).len = 0 + d + 1 := by rw [withLen_len]; omega
  rw [bytes_of_written_inside (st := st.withLen (st.len + g)) hm hmem hlen hpadded.symm hbs, bytes_padded hm hbound,
    List.take_zero, List.nil_append, Nat.zero_add]

/-- The gap is what the new bytes leave of the zeros; where they overlap the old bytes they replace the first of
them. -/
theorem drop_padded (n g : Nat) (xs : List Byte) :
    (List.replicate g 0 ++ xs).drop n = if n ≤ g then List.replicate (g - n) 0 ++ xs else xs.drop (n - g) := by
  rw [List.drop_append, List.drop_replicate, List.length_replicate]
  split_ifs with h
  · rw [Nat.sub_eq_zero_of_le h, List.drop_zero]
  · rw [Nat.sub_eq_zero_of_le (by omega), List.replicate_zero, List.nil_append]

/-- A strict write below the written bytes grows the stack (R77). -/
theorem strictWrite_of_growth {st : Stack} {a : Int} {bs : List Byte} (ht : a + bs.length - 1 ≤ st.top)
    (ho : st.off a < 0) (hmax : st.top - a + 1 ≤ st.max) :
    st.strictWrite a bs = .ok { st with len := st.depth a + 1, mem := Memory.writeDown st.mem (st.depth a) bs } := by
  rw [strictWrite, if_neg (not_lt.mpr ht), if_neg (not_le.mpr ho), if_neg (not_lt.mpr hmax)]

/-- A strict write within the written bytes keeps the length (R76). -/
theorem strictWrite_of_inside {st : Stack} {a : Int} {bs : List Byte} (ht : a + bs.length - 1 ≤ st.top)
    (ho : 0 ≤ st.off a) :
    st.strictWrite a bs = .ok { st with mem := Memory.writeDown st.mem (st.depth a) bs } := by
  rw [strictWrite, if_neg (not_lt.mpr ht), if_pos ho]

/-- Settles O48: a growth is a write into the buffer padded with zeros up to the new length. -/
theorem growthEquation : Obligations.GrowthEquation := by
  intro st a bs hcanon hne ht ho
  refine ⟨strictWrite_of_growth_beyond_max ht ho, fun hmax => ⟨_, strictWrite_of_growth ht ho hmax, ?_, ?_⟩⟩
  all_goals
    have hpos : 0 < bs.length := List.length_pos_iff.mpr hne
    have hdepth : (st.depth a : Int) = st.top - a := by simp only [depth]; omega
    have hoff : st.off a = a - (st.top - st.len) - 1 := rfl
  · show ((st.depth a + 1 : Nat) : Int) = _
    omega
  · obtain ⟨hwf, hbound⟩ := (canonical_iff st).mp hcanon
    obtain ⟨g, hg⟩ : ∃ g : Nat, st.off a = -g := ⟨(-st.off a).toNat, by omega⟩
    have hlen : st.depth a + 1 = st.len + g := by omega
    rw [bytes_of_grown hwf hbound rfl hlen hlen (by omega), drop_padded, hg, Int.neg_neg]
    by_cases h : bs.length ≤ g
    · rw [if_pos h, if_pos (by omega), show ((g : Int) - bs.length).toNat = g - bs.length by omega, List.append_assoc]
    · rw [if_neg h, if_neg (by omega), show (bs.length + -(g : Int)).toNat = bs.length - g by omega]

/-- Settles O49: the length stays, so the write replaces the bytes at the address's index. -/
theorem inPlaceWriteEquation : Obligations.InPlaceWriteEquation := by
  intro st a bs hcanon hne ht ho
  have hpos : 0 < bs.length := List.length_pos_iff.mpr hne
  have hdepth : (st.depth a : Int) = st.top - a := by simp only [depth]; omega
  have hoff : st.off a = a - (st.top - st.len) - 1 := rfl
  have hwf := ((canonical_iff st).mp hcanon).1
  exact ⟨_, strictWrite_of_inside ht ho, rfl, bytes_of_written_inside hwf rfl rfl (by omega) (by omega)⟩

/-! ### The clear -/

/-- The buffer up to the greatest listed depth has no leading zero (D36). -/
theorem bytes_withLen_bound_dropWhile {st : Stack} (hm : Memory.wf st.mem = true) :
    (st.withLen (Memory.bound st.mem)).bytes.dropWhile (fun b => b == 0) =
      (st.withLen (Memory.bound st.mem)).bytes := by
  have hlow := Memory.get_bound_pred hm
  cases h : Memory.bound st.mem with
  | zero => rfl
  | succ n =>
    rw [h] at hlow
    rw [bytes_withLen_succ, List.dropWhile_cons_of_neg (by simpa using hlow)]

/-- Trimming every leading zero of a buffer leaves the bytes up to the greatest listed depth (R78, D36). -/
theorem bytes_trimmed {st : Stack} (hm : Memory.wf st.mem = true) (hbound : Memory.bound st.mem ≤ st.len) :
    st.bytes.dropWhile (fun b => b == 0) = (st.withLen (Memory.bound st.mem)).bytes := by
  obtain ⟨g, hg⟩ := Nat.exists_eq_add_of_le hbound
  have hpad := bytes_padded (st := st.withLen (Memory.bound st.mem)) hm le_rfl g
  rw [withLen_len, ← hg] at hpad
  have hself : st.bytes = List.replicate g 0 ++ (st.withLen (Memory.bound st.mem)).bytes := hpad
  rw [hself, List.dropWhile_append_of_pos (by simp), bytes_withLen_bound_dropWhile hm]

theorem strictClear_of_inside {st : Stack} {a : Int} {n : Nat} (ht : a + n - 1 ≤ st.top) (ho : 0 ≤ st.off a) :
    st.strictClear a n = .ok { st with
      len := Memory.bound (Memory.writeDown st.mem (st.depth a) (List.replicate n 0))
      mem := Memory.writeDown st.mem (st.depth a) (List.replicate n 0) } := by
  rw [strictClear, if_neg (not_lt.mpr ht), if_neg (not_lt.mpr ho)]

/-- Settles O50: a clear writes zeros in place, and the new length is what the trim leaves. -/
theorem clearTrimsLeadingZeros : Obligations.ClearTrimsLeadingZeros := by
  intro st a n hcanon hn ht ho
  have hdepth : (st.depth a : Int) = st.top - a := by simp only [depth]; omega
  have hoff : st.off a = a - (st.top - st.len) - 1 := rfl
  have hzeros : (List.replicate n (0 : Byte)).length = n := List.length_replicate
  obtain ⟨hwf, hbound⟩ := (canonical_iff st).mp hcanon
  refine ⟨_, strictClear_of_inside ht ho, (bytes_length _).symm, ?_⟩
  have hfilled := bytes_of_written_inside (bs := List.replicate n 0) (o := (st.off a).toNat)
    (st' := { st with mem := Memory.writeDown st.mem (st.depth a) (List.replicate n 0) }) hwf rfl rfl (by omega)
    (by omega)
  have hbound' : Memory.bound (Memory.writeDown st.mem (st.depth a) (List.replicate n 0)) ≤ st.len :=
    Memory.bound_writeDown hwf _ _ (by omega) hbound (by omega)
  rw [hzeros] at hfilled
  rw [← hfilled, bytes_trimmed (Memory.wf_writeDown hwf _ _) hbound']
  rfl

end Sys2Proof.Machine.Stack
end

section
/-! Descriptors: the lookup, the checks of an access, the sizes and register operands of the reference units
(41_register_file.md R181 to R188; 45_reference_units.md R271). -/

namespace Sys2Proof.Machine

open Sys2Proof

/-! ### The checks of an access -/

section
variable {s : State} {d : Descriptor} (habsent : slotExists s.mode d = false)
include habsent

theorem checkRegister_of_absent : checkRegister d s = .error (.refuse .absentSlot) s := by
  simp [checkRegister, habsent]

theorem regRead_of_absent : regRead d s = .error (.refuse .absentSlot) s :=
  bind_of_error (checkRegister_of_absent habsent)

theorem regWrite_of_absent (v : Word) : regWrite d v s = .error (.refuse .absentSlot) s :=
  bind_of_error (checkRegister_of_absent habsent)

end

/-- Outside Long mode there are eight slots (00_scope.md R7). -/
theorem slotExists_of_not_long {m : Mode} {d : Descriptor} (hm : m ≠ .long) (hd : 8 ≤ d.slot.val) :
    slotExists m d = false := by
  have hregs : m.nregs = 8 := by
    cases m with
    | real | prot => rfl
    | long => exact absurd rfl hm
  exact decide_eq_false (by omega)

/-- Settles O25: both accesses make the same checks before they do anything. -/
theorem widthAndSlotChecks : Obligations.WidthAndSlotChecks := by
  intro s d v
  refine ⟨fun hslot hwide => ⟨regRead_of_too_wide hslot hwide, regWrite_of_too_wide hslot hwide v⟩, fun hm hd => ?_⟩
  have habsent := slotExists_of_not_long hm hd
  exact ⟨regRead_of_absent habsent, regWrite_of_absent habsent v⟩

/-! ### The lookup -/

/-- The lookup's table, the place of the view as the bit that HIGH_BYTE_SHIFT asks (41_register_file.md R181, R185). -/
theorem getByCode_table (id : RegId) (w : Width) (p e : Bool) :
    (getByCode id w p e).code = id ∧
    (getByCode id w p e).slot.val =
      (if p = true ∧ e = true then id.val + 8 else if w = .w8 ∧ p = false ∧ 4 ≤ id.val then id.val - 4 else id.val) ∧
    (getByCode id w p e).isHighByte = decide (w = .w8 ∧ p = false ∧ 4 ≤ id.val) := by
  revert id
  cases w <;> cases p <;> cases e <;> decide

/-- Settles O26: the table of the lookup, and the shift of the high bytes alone. -/
theorem getByCodeTables : Obligations.GetByCodeTables := by
  intro id w p e par
  obtain ⟨hcode, hslot, hhigh⟩ := getByCode_table id w p e
  refine ⟨getByCode_width id w p e, hcode, hslot, ?_⟩
  simp only [Descriptor.shift, hhigh, decide_eq_true_eq]

/-! ### Sizes and register operands -/

theorem rexW_iff (l : Latches) : l.rexW = true ↔ ∃ r, l.rex = some r ∧ r.w = true := by
  cases h : l.rex <;> simp [Latches.rexW, h]

/-- OPSIZE() is 64 with REX.W in Long mode (45_reference_units.md R271). -/
theorem opSize_of_wide {s : State} (h : s.mode = .long ∧ ∃ r, s.latches.rex = some r ∧ r.w = true) : s.opSize = .w64 :=
  if_pos ⟨h.1, (rexW_iff _).mpr h.2⟩

/-- Elsewhere it is 16 under 0x66 or in Real mode, and 32 in every other case (45_reference_units.md R271). -/
theorem opSize_of_not_wide {s : State} (h : ¬ (s.mode = .long ∧ ∃ r, s.latches.rex = some r ∧ r.w = true)) :
    s.opSize = if s.latches.p66 = true ∨ s.mode = .real then .w16 else .w32 := by
  have hwide : ¬ (s.ctx.mode = .long ∧ s.ctx.latches.rexW = true) := by
    rw [rexW_iff]; exact h
  rw [State.opSize, opWidth, if_neg hwide, State.ctx_latches, State.ctx_mode]
  split_ifs <;> simp_all

theorem spReg_slot (s : State) : s.spReg.slot = 4 := by
  cases hm : s.mode <;> rw [State.spReg, hm] <;> rfl

/-- The stack pointer's view is its slot modulo 2^MAXW (45_reference_units.md R271). -/
theorem spReg_view_toNat (s : State) : (s.view s.spReg).toNat = (s.slots.get 4).toNat % 2 ^ s.mode.maxWidth := by
  have hshift : s.spReg.shift s.params = 0 := by cases hm : s.mode <;> rw [State.spReg, hm] <;> rfl
  have hwidth : s.spReg.width = s.mode.addrWidth := getByCode_width _ _ _ _
  rw [State.view, spReg_slot, hshift, Descriptor.mask, hwidth, masked_toNat, addrWidth_bits]
  rfl

/-- Settles O60: the definitions, by the tests that they make. -/
theorem operandSizes : Obligations.OperandSizes := by
  intro s f w wide
  refine ⟨opSize_of_wide, fun hw h => ?w16, fun hw h66 hreal => ?w32, fun h66 => ?stk16, fun h66 => ?stkMode,
    ⟨?slot, ?view⟩, fun hrex => ?noRex, fun r hrex => ?rex⟩
  case w16 => rw [opSize_of_not_wide hw, if_pos h]
  case w32 => rw [opSize_of_not_wide hw, if_neg (by simp [h66, hreal])]
  case stk16 => rw [State.stkSize, if_pos h66]
  case stkMode =>
    rw [State.stkSize, h66, if_neg Bool.false_ne_true]
    cases s.mode <;> rfl
  case slot => exact spReg_slot s
  case view =>
    rw [spReg_view_toNat]
    cases s.mode <;> rfl
  case noRex => simp [State.regD, State.rmD, State.regOp, Latches.rexR, Latches.rexB, hrex]
  case rex => simp [State.regD, State.rmD, State.regOp, Latches.rexR, Latches.rexB, hrex]

end Sys2Proof.Machine
end

section
/-! The host's commands (43_host_interface.md R240 to R264): which check the taint, and what each answers where its
operation ends or stops. -/

namespace Sys2Proof.Machine

open Sys2Proof

/-- Settles O55: `reset()` is done in every state, and writes what `State.hostReset` writes. -/
theorem resetCommand : Obligations.ResetCommand := by
  intro s
  refine ⟨s.hostReset, command_of_unchecked rfl s, fun j => ?_, rfl, rfl, rfl, rfl, rfl, rfl, rfl, rfl, rfl, rfl, rfl,
    rfl, rfl, rfl, rfl, rfl, rfl, rfl⟩
  rw [State.hostReset_slots, Vector.get_eq_getElem, Vector.getElem_replicate]

/-- The commands that do not check the taint (43_host_interface.md R241). -/
theorem checksTaint_eq_false_iff (c : Command) : c.checksTaint = false ↔
    (c = .reset ∨ (∃ m, c = .setMode m) ∨ (∃ a, c = .setStackAddress a) ∨ (∃ n, c = .setStackSize n) ∨
      (∃ b, c = .setAddressBase b) ∨ (∃ u, c = .registerInstructions u) ∨ ∃ bs, c = .setCodeBuffer bs) := by
  cases c <;> simp [Command.checksTaint]

/-- Settles O57: an unchecked command is its effect, which is done; a checked one fails. -/
theorem taintShutsCommandsOut : Obligations.TaintShutsCommandsOut := by
  intro s c ht
  rw [← checksTaint_eq_false_iff]
  refine ⟨fun hunchecked => ?_, fun hchecked => command_of_tainted ht (by simpa using hchecked)⟩
  rw [command_of_unchecked hunchecked]
  rw [checksTaint_eq_false_iff] at hunchecked
  rcases hunchecked with rfl | ⟨_, rfl⟩ | ⟨_, rfl⟩ | ⟨_, rfl⟩ | ⟨_, rfl⟩ | ⟨_, rfl⟩ | ⟨_, rfl⟩ <;> exact ⟨_, rfl⟩

/-! ### Operations issued as commands -/

section
variable {m : UnitM Reply} {s t : State}

theorem asCommand_ok {r : Reply} (h : m s = .ok r t) : asCommand m s = .done t r := by simp only [asCommand, h]
theorem asCommand_fatal {e : FatalError} (h : m s = .error (.fatal e) t) :
    asCommand m s = .error e (t.takeFatal e) := by
  simp only [asCommand, h]
theorem asCommand_refuse {r : Refusal} (h : m s = .error (.refuse r) t) : asCommand m s = .refused r := by
  simp only [asCommand, h]

end

/-- Settles O58: the two pointer commands are the write of ip, done or refused by the sign. -/
theorem pointerCommands : Obligations.PointerCommands := by
  intro s bs n ht
  simp only [command_of_untainted ht]
  exact ⟨rfl, rfl, fun h => asCommand_ok (bind_of_ok (setIp_of_nonneg h s)),
    fun h => asCommand_refuse (bind_of_error (setIp_of_neg h s)),
    fun h => asCommand_ok (bind_of_ok (setIp_of_nonneg h s)),
    fun h => asCommand_refuse (bind_of_error (setIp_of_neg h s))⟩

theorem memClear_eq {a : Int} {n : Nat} {s : State} {st : Stack} (hn : n ≠ 0) (h : s.stack.clear a n = .ok st) :
    memClear a n s = .ok ⟨⟩ (s.withStack st) := by
  simp [memClear, hn, h]

theorem memClear_error {a : Int} {n : Nat} {s : State} {e : FatalError} (hn : n ≠ 0)
    (h : s.stack.clear a n = .error e) : memClear a n s = .error (.fatal e) s := by
  simp [memClear, hn, h]

/-- Settles O59: each command is the operation of its name, and ends or stops as the operation does. -/
theorem hostAccessCommands : Obligations.HostAccessCommands := by
  intro s d v a n bytes ht hn hne
  simp only [command_of_untainted ht]
  refine ⟨fun hslot hfit => ⟨asCommand_ok (bind_of_ok (regRead_eq hslot hfit)),
      asCommand_ok (bind_of_ok (regWrite_eq hslot hfit _))⟩, fun hslot hwide => ?wide,
    fun m b h => asCommand_ok (bind_of_ok h), fun m b t h => asCommand_ok (bind_of_ok h), rfl, rfl,
    fun bs h => asCommand_ok (bind_of_ok (memRead_eq hn h)),
    fun e h => asCommand_fatal (bind_of_error (memRead_error hn h)),
    fun st h => asCommand_ok (bind_of_ok (memWrite_eq hne h)),
    fun e h => asCommand_fatal (bind_of_error (memWrite_error hne h)),
    fun st h => asCommand_ok (bind_of_ok (memClear_eq hn h)),
    fun e h => asCommand_fatal (bind_of_error (memClear_error hn h))⟩
  case wide =>
    have hbits : s.mode.maxWidth < d.width.bits := Nat.not_le.mp (of_decide_eq_false hwide)
    exact ⟨asCommand_fatal (bind_of_error (regRead_of_too_wide hslot hbits)),
      asCommand_fatal (bind_of_error (regWrite_of_too_wide hslot hbits _))⟩

end Sys2Proof.Machine
end
